-- ==== Sys2Proof/Word.lean ====
section
/-! DEFINITION. The word types of SKB-HDRCODEC: a memory byte (R60) and a 64-bit port word (R21). -/

namespace Sys2Proof

/-- One byte of the buffer memory, of an address register or of the options store (R33, R38, R60). -/
abbrev Byte := BitVec 8

/-- The width of a port access, of `VAL` and of `RES` (R21, R244). -/
abbrev Word := BitVec 64

end Sys2Proof
end

