-- ==== Sys2Proof/Syntax.lean ====
section
/-! DEFINITION. The commands of the block: one constructor of `Instr` for each row of the opcode map
(R102), and the names its operand fields select. -/

namespace Sys2Proof

/-- The IPv6 fields that `IP6_FLD_RD` and `IP6_FLD_WR` select (R32). -/
inductive Ip6Field where
  | version
  | trafficClass
  | flowLabel
  | payloadLength
  | nextHeader
  | hopLimit
deriving DecidableEq, Repr

/-- The TCP fields that `TCP_FLD_RD` and `TCP_FLD_WR` select (R35). -/
inductive TcpField where
  | sourcePort
  | destPort
  | sequenceNumber
  | ackNumber
  | dataOffset
  | reserved
  | flags
  | window
  | checksum
  | urgentPointer
  | optionsLength
deriving DecidableEq, Repr

/-- The two address registers (R33, R222). -/
inductive AddrReg where
  | src
  | dst
deriving DecidableEq, Repr

/-- The element width of an address view (R220): 8, 16, 32 or 64 bits. -/
inductive ViewWidth where
  | w8
  | w16
  | w32
  | w64
deriving DecidableEq, Repr

/-- A command (R102). `bo` and `w` are a bit offset and a bit width, `k` an element or byte index. -/
inductive Instr where
  | nop
  | ip6Decode
  | ip6Encode
  | tcpDecode
  | tcpEncode
  | rdBe16
  | rdBe32
  | rdBe64
  | wrBe16
  | wrBe32
  | wrBe64
  | unpackBits (bo w : Byte)
  | packBits (bo w : Byte)
  | ip6Clear
  | ip6Detach
  | ip6FldRd (f : Ip6Field)
  | ip6FldWr (f : Ip6Field)
  | addrRd (r : AddrReg) (w : ViewWidth) (k : Byte)
  | addrWr (r : AddrReg) (w : ViewWidth) (k : Byte)
  | tcpClear
  | tcpDetach
  | tcpFldRd (f : TcpField)
  | tcpFldWr (f : TcpField)
  | optRd (k : Byte)
  | optWr (k : Byte)
deriving DecidableEq, Repr

/-- The rows of the opcode map (R102), without operands. -/
inductive Opcode where
  | nop
  | ip6Decode
  | ip6Encode
  | tcpDecode
  | tcpEncode
  | rdBe16
  | rdBe32
  | rdBe64
  | wrBe16
  | wrBe32
  | wrBe64
  | unpackBits
  | packBits
  | ip6Clear
  | ip6Detach
  | ip6FldRd
  | ip6FldWr
  | addrRd
  | addrWr
  | tcpClear
  | tcpDetach
  | tcpFldRd
  | tcpFldWr
  | optRd
  | optWr
deriving DecidableEq, Repr

/-- The row of the opcode map a command belongs to. -/
def Instr.opcode : Instr → Opcode
  | .nop => .nop
  | .ip6Decode => .ip6Decode
  | .ip6Encode => .ip6Encode
  | .tcpDecode => .tcpDecode
  | .tcpEncode => .tcpEncode
  | .rdBe16 => .rdBe16
  | .rdBe32 => .rdBe32
  | .rdBe64 => .rdBe64
  | .wrBe16 => .wrBe16
  | .wrBe32 => .wrBe32
  | .wrBe64 => .wrBe64
  | .unpackBits _ _ => .unpackBits
  | .packBits _ _ => .packBits
  | .ip6Clear => .ip6Clear
  | .ip6Detach => .ip6Detach
  | .ip6FldRd _ => .ip6FldRd
  | .ip6FldWr _ => .ip6FldWr
  | .addrRd _ _ _ => .addrRd
  | .addrWr _ _ _ => .addrWr
  | .tcpClear => .tcpClear
  | .tcpDetach => .tcpDetach
  | .tcpFldRd _ => .tcpFldRd
  | .tcpFldWr _ => .tcpFldWr
  | .optRd _ => .optRd
  | .optWr _ => .optWr

/-- Bytes in one element of a view: `w/8` (R220, R221). -/
def ViewWidth.bytes : ViewWidth → Nat
  | .w8 => 1
  | .w16 => 2
  | .w32 => 4
  | .w64 => 8

/-- Elements in a view of the 16 address bytes: `16 >> WID` (R103, R220). -/
def ViewWidth.count : ViewWidth → Nat
  | .w8 => 16
  | .w16 => 8
  | .w32 => 4
  | .w64 => 2

end Sys2Proof
end

