-- ==== Sys2Proof/WellFormed.lean ====
section
/-! DEFINITION. The static ranges of R103 that the types of `Instr` do not already hold. -/

namespace Sys2Proof

/-- R103: an element index is below `16 >> WID`, an option index at most 39. `UNPACK_BITS` and
`PACK_BITS` take any `IDX` and `WID` byte; their range is a fault of the command (R137). -/
def Instr.wellFormed : Instr → Bool
  | .addrRd _ w k => k.toNat < w.count
  | .addrWr _ w k => k.toNat < w.count
  | .optRd k => k.toNat ≤ 39
  | .optWr k => k.toNat ≤ 39
  | .nop | .ip6Decode | .ip6Encode | .tcpDecode | .tcpEncode => true
  | .rdBe16 | .rdBe32 | .rdBe64 | .wrBe16 | .wrBe32 | .wrBe64 => true
  | .unpackBits _ _ | .packBits _ _ => true
  | .ip6Clear | .ip6Detach | .ip6FldRd _ | .ip6FldWr _ => true
  | .tcpClear | .tcpDetach | .tcpFldRd _ | .tcpFldWr _ => true

end Sys2Proof
end

