-- ==== Sys2Proof/Decode.lean ====
section
/-! DEFINITION. The command word (R100-R105): decoding, total on every 64-bit value written to `CMD`
and naming what is illegal (R104), and encoding from the same tables. -/

namespace Sys2Proof

/-- The opcode numbers of R102. -/
def Opcode.code : Opcode → Byte
  | .nop => 0x00
  | .ip6Decode => 0x01
  | .ip6Encode => 0x02
  | .tcpDecode => 0x03
  | .tcpEncode => 0x04
  | .rdBe16 => 0x10
  | .rdBe32 => 0x11
  | .rdBe64 => 0x12
  | .wrBe16 => 0x14
  | .wrBe32 => 0x15
  | .wrBe64 => 0x16
  | .unpackBits => 0x18
  | .packBits => 0x19
  | .ip6Clear => 0x20
  | .ip6Detach => 0x21
  | .ip6FldRd => 0x22
  | .ip6FldWr => 0x23
  | .addrRd => 0x24
  | .addrWr => 0x25
  | .tcpClear => 0x30
  | .tcpDetach => 0x31
  | .tcpFldRd => 0x32
  | .tcpFldWr => 0x33
  | .optRd => 0x34
  | .optWr => 0x35

/-- The rows of R102, in its order. -/
def Opcode.all : List Opcode :=
  [.nop, .ip6Decode, .ip6Encode, .tcpDecode, .tcpEncode,
    .rdBe16, .rdBe32, .rdBe64, .wrBe16, .wrBe32, .wrBe64, .unpackBits, .packBits,
    .ip6Clear, .ip6Detach, .ip6FldRd, .ip6FldWr, .addrRd, .addrWr,
    .tcpClear, .tcpDetach, .tcpFldRd, .tcpFldWr, .optRd, .optWr]

/-- The row whose `OPC` is the given byte, if there is one (R105). -/
def Opcode.ofCode? (c : Byte) : Option Opcode := Opcode.all.find? fun op => op.code == c

/-- The mnemonics of R102. -/
def Opcode.mnemonic : Opcode → String
  | .nop => "NOP"
  | .ip6Decode => "IP6_DECODE"
  | .ip6Encode => "IP6_ENCODE"
  | .tcpDecode => "TCP_DECODE"
  | .tcpEncode => "TCP_ENCODE"
  | .rdBe16 => "RD_BE16"
  | .rdBe32 => "RD_BE32"
  | .rdBe64 => "RD_BE64"
  | .wrBe16 => "WR_BE16"
  | .wrBe32 => "WR_BE32"
  | .wrBe64 => "WR_BE64"
  | .unpackBits => "UNPACK_BITS"
  | .packBits => "PACK_BITS"
  | .ip6Clear => "IP6_CLEAR"
  | .ip6Detach => "IP6_DETACH"
  | .ip6FldRd => "IP6_FLD_RD"
  | .ip6FldWr => "IP6_FLD_WR"
  | .addrRd => "ADDR_RD"
  | .addrWr => "ADDR_WR"
  | .tcpClear => "TCP_CLEAR"
  | .tcpDetach => "TCP_DETACH"
  | .tcpFldRd => "TCP_FLD_RD"
  | .tcpFldWr => "TCP_FLD_WR"
  | .optRd => "OPT_RD"
  | .optWr => "OPT_WR"

/-- The fields of the command word that a row uses; every other field must be 0 (R102). -/
structure FieldUse where
  sel : Bool
  idx : Bool
  wid : Bool
deriving DecidableEq, Repr

/-- The "fields used" column of R102. -/
def Opcode.uses : Opcode → FieldUse
  | .unpackBits | .packBits => { sel := false, idx := true, wid := true }
  | .ip6FldRd | .ip6FldWr | .tcpFldRd | .tcpFldWr => { sel := true, idx := false, wid := false }
  | .addrRd | .addrWr => { sel := true, idx := true, wid := true }
  | .optRd | .optWr => { sel := false, idx := true, wid := false }
  | .nop | .ip6Decode | .ip6Encode | .tcpDecode | .tcpEncode
  | .rdBe16 | .rdBe32 | .rdBe64 | .wrBe16 | .wrBe32 | .wrBe64
  | .ip6Clear | .ip6Detach | .tcpClear | .tcpDetach => { sel := false, idx := false, wid := false }

/-- Whether every field the row does not use is 0 (R104 b). -/
def Opcode.unusedZero (op : Opcode) (sel idx wid : Byte) : Bool :=
  (op.uses.sel || sel == 0) && (op.uses.idx || idx == 0) && (op.uses.wid || wid == 0)

/-- The `SEL` code of an IPv6 field (R32). -/
def Ip6Field.code : Ip6Field → Byte
  | .version => 0
  | .trafficClass => 1
  | .flowLabel => 2
  | .payloadLength => 3
  | .nextHeader => 4
  | .hopLimit => 5

/-- The IPv6 field of a `SEL` code, for `SEL <= 5` (R32, R103). -/
def Ip6Field.ofCode? (c : Byte) : Option Ip6Field :=
  [Ip6Field.version, .trafficClass, .flowLabel, .payloadLength, .nextHeader, .hopLimit][c.toNat]?

/-- The `SEL` code of a TCP field (R35). -/
def TcpField.code : TcpField → Byte
  | .sourcePort => 0
  | .destPort => 1
  | .sequenceNumber => 2
  | .ackNumber => 3
  | .dataOffset => 4
  | .reserved => 5
  | .flags => 6
  | .window => 7
  | .checksum => 8
  | .urgentPointer => 9
  | .optionsLength => 10

/-- The TCP field of a `SEL` code, for `SEL <= 10` (R35, R103). -/
def TcpField.ofCode? (c : Byte) : Option TcpField :=
  [TcpField.sourcePort, .destPort, .sequenceNumber, .ackNumber, .dataOffset, .reserved, .flags,
    .window, .checksum, .urgentPointer, .optionsLength][c.toNat]?

/-- The `SEL` code of an address register (R33). -/
def AddrReg.code : AddrReg → Byte
  | .src => 0
  | .dst => 1

/-- The address register of a `SEL` code, for `SEL <= 1` (R33, R103). -/
def AddrReg.ofCode? (c : Byte) : Option AddrReg := [AddrReg.src, .dst][c.toNat]?

/-- The `WID` code of a view width (R101, R220). -/
def ViewWidth.code : ViewWidth → Byte
  | .w8 => 0
  | .w16 => 1
  | .w32 => 2
  | .w64 => 3

/-- The view width of a `WID` code, for `WID <= 3` (R101, R103). -/
def ViewWidth.ofCode? (c : Byte) : Option ViewWidth :=
  [ViewWidth.w8, .w16, .w32, .w64][c.toNat]?

/-- The command of a row and its three operand fields, with the static ranges of R103; `none` where
a used field is out of range. -/
def Opcode.build (op : Opcode) (sel idx wid : Byte) : Option Instr :=
  match op with
  | .nop => some .nop
  | .ip6Decode => some .ip6Decode
  | .ip6Encode => some .ip6Encode
  | .tcpDecode => some .tcpDecode
  | .tcpEncode => some .tcpEncode
  | .rdBe16 => some .rdBe16
  | .rdBe32 => some .rdBe32
  | .rdBe64 => some .rdBe64
  | .wrBe16 => some .wrBe16
  | .wrBe32 => some .wrBe32
  | .wrBe64 => some .wrBe64
  | .unpackBits => some (.unpackBits idx wid)
  | .packBits => some (.packBits idx wid)
  | .ip6Clear => some .ip6Clear
  | .ip6Detach => some .ip6Detach
  | .ip6FldRd => (Ip6Field.ofCode? sel).map .ip6FldRd
  | .ip6FldWr => (Ip6Field.ofCode? sel).map .ip6FldWr
  | .addrRd => (AddrReg.ofCode? sel).bind fun r => (ViewWidth.ofCode? wid).bind fun w =>
      if idx.toNat < w.count then some (.addrRd r w idx) else none
  | .addrWr => (AddrReg.ofCode? sel).bind fun r => (ViewWidth.ofCode? wid).bind fun w =>
      if idx.toNat < w.count then some (.addrWr r w idx) else none
  | .tcpClear => some .tcpClear
  | .tcpDetach => some .tcpDetach
  | .tcpFldRd => (TcpField.ofCode? sel).map .tcpFldRd
  | .tcpFldWr => (TcpField.ofCode? sel).map .tcpFldWr
  | .optRd => if idx.toNat ≤ 39 then some (.optRd idx) else none
  | .optWr => if idx.toNat ≤ 39 then some (.optWr idx) else none

/-- Why a write to `CMD` is illegal: the four cases of R104. -/
inductive Illegal where
  /-- R104 (a): `OPC` is not in the table. -/
  | unknownOpcode
  /-- R104 (b): a field the command does not use is not 0. -/
  | unusedField
  /-- R104 (c): a used field is outside its static range. -/
  | fieldRange
  /-- R104 (d): bits 63:32 of the port write are not 0. -/
  | highBits
deriving DecidableEq, Repr

/-- What decoding answers: the command, or the case of R104 that makes the word illegal. -/
inductive Decoded where
  | command (i : Instr)
  | illegal (why : Illegal)
deriving DecidableEq, Repr

/-- The `OPC` field of a command word (R100). -/
def wordOpc (w : BitVec 32) : Byte := w.extractLsb' 24 8

/-- The `SEL` field (R100). -/
def wordSel (w : BitVec 32) : Byte := w.extractLsb' 16 8

/-- The `IDX` field (R100). -/
def wordIdx (w : BitVec 32) : Byte := w.extractLsb' 8 8

/-- The `WID` field (R100). -/
def wordWid (w : BitVec 32) : Byte := w.extractLsb' 0 8

/-- Decoding a 32-bit command word, as R105 orders its checks. -/
def decodeWord (w : BitVec 32) : Decoded :=
  match Opcode.ofCode? (wordOpc w) with
  | none => .illegal .unknownOpcode
  | some op =>
    if op.unusedZero (wordSel w) (wordIdx w) (wordWid w) then
      match op.build (wordSel w) (wordIdx w) (wordWid w) with
      | none => .illegal .fieldRange
      | some i => .command i
    else .illegal .unusedField

/-- Decoding the 64-bit value of a port write to `CMD` (R104 d, R242). -/
def decodePort (v : Word) : Decoded :=
  if v.extractLsb' 32 32 = 0 then decodeWord (v.setWidth 32) else .illegal .highBits

/-- `OPC<<24 | SEL<<16 | IDX<<8 | WID` (R100). -/
def commandWord (opc sel idx wid : Byte) : BitVec 32 := opc ++ sel ++ idx ++ wid

/-- The `SEL`, `IDX` and `WID` fields of a command; a field it does not use is 0 (R102). -/
def Instr.fields : Instr → Byte × Byte × Byte
  | .unpackBits bo w => (0, bo, w)
  | .packBits bo w => (0, bo, w)
  | .ip6FldRd f => (f.code, 0, 0)
  | .ip6FldWr f => (f.code, 0, 0)
  | .addrRd r w k => (r.code, k, w.code)
  | .addrWr r w k => (r.code, k, w.code)
  | .tcpFldRd f => (f.code, 0, 0)
  | .tcpFldWr f => (f.code, 0, 0)
  | .optRd k => (0, k, 0)
  | .optWr k => (0, k, 0)
  | .nop | .ip6Decode | .ip6Encode | .tcpDecode | .tcpEncode
  | .rdBe16 | .rdBe32 | .rdBe64 | .wrBe16 | .wrBe32 | .wrBe64
  | .ip6Clear | .ip6Detach | .tcpClear | .tcpDetach => (0, 0, 0)

/-- The command word of a command (R100, R102). -/
def encode (i : Instr) : BitVec 32 :=
  commandWord i.opcode.code i.fields.1 i.fields.2.1 i.fields.2.2

/-- What the decoder reads from a word of `nbits` bits numbered as the opcode table numbers them;
every bit above them is 0. Commands are not held in memory (R82), so the word is decoded as the port
receives it. -/
def decodeTableWord (nbits w : Nat) : Option Instr :=
  match decodePort (BitVec.ofNat 64 (w % 2 ^ nbits)) with
  | .command i => some i
  | .illegal _ => none

end Sys2Proof
end

