-- ==== Sys2Proof/Config.lean ====
section
/-! DEFINITION. The implementation parameters of R8, and the free values the spec leaves open. -/

namespace Sys2Proof

/-- `ADDR_VIEW_ORDER`: the byte order of a 16-, 32- or 64-bit address view element (R8, R221, D15). -/
inductive ViewOrder where
  | be
  | le
deriving DecidableEq, Repr

/-- `TCP_RSVD_ENCODE`: whether TCP encode writes the record's `reserved` nibble or zero (R8, R187, D14). -/
inductive RsvdEncode where
  | verbatim
  | zero
deriving DecidableEq, Repr

/-- The parameters of R8, fixed for one block. `AW` runs from 16 to 64, so it is held as its excess
over 16 and no out-of-range width can be written down. DESIGN CHOICE (log 1): the parameters are
plain data in `State` that no step changes, so a statement about every state holds for every choice. -/
structure Params where
  awOver16  : Fin 49
  viewOrder : ViewOrder
  rsvd      : RsvdEncode
deriving DecidableEq, Repr

/-- `AW`, the width in bits of buffer addresses and of `BASE`, `LEN` and `OFF` (R8). -/
def Params.aw (p : Params) : Nat := 16 + p.awOver16.val

/-- The defaults that R8 uses in its examples: `AW = 64`, `BE`, `VERBATIM`. -/
def Params.default : Params := { awOver16 := 48, viewOrder := .be, rsvd := .verbatim }

/-- FREE VALUE (log 8): what the n-th drawn byte of a raced write set holds (R77). -/
opaque Config.freeByte : Nat → Byte

/-- FREE VALUE (log 8): whether the n-th read of a write-set byte between ISSUE and COMMIT returns
the byte's new value (`true`) or its old one (R78). -/
opaque Config.freeBit : Nat → Bool

end Sys2Proof
end

