-- ==== Sys2Proof/Machine/State.lean ====
section
/-! DEFINITION. The architectural state of SKB-HDRCODEC (10_state.md), the buffer memory (R60), the
outside world as plain data, and the state after reset (R350). -/

namespace Sys2Proof.Machine

/-- The status codes a command can finish with (R23, R301). Code 0xFF, `FAULTED`, is written only by
taking a fault (R306). -/
inductive Status where
  | ok
  | truncatedBuffer
  | bufferTooSmall
  | invalidDataOffset
  | invalidOptionsLength
deriving DecidableEq, Repr

/-- The fault causes of R303. Taking one is a NEXT state of the machine (R306), not a stop. -/
inductive Cause where
  | illegalCommand
  | outOfRange
  | badBitRange
  | addressWrap
  | undefinedRecord
  | readOnlyView
  | staleView
  | readOnlyField
  | undefinedField
  | race
deriving DecidableEq, Repr

/-- The state register `ST` of a record (R30). -/
inductive RecState where
  | empty
  | owned
  | bound
deriving DecidableEq, Repr

/-- The fields of the IPv6 record (R32) and its two address registers (R33). -/
structure Ip6Header where
  version       : BitVec 4
  trafficClass  : BitVec 8
  flowLabel     : BitVec 20
  payloadLength : BitVec 16
  nextHeader    : BitVec 8
  hopLimit      : BitVec 8
  src           : Vector Byte 16
  dst           : Vector Byte 16
deriving DecidableEq, Repr

/-- The stored fields of the TCP record (R35) and its options store (R38). `data_offset` is derived
from `optionsLength` and not stored (R37). -/
structure TcpHeader where
  sourcePort     : BitVec 16
  destPort       : BitVec 16
  sequenceNumber : BitVec 32
  ackNumber      : BitVec 32
  reserved       : BitVec 4
  flags          : BitVec 8
  window         : BitVec 16
  checksum       : BitVec 16
  urgentPointer  : BitVec 16
  optionsLength  : BitVec 16
  opt            : Vector Byte 40
deriving DecidableEq, Repr

/-- A header record: its state (R30), its fields, and its binding (R40). -/
structure Record (α : Type) where
  st     : RecState
  hdr    : α
  bindLo : Word
  bindN  : Nat
  stale  : Bool
deriving DecidableEq, Repr

/-- The all-zero IPv6 header that `IP6_CLEAR` writes (R157). -/
def Ip6Header.zero : Ip6Header :=
  { version := 0, trafficClass := 0, flowLabel := 0, payloadLength := 0, nextHeader := 0
    hopLimit := 0, src := Vector.replicate 16 0, dst := Vector.replicate 16 0 }

/-- The all-zero TCP header that `TCP_CLEAR` writes (R192). -/
def TcpHeader.zero : TcpHeader :=
  { sourcePort := 0, destPort := 0, sequenceNumber := 0, ackNumber := 0, reserved := 0, flags := 0
    window := 0, checksum := 0, urgentPointer := 0, optionsLength := 0, opt := Vector.replicate 40 0 }

/-- The buffer memory (R60) as its listed bytes: addresses strictly rising, no listed byte equal to
what an unlisted address reads as (`Memory.wf`). -/
abbrev Memory := List Host.Cell

/-- A command between its ISSUE and COMMIT phases (R41, R76): its opcode field, the status it will
finish with, its read set and write set of byte addresses (the write set with the bytes computed in
ISSUE), its register writes, and whether another agent has written into either set (R77). -/
structure Pending where
  opc    : Byte
  status : Status
  reads  : List Nat
  writes : List Host.Cell
  res    : Option Word
  ip6    : Option (Record Ip6Header)
  tcp    : Option (Record TcpHeader)
  raced  : Bool
deriving DecidableEq, Repr

/-- What the platform can put at an address besides ordinary buffer memory: nothing (R62, U14), or
memory with read side effects (R67, U15). -/
inductive RegionKind where
  | absent
  | sideEffects
deriving DecidableEq, Repr

/-- A range of byte addresses that is not ordinary buffer memory (R62, R67, R68). -/
structure Region where
  base : Nat
  size : Nat
  kind : RegionKind
deriving DecidableEq, Repr

/-- The eight port registers (R21). -/
inductive PortReg where
  | cmd
  | base
  | len
  | off
  | val
  | res
  | status
  | fault
deriving DecidableEq, Repr

/-- An admitted access of the host to its port (R241, R243, R244): 64 bits wide, at the offset of one
of the eight registers. No other access can be written down (R244, R363 a). -/
inductive PortAccess where
  | write (r : PortReg) (v : Word)
  | read (r : PortReg)
deriving DecidableEq, Repr

/-- A move of something outside the command stream: another agent, or the host without the block,
writes or reads one byte of memory (R60, R77, R78); or reset is applied (R350). -/
inductive Move where
  | write (a : Nat) (b : Byte)
  | read (a : Nat)
  | reset
deriving DecidableEq, Repr

/-- The events still to come. `during m` is a move between the ISSUE and COMMIT of the command issued
just before it (R76); `outside m` is a move while no command runs. DESIGN CHOICE (log 5, log 11). -/
inductive Event where
  | port (a : PortAccess)
  | during (m : Move)
  | outside (m : Move)
deriving DecidableEq, Repr

/-- The state: the port registers (R21), the two records (R30-R40), the pending command (R41), the
buffer memory (R60), the parameters (R8) and the platform's map (R62, R67, R68); and, as the model's
own fields, the outside world: the events to come, the position in the host's program (R25), what the
last port read (R243) and the last read by another agent returned, and the number of free values
drawn. `base`, `len` and `off` are held in 64 bits with the bits above `AW` zero (log 2). -/
structure State where
  params    : Params
  map       : List Region
  cmd       : BitVec 32
  base      : Word
  len       : Word
  off       : Word
  val       : Word
  res       : Word
  status    : Byte
  fault     : Word
  ip6       : Record Ip6Header
  tcp       : Record TcpHeader
  pending   : Option Pending
  mem       : Memory
  todo      : List Event
  pos       : Nat
  portData  : Word
  agentData : Byte
  draws     : Nat
deriving DecidableEq, Repr

/-- Why the machine stops with no next state. The fault causes of R303 are not here: they are taken
(R306). -/
inductive Fault where
  /-- Raised by every memory command when it comes to read or write a byte that is not backed by
  memory: the block is stuck (R62, U14, D22). Safe: no claim can be proved of what happens then. -/
  | unbackedByte
deriving DecidableEq, Repr

/-- Why the model gives no meaning. -/
inductive Refusal where
  /-- Raised by `exec` for an instruction with no meaning in this model. Safe. -/
  | notModelled (mnemonic : String)
  /-- Raised by every memory command whose slice holds memory with read side effects, when it comes
  to its first memory access: the spec does not say what the block does there and has the model
  refuse it (R67, U15, D22). Safe. -/
  | sideEffectSlice
  /-- Raised by a move of another agent on an address that is no byte of the buffer memory: outside
  the address space, not backed, or device memory. Safe (log 15). -/
  | notBufferByte
deriving DecidableEq, Repr

/-- A record after reset: `EMPTY`, unbound, not stale (R30, R350); its field values, which the spec
leaves unspecified and unobservable (R351, U7), are zero: DESIGN CHOICE (log 3). -/
def Record.reset {α : Type} (hdr : α) : Record α :=
  { st := .empty, hdr := hdr, bindLo := 0, bindN := 0, stale := false }

/-- The machine right after reset with the given parameters (R350, R21, R24). Memory lists nothing
(log 4), and no event is placed (log 5). -/
def State.resetWith (p : Params) : State :=
  { params := p, map := [], cmd := 0, base := 0, len := 0, off := 0, val := 0, res := 0
    status := 0, fault := 0, ip6 := Record.reset Ip6Header.zero, tcp := Record.reset TcpHeader.zero
    pending := none, mem := [], todo := [], pos := 0, portData := 0, agentData := 0, draws := 0 }

/-- The machine right after reset, at the parameter values R8 uses in its examples (log 1). -/
def State.reset : State := State.resetWith Params.default

end Sys2Proof.Machine
end

