-- ==== Sys2Proof/Machine/Ops.lean ====
section
/-! DEFINITION. The named operations over memory and registers: memory bytes and stale marking (R60,
R80), finishing with a status and taking a fault (R305, R306), the two phases of a command (R76, R77),
reset (R350) and the moves of other agents (R77, R78, R80). -/

namespace Sys2Proof.Machine

/-! ### Codes -/

/-- The numeric status codes of R23. -/
def Status.code : Status → Byte
  | .ok => 0x00
  | .truncatedBuffer => 0x01
  | .bufferTooSmall => 0x02
  | .invalidDataOffset => 0x03
  | .invalidOptionsLength => 0x04

/-- `FAULTED`, the status of a block that has taken a fault (R23, R306). -/
def faultedCode : Byte := 0xFF

/-- The cause codes of R303. -/
def Cause.code : Cause → Byte
  | .illegalCommand => 0x01
  | .outOfRange => 0x02
  | .badBitRange => 0x03
  | .addressWrap => 0x04
  | .undefinedRecord => 0x05
  | .readOnlyView => 0x06
  | .staleView => 0x07
  | .readOnlyField => 0x08
  | .undefinedField => 0x09
  | .race => 0x0A

/-! ### The buffer memory -/

/-- What an address that nothing has written reads as. DESIGN CHOICE (log 4). -/
def Memory.unlisted : Byte := 0

/-- The byte at an address (R60). -/
def Memory.read : Memory → Nat → Byte
  | [], _ => Memory.unlisted
  | (a, b) :: m, x => if x = a then b else Memory.read m x

/-- Writing one byte, keeping the canonical form: writing what an unlisted address reads as removes
the entry. -/
def Memory.write : Memory → Nat → Byte → Memory
  | [], x, v => if v = Memory.unlisted then [] else [(x, v)]
  | (a, b) :: m, x, v =>
    if x < a then (if v = Memory.unlisted then (a, b) :: m else (x, v) :: (a, b) :: m)
    else if x = a then (if v = Memory.unlisted then m else (x, v) :: m)
    else (a, b) :: Memory.write m x v

/-- The canonical form from a lower bound on: addresses strictly rising and at least `lo`, no entry
equal to what an unlisted address reads as. -/
def Memory.wfFrom : Nat → Memory → Bool
  | _, [] => true
  | lo, (a, b) :: m => decide (lo ≤ a) && b != Memory.unlisted && Memory.wfFrom (a + 1) m

/-- The canonical form of memory. -/
def Memory.wf (m : Memory) : Bool := Memory.wfFrom 0 m

/-- Whether every listed address is below a bound. -/
def Memory.below (m : Memory) (n : Nat) : Bool := m.all fun c => decide (c.1 < n)

/-- Writing bytes at their addresses, in list order. -/
def Memory.writeCells : Memory → List Host.Cell → Memory
  | m, [] => m
  | m, (a, b) :: cs => Memory.writeCells (m.write a b) cs

/-- `MemRead(addr, n)`: the `n` bytes from an address on, in address order (R13). -/
def Memory.readBytes (m : Memory) : Nat → Nat → List Byte
  | _, 0 => []
  | a, n + 1 => m.read a :: Memory.readBytes m (a + 1) n

/-- The bytes of `MemWrite(addr, n, b)` with their addresses (R13). -/
def cellsAt : Nat → List Byte → List Host.Cell
  | _, [] => []
  | a, b :: bs => (a, b) :: cellsAt (a + 1) bs

/-- The addresses `lo` to `lo + n - 1`. -/
def addrsFrom : Nat → Nat → List Nat
  | _, 0 => []
  | lo, n + 1 => lo :: addrsFrom (lo + 1) n

/-! ### Records -/

/-- Whether an address is one of the bytes a `BOUND` record was decoded from (R40, R80). -/
def Record.covers {α : Type} (r : Record α) (a : Nat) : Bool :=
  r.st == .bound && decide (r.bindLo.toNat ≤ a) && decide (a < r.bindLo.toNat + r.bindN)

/-- Stale marking: a write to a byte that a `BOUND` record covers sets `STALE`, whatever the value
written (R80, D39). -/
def Record.touch {α : Type} (r : Record α) (cs : List Host.Cell) : Record α :=
  if cs.any fun c => r.covers c.1 then { r with stale := true } else r

/-- `readable6` and `readableT`: why a record cannot be read, if it cannot (R150, R180). -/
def Record.readable {α : Type} (r : Record α) : Option Cause :=
  match r.st with
  | .empty => some .undefinedRecord
  | .owned => none
  | .bound => if r.stale then some .staleView else none

/-- `writable6` and `writableT`: why a record cannot be written, if it cannot (R150, R180). -/
def Record.writable {α : Type} (r : Record α) : Option Cause :=
  match r.st with
  | .empty => some .undefinedRecord
  | .owned => none
  | .bound => some .readOnlyView

/-- Unbinding: `BIND_N <- 0`, `STALE <- 0` (R157, R192). `BIND_LO` keeps its value (log 20). -/
def Record.unbind {α : Type} (r : Record α) : Record α := { r with bindN := 0, stale := false }

/-- The record that a clear leaves: owned, unbound, with the given all-zero header (R157, R192). -/
def Record.clear {α : Type} (r : Record α) (zero : α) : Record α :=
  { r.unbind with st := .owned, hdr := zero }

/-- The record that a detach leaves: a `BOUND` one becomes `OWNED` and unbound, its fields kept; an
`OWNED` one does not change (R158, R193). -/
def Record.detach {α : Type} (r : Record α) : Record α :=
  match r.st with
  | .bound => { r.unbind with st := .owned }
  | .owned => r
  | .empty => r

/-- The record that a successful decode leaves: bound to the `n` header bytes at `lo`, not stale
(R40, R151, R181). -/
def Record.bind {α : Type} (hdr : α) (lo : Word) (n : Nat) : Record α :=
  { st := .bound, hdr := hdr, bindLo := lo, bindN := n, stale := false }

/-- The record with other header fields (R162, R198, R200, R224). -/
def Record.setHdr {α : Type} (r : Record α) (hdr : α) : Record α := { r with hdr := hdr }

/-! ### Register updates -/

/-- `FAULT.V`: the block is in the faulted state (R24, R307). -/
def State.faulted (s : State) : Bool := s.fault.getLsbD 0

/-- The fault record `(opc << 24) | (c << 8) | 1` (R24, R306). -/
def faultWord (opc : Byte) (c : Cause) : Word :=
  (opc.setWidth 64 <<< 24) ||| (c.code.setWidth 64 <<< 8) ||| 1

/-- TAKING A FAULT (R306): the command is abandoned, with no memory, record, binding or `RES` write;
`FAULT` records the opcode field and the cause, and `STATUS` becomes 0xFF. There is no handler, no
saved program counter and no return but reset (R308). -/
def State.raise (s : State) (opc : Byte) (c : Cause) : State :=
  { s with fault := faultWord opc c, status := faultedCode }

/-- `finish(st)`: the command ends and `STATUS` is written (R305). -/
def State.finish (s : State) (st : Status) : State := { s with status := st.code }

/-- Performing memory writes, by the block or by another agent: the bytes change, and every `BOUND`
record they touch becomes stale (R80). -/
def State.store (s : State) (cs : List Host.Cell) : State :=
  { s with mem := s.mem.writeCells cs, ip6 := s.ip6.touch cs, tcp := s.tcp.touch cs }

/-- The register writes of COMMIT: `RES` and the records the command writes (R76). -/
def State.writeRegs (s : State) (p : Pending) : State :=
  { s with res := p.res.getD s.res, ip6 := p.ip6.getD s.ip6, tcp := p.tcp.getD s.tcp }

/-- `BASE + LEN` and the like as exact integers (R12): the top of the slice. -/
def State.sliceEnd (s : State) : Nat := s.base.toNat + s.len.toNat

/-- `BASE + OFF`, the address a memory command starts at (R61, R90). -/
def State.start (s : State) : Nat := s.base.toNat + s.off.toNat

/-- `avail = LEN - OFF`, an exact integer that is negative when `OFF > LEN` (R12, R15). -/
def State.avail (s : State) : Int := (s.len.toNat : Int) - (s.off.toNat : Int)

/-- Whether the slice passes the top of the address space: `BASE + LEN > 2^AW` (R69). -/
def State.wraps (s : State) : Bool := decide (2 ^ s.params.aw < s.sliceEnd)

/-! ### The platform's memory -/

/-- Whether some byte of the `n` bytes from `lo` on lies in a region of the given kind. -/
def State.hits (s : State) (k : RegionKind) (lo n : Nat) : Bool :=
  s.map.any fun r =>
    r.kind == k && decide (0 < n) && decide (0 < r.size) && decide (r.base < lo + n)
      && decide (lo < r.base + r.size)

/-- Whether an address is a byte of the buffer memory: inside the address space (R60), backed (R62)
and without read side effects (R67). -/
def State.isBufferByte (s : State) (a : Nat) : Bool :=
  decide (a < 2 ^ s.params.aw) && !s.hits .absent a 1 && !s.hits .sideEffects a 1

/-! ### The two phases of a command -/

/-- How ISSUE ends: with a fault (R306); with a command ready for COMMIT, an error status being one
that writes `STATUS` alone (R305); or with the block stuck (R62) or the model refusing (R67). -/
inductive Issued where
  | faults (c : Cause)
  | ready (p : Pending)
  | stuck (f : Fault)
  | refuses (r : Refusal)
deriving DecidableEq, Repr

/-- `finish(st)` in ISSUE, after reading the given bytes: COMMIT then writes `STATUS` alone (R305). -/
def Issued.finish (st : Status) (reads : List Nat) : Issued :=
  .ready { opc := 0, status := st, reads := reads, writes := [], res := none, ip6 := none
           tcp := none, raced := false }

/-- A command that will complete with `OK`, reading the given bytes and writing nothing yet named. -/
def okPending (reads : List Nat) : Pending :=
  { opc := 0, status := .ok, reads := reads, writes := [], res := none, ip6 := none, tcp := none
    raced := false }

/-- COMMIT writes `RES` (R22). -/
def Issued.result (reads : List Nat) (v : Word) : Issued :=
  .ready { okPending reads with res := some v }

/-- COMMIT writes memory (R76). -/
def Issued.stores (reads : List Nat) (cs : List Host.Cell) : Issued :=
  .ready { okPending reads with writes := cs }

/-- COMMIT writes the IPv6 record. -/
def Issued.setIp6 (reads : List Nat) (r : Record Ip6Header) : Issued :=
  .ready { okPending reads with ip6 := some r }

/-- COMMIT writes the TCP record. -/
def Issued.setTcp (reads : List Nat) (r : Record TcpHeader) : Issued :=
  .ready { okPending reads with tcp := some r }

/-- A check of ISSUE: the fault it finds, or the rest of ISSUE. -/
def Issued.check (c : Option Cause) (next : Issued) : Issued :=
  match c with
  | some c => .faults c
  | none => next

/-- Accessing the `n` bytes at `lo`: the model refuses a slice over memory with read side effects
(R67, log 13), and the block is stuck at a byte that is not backed (R62, U14, log 12). -/
def State.access (s : State) (lo n : Nat) (next : Issued) : Issued :=
  if s.hits .sideEffects s.base.toNat s.len.toNat then .refuses .sideEffectSlice
  else if s.hits .absent lo n then .stuck .unbackedByte
  else next

/-- The bytes a raced write set holds: each a fresh free value (R77, log 8). -/
def drawCells : Nat → List Host.Cell → List Host.Cell
  | _, [] => []
  | n, (a, _) :: cs => (a, Config.freeByte n) :: drawCells (n + 1) cs

/-- The `Race` fault at COMMIT (R77, R306): every byte of the write set holds any value, no register
is written, no record and no binding changes, and the fault is taken. That `STALE`, a part of the
binding (R40), stays as it was is how log 9 reads R306 beside R80. -/
def State.raceFault (s : State) (p : Pending) : State :=
  { s with
    mem := s.mem.writeCells (drawCells s.draws p.writes)
    draws := s.draws + p.writes.length }.raise p.opc .race

/-- COMMIT (R76): a raced command faults (R77), but one that ends with an error status does not (R66,
R309, log 10); otherwise all memory writes and register writes happen at once, then `STATUS`. -/
def State.commit (s : State) (p : Pending) : State :=
  let idle := { s with pending := none }
  if p.raced && p.status == .ok then idle.raceFault p
  else ((idle.store p.writes).writeRegs p).finish p.status

/-- Whether something outside moves before COMMIT (R76, log 11). -/
def State.interposed (s : State) : Bool :=
  match s.todo with
  | .during _ :: _ => true
  | _ => false

/-- From ISSUE on to COMMIT: at once, unless something outside moves in between, when the command is
left pending (R41, R76). -/
def State.launch (s : State) (p : Pending) : State :=
  if s.interposed then { s with pending := some p } else s.commit p

/-- Running a command (R76): ignored in the faulted state (R307); else its ISSUE, and what follows. -/
def runCommand (op : Opcode) (issue : State → Issued) (s : State) :
    Host.Outcome State Fault Refusal :=
  if s.faulted then .next s
  else
    match issue s with
    | .faults c => .next (s.raise op.code c)
    | .ready p => .next (s.launch { p with opc := op.code })
    | .stuck f => .fault f
    | .refuses r => .refused r

/-! ### Reset and the moves of other agents -/

/-- Reset of the block (R350): every piece of block state takes its reset value, a pending command is
abandoned, and the parameters, the platform, the buffer memory (R352) and the outside world stay. -/
def State.resetBlock (s : State) : State :=
  { State.resetWith s.params with
    map := s.map, mem := s.mem, todo := s.todo, pos := s.pos, portData := s.portData
    agentData := s.agentData, draws := s.draws }

/-- A write by another agent marks a pending command raced when it hits its read or write set (R77). -/
def Pending.hitBy (p : Pending) (a : Nat) : Pending :=
  if p.reads.contains a || p.writes.any fun c => c.1 == a then { p with raced := true } else p

/-- Another agent writes one byte (R77, R80). -/
def State.agentWrite (s : State) (a : Nat) (b : Byte) : State :=
  { s.store [(a, b)] with pending := s.pending.map fun p => p.hitBy a }

/-- The byte a pending command will write at an address, if it will (R78). -/
def Pending.newByte? (p : Pending) (a : Nat) : Option Byte :=
  (p.writes.find? fun c => c.1 == a).map fun c => c.2

/-- Another agent reads one byte. Of a pending command's write set it gets the old or the new byte, by
a free value (R78, log 8); of anything else, the byte in memory (R60). -/
def State.agentRead (s : State) (a : Nat) : State :=
  match s.pending.bind fun p => p.newByte? a with
  | some new =>
    { s with
      agentData := if Config.freeBit s.draws then new else s.mem.read a
      draws := s.draws + 1 }
  | none => { s with agentData := s.mem.read a }

/-- A move from outside the command stream. A memory access on an address that is no buffer byte is
refused (log 15). -/
def State.move (s : State) (m : Move) : Host.Outcome State Fault Refusal :=
  match m with
  | .write a b => if s.isBufferByte a then .next (s.agentWrite a b) else .refused .notBufferByte
  | .read a => if s.isBufferByte a then .next (s.agentRead a) else .refused .notBufferByte
  | .reset => .next s.resetBlock

end Sys2Proof.Machine
end

