-- ==== Sys2Proof/Machine/Wire.lean ====
section
/-! DEFINITION. Byte order and the two wire formats: big- and little-endian byte sequences (R13, R63,
R224), the IPv6 header (R91, R92) and the TCP header (R93-R95). -/

namespace Sys2Proof.Machine

/-- `be(b[i..j])`: the unsigned integer whose most significant byte comes first (R13). -/
def beNat (bs : List Byte) : Nat := bs.foldl (fun acc b => acc * 256 + b.toNat) 0

/-- `le(c[0..n-1])`: the unsigned integer whose least significant byte comes first (R221). -/
def leNat : List Byte → Nat
  | [] => 0
  | c :: cs => c.toNat + 256 * leNat cs

/-- `bytes_be(v, n)`: the `n`-byte big-endian sequence of `trunc_{8n}(v)` (R13). -/
def bytesBe : Nat → Nat → List Byte
  | 0, _ => []
  | n + 1, v => bytesBe n (v / 256) ++ [BitVec.ofNat 8 v]

/-- `bytes_le(v, n)`: the `n`-byte little-endian sequence of `v` (R224). -/
def bytesLe : Nat → Nat → List Byte
  | 0, _ => []
  | n + 1, v => BitVec.ofNat 8 v :: bytesLe n (v / 256)

/-- Byte `i` of a byte sequence. -/
def byteAt (bs : List Byte) (i : Nat) : Byte := bs.getD i 0

/-- The fields of the 40 IPv6 header bytes, in the register form of R91. -/
def ip6OfBytes (b : List Byte) : Ip6Header :=
  { version := (byteAt b 0).extractLsb' 4 4
    trafficClass := (byteAt b 0).extractLsb' 0 4 ++ (byteAt b 1).extractLsb' 4 4
    flowLabel := (byteAt b 1).extractLsb' 0 4 ++ byteAt b 2 ++ byteAt b 3
    payloadLength := byteAt b 4 ++ byteAt b 5
    nextHeader := byteAt b 6
    hopLimit := byteAt b 7
    src := Vector.ofFn fun i => byteAt b (8 + i.val)
    dst := Vector.ofFn fun i => byteAt b (24 + i.val) }

/-- The 40 bytes of an IPv6 header (R92). -/
def ip6ToBytes (h : Ip6Header) : List Byte :=
  [ h.version ++ h.trafficClass.extractLsb' 4 4,
    h.trafficClass.extractLsb' 0 4 ++ h.flowLabel.extractLsb' 16 4,
    h.flowLabel.extractLsb' 8 8,
    h.flowLabel.extractLsb' 0 8,
    h.payloadLength.extractLsb' 8 8,
    h.payloadLength.extractLsb' 0 8,
    h.nextHeader,
    h.hopLimit ] ++ h.src.toList ++ h.dst.toList

/-- The `data_offset` nibble of a TCP header: the high nibble of byte 12 (R93, R97). -/
def tcpOffsetNibble (b : List Byte) : BitVec 4 := (byteAt b 12).extractLsb' 4 4

/-- The fields of a TCP header of `4 * data_offset` bytes (R94); option bytes past the header are 0
(R181). -/
def tcpOfBytes (b : List Byte) : TcpHeader :=
  let d := (tcpOffsetNibble b).toNat
  { sourcePort := byteAt b 0 ++ byteAt b 1
    destPort := byteAt b 2 ++ byteAt b 3
    sequenceNumber := byteAt b 4 ++ byteAt b 5 ++ byteAt b 6 ++ byteAt b 7
    ackNumber := byteAt b 8 ++ byteAt b 9 ++ byteAt b 10 ++ byteAt b 11
    reserved := (byteAt b 12).extractLsb' 0 4
    flags := byteAt b 13
    window := byteAt b 14 ++ byteAt b 15
    checksum := byteAt b 16 ++ byteAt b 17
    urgentPointer := byteAt b 18 ++ byteAt b 19
    optionsLength := BitVec.ofNat 16 (4 * d - 20)
    opt := Vector.ofFn fun i => if 20 + i.val < 4 * d then byteAt b (20 + i.val) else 0 }

/-- The low nibble of byte 12 that TCP encode writes (R187). -/
def rsvdOut (mode : RsvdEncode) (h : TcpHeader) : BitVec 4 :=
  match mode with
  | .verbatim => h.reserved
  | .zero => 0

/-- The length in bytes of the header that TCP encode writes: `20 + options_length` (R186). -/
def tcpLength (h : TcpHeader) : Nat := 20 + h.optionsLength.toNat

/-- The bytes of a TCP header (R94), with `data_offset = H / 4` (R186) and the reserved nibble of
R187. -/
def tcpToBytes (mode : RsvdEncode) (h : TcpHeader) : List Byte :=
  [ h.sourcePort.extractLsb' 8 8, h.sourcePort.extractLsb' 0 8,
    h.destPort.extractLsb' 8 8, h.destPort.extractLsb' 0 8,
    h.sequenceNumber.extractLsb' 24 8, h.sequenceNumber.extractLsb' 16 8,
    h.sequenceNumber.extractLsb' 8 8, h.sequenceNumber.extractLsb' 0 8,
    h.ackNumber.extractLsb' 24 8, h.ackNumber.extractLsb' 16 8,
    h.ackNumber.extractLsb' 8 8, h.ackNumber.extractLsb' 0 8,
    BitVec.ofNat 4 (tcpLength h / 4) ++ rsvdOut mode h,
    h.flags,
    h.window.extractLsb' 8 8, h.window.extractLsb' 0 8,
    h.checksum.extractLsb' 8 8, h.checksum.extractLsb' 0 8,
    h.urgentPointer.extractLsb' 8 8, h.urgentPointer.extractLsb' 0 8 ]
    ++ h.opt.toList.take h.optionsLength.toNat

end Sys2Proof.Machine
end

