-- ==== Sys2Proof/Machine/Operands.lean ====
section
/-! DEFINITION. The operand forms: the memory check of a slice access (R130), the bit ranges (R137),
the header fields (R32, R35, R37), the option bytes (R38) and the address views (R220, R221). -/

namespace Sys2Proof.Machine

/-- `mem_check(n)` of R130: `AddressWrap` first, then `OutOfRange`, over exact integers (R12). -/
def State.memCheck (s : State) (n : Nat) : Option Cause :=
  if s.wraps then some .addressWrap
  else if s.len.toNat < s.off.toNat + n then some .outOfRange
  else none

/-- The `AddressWrap` check of the codecs (R69, R151, R155, R181, R186). -/
def State.wrapCheck (s : State) : Option Cause :=
  if s.wraps then some .addressWrap else none

/-! ### Bit groups -/

/-- `nb` of R137: how many bytes a bit range spans. -/
def bitBytes (bo w : Nat) : Nat := if bo + w ≤ 8 then 1 else 2

/-- The range check of R137: `bo <= 7`, `1 <= w` and `bo + w <= 16`. -/
def bitRangeCheck (bo w : Nat) : Option Cause :=
  if bo ≤ 7 ∧ 1 ≤ w ∧ bo + w ≤ 16 then none else some .badBitRange

/-- The 16-bit window of R138: the first byte on top, then the second, or 0 where the range spans one
byte. -/
def bitWindow (b : List Byte) (nb : Nat) : BitVec 16 :=
  byteAt b 0 ++ (if nb = 2 then byteAt b 1 else 0)

/-- `(1 << w) - 1` (R138, R139). -/
def bitMask (w : Nat) : BitVec 16 := BitVec.ofNat 16 (2 ^ w - 1)

/-- The bit group of a window (R138). -/
def unpackWindow (win : BitVec 16) (bo w : Nat) : BitVec 16 :=
  (win >>> (16 - bo - w)) &&& bitMask w

/-- The window with the bit group replaced by the low `w` bits of a value (R139). -/
def packWindow (win : BitVec 16) (bo w : Nat) (v : Word) : BitVec 16 :=
  let sh := 16 - bo - w
  let m := bitMask w <<< sh
  (win &&& ~~~m) ||| ((v.setWidth 16 <<< sh) &&& m)

/-- The one or two bytes of a window that a bit range spans (R139). -/
def windowBytes (win : BitVec 16) (nb : Nat) : List Byte :=
  if nb = 2 then [win.extractLsb' 8 8, win.extractLsb' 0 8] else [win.extractLsb' 8 8]

/-! ### Header fields -/

/-- A named IPv6 field, zero-extended (R11, R161). -/
def Ip6Header.get (h : Ip6Header) : Ip6Field → Word
  | .version => h.version.setWidth 64
  | .trafficClass => h.trafficClass.setWidth 64
  | .flowLabel => h.flowLabel.setWidth 64
  | .payloadLength => h.payloadLength.setWidth 64
  | .nextHeader => h.nextHeader.setWidth 64
  | .hopLimit => h.hopLimit.setWidth 64

/-- Writing a named IPv6 field, truncated to its width (R18, R162). -/
def Ip6Header.set (h : Ip6Header) (f : Ip6Field) (v : Word) : Ip6Header :=
  match f with
  | .version => { h with version := v.setWidth 4 }
  | .trafficClass => { h with trafficClass := v.setWidth 8 }
  | .flowLabel => { h with flowLabel := v.setWidth 20 }
  | .payloadLength => { h with payloadLength := v.setWidth 16 }
  | .nextHeader => { h with nextHeader := v.setWidth 8 }
  | .hopLimit => { h with hopLimit := v.setWidth 8 }

/-- `data_offset_of(OL)` of R37: `none` is `UNDEFINED`. -/
def dataOffsetOf (ol : BitVec 16) : Option Nat :=
  if ol.toNat % 4 = 0 ∧ ol.toNat ≤ 40 then some ((20 + ol.toNat) / 4) else none

/-- A named TCP field, zero-extended (R11, R197); `none` is `data_offset` while it is `UNDEFINED`
(R37). -/
def TcpHeader.get? (h : TcpHeader) : TcpField → Option Word
  | .sourcePort => some (h.sourcePort.setWidth 64)
  | .destPort => some (h.destPort.setWidth 64)
  | .sequenceNumber => some (h.sequenceNumber.setWidth 64)
  | .ackNumber => some (h.ackNumber.setWidth 64)
  | .dataOffset => (dataOffsetOf h.optionsLength).map fun d => BitVec.ofNat 64 d
  | .reserved => some (h.reserved.setWidth 64)
  | .flags => some (h.flags.setWidth 64)
  | .window => some (h.window.setWidth 64)
  | .checksum => some (h.checksum.setWidth 64)
  | .urgentPointer => some (h.urgentPointer.setWidth 64)
  | .optionsLength => some (h.optionsLength.setWidth 64)

/-- Writing a named TCP field, truncated to its width (R18, R198); `none` for `data_offset`, which is
derived and read only (R37). -/
def TcpHeader.set? (h : TcpHeader) (f : TcpField) (v : Word) : Option TcpHeader :=
  match f with
  | .sourcePort => some { h with sourcePort := v.setWidth 16 }
  | .destPort => some { h with destPort := v.setWidth 16 }
  | .sequenceNumber => some { h with sequenceNumber := v.setWidth 32 }
  | .ackNumber => some { h with ackNumber := v.setWidth 32 }
  | .dataOffset => none
  | .reserved => some { h with reserved := v.setWidth 4 }
  | .flags => some { h with flags := v.setWidth 8 }
  | .window => some { h with window := v.setWidth 16 }
  | .checksum => some { h with checksum := v.setWidth 16 }
  | .urgentPointer => some { h with urgentPointer := v.setWidth 16 }
  | .optionsLength => some { h with optionsLength := v.setWidth 16 }

/-- An option byte (R38, R199). -/
def TcpHeader.optByte (h : TcpHeader) (k : Nat) : Byte := byteAt h.opt.toList k

/-- Writing an option byte; `options_length` does not change (R200). -/
def TcpHeader.setOpt (h : TcpHeader) (k : Nat) (b : Byte) : TcpHeader :=
  { h with opt := Vector.ofFn fun i => if i.val = k then b else h.opt[i] }

/-! ### Address views -/

/-- The selected address register (R222). -/
def Ip6Header.addr (h : Ip6Header) : AddrReg → Vector Byte 16
  | .src => h.src
  | .dst => h.dst

/-- Writing the selected address register (R224). -/
def Ip6Header.setAddr (h : Ip6Header) (r : AddrReg) (a : Vector Byte 16) : Ip6Header :=
  match r with
  | .src => { h with src := a }
  | .dst => { h with dst := a }

/-- The bytes of element `k` of a view (R220). -/
def elemBytes (a : Vector Byte 16) (w : ViewWidth) (k : Nat) : List Byte :=
  (a.toList.drop (w.bytes * k)).take w.bytes

/-- `elem(A, w, k)` of R221, zero-extended (R223). -/
def elemValue (o : ViewOrder) (a : Vector Byte 16) (w : ViewWidth) (k : Nat) : Word :=
  match o with
  | .be => BitVec.ofNat 64 (beNat (elemBytes a w k))
  | .le => BitVec.ofNat 64 (leNat (elemBytes a w k))

/-- The byte sequence `c[0..n-1]` that an element write stores (R224). -/
def elemSequence (o : ViewOrder) (w : ViewWidth) (v : Word) : List Byte :=
  match o with
  | .be => bytesBe w.bytes v.toNat
  | .le => bytesLe w.bytes v.toNat

/-- Writing element `k` of a view: its bytes are replaced, no other byte changes (R224). -/
def setElem (a : Vector Byte 16) (w : ViewWidth) (k : Nat) (c : List Byte) : Vector Byte 16 :=
  Vector.ofFn fun i =>
    if w.bytes * k ≤ i.val ∧ i.val < w.bytes * k + w.bytes then byteAt c (i.val - w.bytes * k)
    else a[i]

end Sys2Proof.Machine
end

