-- ==== Sys2Proof/Machine/AddrView.lean ====
section
/-! DEFINITION. The multi-view address register commands (R220-R224). -/

namespace Sys2Proof.Machine

/-- The static element range of R103, checked before the record (R309). Decoding never gives an
element outside it; the meaning says what R104 says of one all the same (log 18). -/
def elemCheck (w : ViewWidth) (k : Nat) : Option Cause :=
  if k < w.count then none else some .illegalCommand

/-- ISSUE of `ADDR_RD` (R223). -/
def issueAddrRd (r : AddrReg) (w : ViewWidth) (k : Nat) (s : State) : Issued :=
  .check (elemCheck w k) <| .check s.ip6.readable <|
    .result [] (elemValue s.params.viewOrder (s.ip6.hdr.addr r) w k)

/-- ISSUE of `ADDR_WR` (R224). -/
def issueAddrWr (r : AddrReg) (w : ViewWidth) (k : Nat) (s : State) : Issued :=
  .check (elemCheck w k) <| .check s.ip6.writable <|
    .setIp6 [] (s.ip6.setHdr (s.ip6.hdr.setAddr r
      (setElem (s.ip6.hdr.addr r) w k (elemSequence s.params.viewOrder w s.val))))

/-- `ADDR_RD r, w, k` (R223). -/
def execAddrRd (r : AddrReg) (w : ViewWidth) (k : Byte) (s : State) :
    Host.Outcome State Fault Refusal :=
  runCommand .addrRd (issueAddrRd r w k.toNat) s

/-- `ADDR_WR r, w, k` (R224). -/
def execAddrWr (r : AddrReg) (w : ViewWidth) (k : Byte) (s : State) :
    Host.Outcome State Fault Refusal :=
  runCommand .addrWr (issueAddrWr r w k.toNat) s

end Sys2Proof.Machine
end

