-- ==== Sys2Proof/Machine/BitGroup.lean ====
section
/-! DEFINITION. The bit-group commands (R137-R139). -/

namespace Sys2Proof.Machine

/-- ISSUE of `UNPACK_BITS` (R138): the range check comes before any memory check (R137, R309). -/
def issueUnpack (bo w : Nat) (s : State) : Issued :=
  let nb := bitBytes bo w
  .check (bitRangeCheck bo w) <| .check (s.memCheck nb) <| s.access s.start nb <|
    .result (addrsFrom s.start nb)
      ((unpackWindow (bitWindow (s.mem.readBytes s.start nb) nb) bo w).setWidth 64)

/-- ISSUE of `PACK_BITS` (R139): it reads the old bytes before it writes the new ones (R76). -/
def issuePack (bo w : Nat) (s : State) : Issued :=
  let nb := bitBytes bo w
  .check (bitRangeCheck bo w) <| .check (s.memCheck nb) <| s.access s.start nb <|
    .stores (addrsFrom s.start nb)
      (cellsAt s.start
        (windowBytes (packWindow (bitWindow (s.mem.readBytes s.start nb) nb) bo w s.val) nb))

/-- `UNPACK_BITS bo, w` (R138). -/
def execUnpackBits (bo w : Byte) (s : State) : Host.Outcome State Fault Refusal :=
  runCommand .unpackBits (issueUnpack bo.toNat w.toNat) s

/-- `PACK_BITS bo, w` (R139). -/
def execPackBits (bo w : Byte) (s : State) : Host.Outcome State Fault Refusal :=
  runCommand .packBits (issuePack bo.toNat w.toNat) s

end Sys2Proof.Machine
end

