-- ==== Sys2Proof/Machine/ByteOrder.lean ====
section
/-! DEFINITION. The big-endian reads and writes (R130-R136). -/

namespace Sys2Proof.Machine

/-- ISSUE of a big-endian read of `n` bytes (R131-R133). -/
def issueReadBe (n : Nat) (s : State) : Issued :=
  .check (s.memCheck n) <| s.access s.start n <|
    .result (addrsFrom s.start n) (BitVec.ofNat 64 (beNat (s.mem.readBytes s.start n)))

/-- ISSUE of a big-endian write of the low `n` bytes of `VAL` (R134-R136). -/
def issueWriteBe (n : Nat) (s : State) : Issued :=
  .check (s.memCheck n) <| s.access s.start n <|
    .stores [] (cellsAt s.start (bytesBe n s.val.toNat))

/-- `RD_BE16` (R131). -/
def execRdBe16 (s : State) : Host.Outcome State Fault Refusal :=
  runCommand .rdBe16 (issueReadBe 2) s

/-- `RD_BE32` (R132). -/
def execRdBe32 (s : State) : Host.Outcome State Fault Refusal :=
  runCommand .rdBe32 (issueReadBe 4) s

/-- `RD_BE64` (R133). -/
def execRdBe64 (s : State) : Host.Outcome State Fault Refusal :=
  runCommand .rdBe64 (issueReadBe 8) s

/-- `WR_BE16` (R134). -/
def execWrBe16 (s : State) : Host.Outcome State Fault Refusal :=
  runCommand .wrBe16 (issueWriteBe 2) s

/-- `WR_BE32` (R135). -/
def execWrBe32 (s : State) : Host.Outcome State Fault Refusal :=
  runCommand .wrBe32 (issueWriteBe 4) s

/-- `WR_BE64` (R136). -/
def execWrBe64 (s : State) : Host.Outcome State Fault Refusal :=
  runCommand .wrBe64 (issueWriteBe 8) s

end Sys2Proof.Machine
end

