-- ==== Sys2Proof/Machine/Control.lean ====
section
/-! DEFINITION. The control command `NOP` (R240). -/

namespace Sys2Proof.Machine

/-- `NOP`: writes `STATUS` only (R240). -/
def execNop (s : State) : Host.Outcome State Fault Refusal :=
  runCommand .nop (fun _ => .finish .ok []) s

end Sys2Proof.Machine
end

