-- ==== Sys2Proof/Machine/Ip6Codec.lean ====
section
/-! DEFINITION. The IPv6 header codec commands (R150-R162). -/

namespace Sys2Proof.Machine

/-- ISSUE of `IP6_DECODE` (R151). The record's previous state is not checked, and a truncated buffer
leaves the record as it was (R152). -/
def issueIp6Decode (s : State) : Issued :=
  .check s.wrapCheck <|
    if s.avail < 40 then .finish .truncatedBuffer []
    else s.access s.start 40 <|
      .setIp6 (addrsFrom s.start 40)
        (Record.bind (ip6OfBytes (s.mem.readBytes s.start 40)) (s.base + s.off) 40)

/-- ISSUE of `IP6_ENCODE` (R155): it reads the whole record before it writes (R156). -/
def issueIp6Encode (s : State) : Issued :=
  .check s.ip6.readable <| .check s.wrapCheck <|
    if s.avail < 40 then .finish .bufferTooSmall []
    else s.access s.start 40 <| .stores [] (cellsAt s.start (ip6ToBytes s.ip6.hdr))

/-- ISSUE of `IP6_CLEAR` (R157): legal from every state of the record. -/
def issueIp6Clear (s : State) : Issued := .setIp6 [] (s.ip6.clear Ip6Header.zero)

/-- ISSUE of `IP6_DETACH` (R158). -/
def issueIp6Detach (s : State) : Issued := .check s.ip6.readable <| .setIp6 [] s.ip6.detach

/-- ISSUE of `IP6_FLD_RD` (R161). -/
def issueIp6FldRd (f : Ip6Field) (s : State) : Issued :=
  .check s.ip6.readable <| .result [] (s.ip6.hdr.get f)

/-- ISSUE of `IP6_FLD_WR` (R162). -/
def issueIp6FldWr (f : Ip6Field) (s : State) : Issued :=
  .check s.ip6.writable <| .setIp6 [] (s.ip6.setHdr (s.ip6.hdr.set f s.val))

/-- `IP6_DECODE` (R151, R152). -/
def execIp6Decode (s : State) : Host.Outcome State Fault Refusal :=
  runCommand .ip6Decode issueIp6Decode s

/-- `IP6_ENCODE` (R155, R156). -/
def execIp6Encode (s : State) : Host.Outcome State Fault Refusal :=
  runCommand .ip6Encode issueIp6Encode s

/-- `IP6_CLEAR` (R157). -/
def execIp6Clear (s : State) : Host.Outcome State Fault Refusal :=
  runCommand .ip6Clear issueIp6Clear s

/-- `IP6_DETACH` (R158). -/
def execIp6Detach (s : State) : Host.Outcome State Fault Refusal :=
  runCommand .ip6Detach issueIp6Detach s

/-- `IP6_FLD_RD f` (R161). -/
def execIp6FldRd (f : Ip6Field) (s : State) : Host.Outcome State Fault Refusal :=
  runCommand .ip6FldRd (issueIp6FldRd f) s

/-- `IP6_FLD_WR f` (R162). -/
def execIp6FldWr (f : Ip6Field) (s : State) : Host.Outcome State Fault Refusal :=
  runCommand .ip6FldWr (issueIp6FldWr f) s

end Sys2Proof.Machine
end

