-- ==== Sys2Proof/Machine/TcpCodec.lean ====
section
/-! DEFINITION. The TCP header codec commands (R180-R200). -/

namespace Sys2Proof.Machine

/-- ISSUE of `TCP_DECODE` after its first 20 bytes are read: `data_offset` first, then the length it
asks for, then the rest of the header (R181, R310). -/
def issueTcpDecodeBody (s : State) : Issued :=
  let d := (tcpOffsetNibble (s.mem.readBytes s.start 20)).toNat
  if d < 5 then .finish .invalidDataOffset (addrsFrom s.start 20)
  else if s.avail < 4 * d then .finish .truncatedBuffer (addrsFrom s.start 20)
  else s.access s.start (4 * d) <|
    .setTcp (addrsFrom s.start (4 * d))
      (Record.bind (tcpOfBytes (s.mem.readBytes s.start (4 * d))) (s.base + s.off) (4 * d))

/-- ISSUE of `TCP_DECODE` (R181); an error status leaves the record as it was (R182). -/
def issueTcpDecode (s : State) : Issued :=
  .check s.wrapCheck <|
    if s.avail < 20 then .finish .truncatedBuffer []
    else s.access s.start 20 (issueTcpDecodeBody s)

/-- ISSUE of `TCP_ENCODE` (R186): the options length is checked before the buffer size (R310), and the
whole record is read before anything is written (R188). -/
def issueTcpEncode (s : State) : Issued :=
  .check s.tcp.readable <| .check s.wrapCheck <|
    if dataOffsetOf s.tcp.hdr.optionsLength = none then .finish .invalidOptionsLength []
    else if s.avail < tcpLength s.tcp.hdr then .finish .bufferTooSmall []
    else s.access s.start (tcpLength s.tcp.hdr) <|
      .stores [] (cellsAt s.start (tcpToBytes s.params.rsvd s.tcp.hdr))

/-- ISSUE of `TCP_CLEAR` (R192): legal from every state of the record. -/
def issueTcpClear (s : State) : Issued := .setTcp [] (s.tcp.clear TcpHeader.zero)

/-- ISSUE of `TCP_DETACH` (R193). -/
def issueTcpDetach (s : State) : Issued := .check s.tcp.readable <| .setTcp [] s.tcp.detach

/-- ISSUE of `TCP_FLD_RD` (R197). -/
def issueTcpFldRd (f : TcpField) (s : State) : Issued :=
  .check s.tcp.readable <|
    match s.tcp.hdr.get? f with
    | none => .faults .undefinedField
    | some v => .result [] v

/-- ISSUE of `TCP_FLD_WR` (R198). -/
def issueTcpFldWr (f : TcpField) (s : State) : Issued :=
  .check s.tcp.writable <|
    match s.tcp.hdr.set? f s.val with
    | none => .faults .readOnlyField
    | some h => .setTcp [] (s.tcp.setHdr h)

/-- The static index range of R103 for the option commands. Decoding never gives an index outside it
(log 18). -/
def optIndexCheck (k : Nat) : Option Cause := if k ≤ 39 then none else some .illegalCommand

/-- In a `BOUND` record only the decoded option bytes can be read (R199). -/
def optBoundCheck (r : Record TcpHeader) (k : Nat) : Option Cause :=
  if r.st = .bound ∧ r.hdr.optionsLength.toNat ≤ k then some .outOfRange else none

/-- ISSUE of `OPT_RD` (R199). -/
def issueOptRd (k : Nat) (s : State) : Issued :=
  .check (optIndexCheck k) <| .check s.tcp.readable <| .check (optBoundCheck s.tcp k) <|
    .result [] ((s.tcp.hdr.optByte k).setWidth 64)

/-- ISSUE of `OPT_WR` (R200). -/
def issueOptWr (k : Nat) (s : State) : Issued :=
  .check (optIndexCheck k) <| .check s.tcp.writable <|
    .setTcp [] (s.tcp.setHdr (s.tcp.hdr.setOpt k (s.val.setWidth 8)))

/-- `TCP_DECODE` (R181, R182). -/
def execTcpDecode (s : State) : Host.Outcome State Fault Refusal :=
  runCommand .tcpDecode issueTcpDecode s

/-- `TCP_ENCODE` (R186-R188). -/
def execTcpEncode (s : State) : Host.Outcome State Fault Refusal :=
  runCommand .tcpEncode issueTcpEncode s

/-- `TCP_CLEAR` (R192). -/
def execTcpClear (s : State) : Host.Outcome State Fault Refusal :=
  runCommand .tcpClear issueTcpClear s

/-- `TCP_DETACH` (R193). -/
def execTcpDetach (s : State) : Host.Outcome State Fault Refusal :=
  runCommand .tcpDetach issueTcpDetach s

/-- `TCP_FLD_RD f` (R197). -/
def execTcpFldRd (f : TcpField) (s : State) : Host.Outcome State Fault Refusal :=
  runCommand .tcpFldRd (issueTcpFldRd f) s

/-- `TCP_FLD_WR f` (R198). -/
def execTcpFldWr (f : TcpField) (s : State) : Host.Outcome State Fault Refusal :=
  runCommand .tcpFldWr (issueTcpFldWr f) s

/-- `OPT_RD k` (R199). -/
def execOptRd (k : Byte) (s : State) : Host.Outcome State Fault Refusal :=
  runCommand .optRd (issueOptRd k.toNat) s

/-- `OPT_WR k` (R200). -/
def execOptWr (k : Byte) (s : State) : Host.Outcome State Fault Refusal :=
  runCommand .optWr (issueOptWr k.toNat) s

end Sys2Proof.Machine
end

