-- ==== Sys2Proof/Machine/Dispatch.lean ====
section
/-! DEFINITION. The meaning of every command: one arm per constructor of `Instr` (R102). -/

namespace Sys2Proof.Machine

/-- Running one decoded command. -/
def exec (i : Instr) (s : State) : Host.Outcome State Fault Refusal :=
  match i with
  | .nop => Sys2Proof.Machine.execNop s
  | .ip6Decode => Sys2Proof.Machine.execIp6Decode s
  | .ip6Encode => Sys2Proof.Machine.execIp6Encode s
  | .tcpDecode => Sys2Proof.Machine.execTcpDecode s
  | .tcpEncode => Sys2Proof.Machine.execTcpEncode s
  | .rdBe16 => Sys2Proof.Machine.execRdBe16 s
  | .rdBe32 => Sys2Proof.Machine.execRdBe32 s
  | .rdBe64 => Sys2Proof.Machine.execRdBe64 s
  | .wrBe16 => Sys2Proof.Machine.execWrBe16 s
  | .wrBe32 => Sys2Proof.Machine.execWrBe32 s
  | .wrBe64 => Sys2Proof.Machine.execWrBe64 s
  | .unpackBits bo w => Sys2Proof.Machine.execUnpackBits bo w s
  | .packBits bo w => Sys2Proof.Machine.execPackBits bo w s
  | .ip6Clear => Sys2Proof.Machine.execIp6Clear s
  | .ip6Detach => Sys2Proof.Machine.execIp6Detach s
  | .ip6FldRd f => Sys2Proof.Machine.execIp6FldRd f s
  | .ip6FldWr f => Sys2Proof.Machine.execIp6FldWr f s
  | .addrRd r w k => Sys2Proof.Machine.execAddrRd r w k s
  | .addrWr r w k => Sys2Proof.Machine.execAddrWr r w k s
  | .tcpClear => Sys2Proof.Machine.execTcpClear s
  | .tcpDetach => Sys2Proof.Machine.execTcpDetach s
  | .tcpFldRd f => Sys2Proof.Machine.execTcpFldRd f s
  | .tcpFldWr f => Sys2Proof.Machine.execTcpFldWr f s
  | .optRd k => Sys2Proof.Machine.execOptRd k s
  | .optWr k => Sys2Proof.Machine.execOptWr k s

end Sys2Proof.Machine
end

