-- ==== Sys2Proof/Machine/Port.lean ====
section
/-! DEFINITION. The host port (R21, R241-R244) and the order in which the block and the outside world
move (R75, R76). Step.lean only calls what stands here. -/

namespace Sys2Proof.Machine

/-- The byte offset of a port register (R21). -/
def PortReg.offset : PortReg → Nat
  | .cmd => 0x00
  | .base => 0x08
  | .len => 0x10
  | .off => 0x18
  | .val => 0x20
  | .res => 0x28
  | .status => 0x30
  | .fault => 0x38

/-- The register at a byte offset of the port. An access at any other offset is not admitted (R244):
there is no register there. -/
def PortReg.atOffset? : Nat → Option PortReg
  | 0x00 => some .cmd
  | 0x08 => some .base
  | 0x10 => some .len
  | 0x18 => some .off
  | 0x20 => some .val
  | 0x28 => some .res
  | 0x30 => some .status
  | 0x38 => some .fault
  | _ => none

/-- `trunc_AW(v)`, what `BASE`, `LEN` and `OFF` keep of a written value (R21, R241). -/
def truncAw (p : Params) (v : Word) : Word := BitVec.ofNat 64 (v.toNat % 2 ^ p.aw)

/-- A port register's value, zero-extended to 64 bits (R243). -/
def State.portValue (s : State) : PortReg → Word
  | .cmd => s.cmd.setWidth 64
  | .base => s.base
  | .len => s.len
  | .off => s.off
  | .val => s.val
  | .res => s.res
  | .status => s.status.setWidth 64
  | .fault => s.fault

/-- A host write to `CMD` (R242): `CMD` keeps the low 32 bits; in the faulted state the command is
ignored (R307); an illegal word faults (R104); else the command runs. -/
def State.writeCmd (s : State) (v : Word) : Host.Outcome State Fault Refusal :=
  let t := { s with cmd := v.setWidth 32 }
  if t.faulted then .next t
  else
    match decodePort v with
    | .illegal _ => .next (t.raise (wordOpc t.cmd) .illegalCommand)
    | .command i => exec i t

/-- A host write to a port register (R241). Writes to `RES`, `STATUS` and `FAULT` are ignored. -/
def State.portWrite (s : State) (r : PortReg) (v : Word) : Host.Outcome State Fault Refusal :=
  match r with
  | .cmd => s.writeCmd v
  | .base => .next { s with base := truncAw s.params v }
  | .len => .next { s with len := truncAw s.params v }
  | .off => .next { s with off := truncAw s.params v }
  | .val => .next { s with val := v }
  | .res => .next s
  | .status => .next s
  | .fault => .next s

/-- A host read of a port register; it has no side effect on the block (R243). -/
def State.portRead (s : State) (r : PortReg) : State := { s with portData := s.portValue r }

/-- One port access of the host. -/
def State.portAccess (s : State) (a : PortAccess) : Host.Outcome State Fault Refusal :=
  match a with
  | .write r v => s.portWrite r v
  | .read r => .next (s.portRead r)

/-- The state once the first event is taken from the list; a port access moves the host's position on
by one (R25). -/
def State.take (s : State) (e : Event) (rest : List Event) : State :=
  match e with
  | .port _ => { s with todo := rest, pos := s.pos + 1 }
  | .during _ => { s with todo := rest }
  | .outside _ => { s with todo := rest }

/-- One event, the block being idle. A `during` move with no command in flight is a move between
commands (log 11). -/
def State.idleEvent (s : State) (e : Event) (rest : List Event) : Host.Outcome State Fault Refusal :=
  match e with
  | .port a => (s.take e rest).portAccess a
  | .during m => (s.take e rest).move m
  | .outside m => (s.take e rest).move m

/-- A step while a command is between ISSUE and COMMIT: a move of something outside, if one comes
there, else COMMIT (R76). The host's next port access waits for it (R242). -/
def State.stepPending (s : State) (p : Pending) : Host.Outcome State Fault Refusal :=
  match s.todo with
  | .during m :: rest => (s.take (.during m) rest).move m
  | .port _ :: _ => .next (s.commit p)
  | .outside _ :: _ => .next (s.commit p)
  | [] => .next (s.commit p)

/-- A step while the block is idle: the next event, or none, when the block waits (R352). -/
def State.stepIdle (s : State) : Host.Outcome State Fault Refusal :=
  match s.todo with
  | [] => .next s
  | e :: rest => s.idleEvent e rest

/-- Placing a command word as the very next port access of the host, the block being idle (log 5). -/
def State.placeCommand (s : State) (v : Word) : State :=
  { s with pending := none, todo := .port (.write .cmd v) :: s.todo }

end Sys2Proof.Machine
end

