-- ==== Sys2Proof/Machine/Step.lean ====
section
/-! DEFINITION. One step of the machine, and the placing of one command where the next step takes it.
Everything a step does stands in Port.lean, Ops.lean and the meanings. -/

namespace Sys2Proof.Machine

/-- One step: the command in flight goes on, or the next event happens (R75, R76). -/
def step (s : State) : Host.Outcome State Fault Refusal :=
  match s.pending with
  | some p => s.stepPending p
  | none => s.stepIdle

/-- The state with a command word of `nbits` bits as the host's next port access (log 5). -/
def State.withFetchWord (s : State) (nbits w : Nat) : State :=
  s.placeCommand (BitVec.ofNat 64 (w % 2 ^ nbits))

end Sys2Proof.Machine
end

