-- ==== Sys2Proof/Machine/Assembler.lean ====
section
/-! DEFINITION. The statements of a host program (R106) and its pseudo-instructions (R107), as the
port accesses they stand for, and their text. -/

namespace Sys2Proof.Machine

/-- The registers that `SET` names (R106). -/
inductive SetReg where
  | base
  | len
  | off
  | val
  | cmd
deriving DecidableEq, Repr

/-- The port register a `SET` writes. -/
def SetReg.port : SetReg → PortReg
  | .base => .base
  | .len => .len
  | .off => .off
  | .val => .val
  | .cmd => .cmd

/-- A statement of a host program: `SET`, `GET`, a command, or a pseudo-instruction (R106, R107). -/
inductive Stmt where
  | set (r : SetReg) (v : Word)
  | get (r : PortReg)
  | command (i : Instr)
  | slice (b l o : Word)
  | wf6 (f : Ip6Field) (v : Word)
  | wft (f : TcpField) (v : Word)
  | rf6 (f : Ip6Field)
  | rft (f : TcpField)
  | wopt (k : Byte) (v : Word)
deriving DecidableEq, Repr

/-- A command statement assembles to `SET CMD, <word>` (R106). -/
def commandAccess (i : Instr) : PortAccess := .write .cmd ((encode i).setWidth 64)

/-- The port accesses of a statement; a pseudo-instruction's are those of its expansion (R107). -/
def Stmt.accesses : Stmt → List PortAccess
  | .set r v => [.write r.port v]
  | .get r => [.read r]
  | .command i => [commandAccess i]
  | .slice b l o => [.write .base b, .write .len l, .write .off o]
  | .wf6 f v => [.write .val v, commandAccess (.ip6FldWr f)]
  | .wft f v => [.write .val v, commandAccess (.tcpFldWr f)]
  | .rf6 f => [commandAccess (.ip6FldRd f), .read .res]
  | .rft f => [commandAccess (.tcpFldRd f), .read .res]
  | .wopt k v => [.write .val v, commandAccess (.optWr k)]

/-- A host program as the events it makes, with nothing else moving. -/
def programEvents (p : List Stmt) : List Event :=
  (p.flatMap Stmt.accesses).map Event.port

/-- The names of the port registers (R21). -/
def PortReg.name : PortReg → String
  | .cmd => "CMD"
  | .base => "BASE"
  | .len => "LEN"
  | .off => "OFF"
  | .val => "VAL"
  | .res => "RES"
  | .status => "STATUS"
  | .fault => "FAULT"

/-- The IPv6 field names of R32. -/
def Ip6Field.text : Ip6Field → String
  | .version => "version"
  | .trafficClass => "traffic_class"
  | .flowLabel => "flow_label"
  | .payloadLength => "payload_length"
  | .nextHeader => "next_header"
  | .hopLimit => "hop_limit"

/-- The TCP field names of R35. -/
def TcpField.text : TcpField → String
  | .sourcePort => "source_port"
  | .destPort => "dest_port"
  | .sequenceNumber => "sequence_number"
  | .ackNumber => "ack_number"
  | .dataOffset => "data_offset"
  | .reserved => "reserved"
  | .flags => "flags"
  | .window => "window"
  | .checksum => "checksum"
  | .urgentPointer => "urgent_pointer"
  | .optionsLength => "options_length"

/-- `src` or `dst` (R106). -/
def AddrReg.text : AddrReg → String
  | .src => "src"
  | .dst => "dst"

/-- The operands of a command statement (R106), numbers in decimal. -/
def operandText : Instr → List String
  | .ip6FldRd f => [Ip6Field.text f]
  | .ip6FldWr f => [Ip6Field.text f]
  | .tcpFldRd f => [TcpField.text f]
  | .tcpFldWr f => [TcpField.text f]
  | .addrRd r w k => [AddrReg.text r, toString (8 * w.bytes), toString k.toNat]
  | .addrWr r w k => [AddrReg.text r, toString (8 * w.bytes), toString k.toNat]
  | .unpackBits bo w => [toString bo.toNat, toString w.toNat]
  | .packBits bo w => [toString bo.toNat, toString w.toNat]
  | .optRd k => [toString k.toNat]
  | .optWr k => [toString k.toNat]
  | .nop | .ip6Decode | .ip6Encode | .tcpDecode | .tcpEncode
  | .rdBe16 | .rdBe32 | .rdBe64 | .wrBe16 | .wrBe32 | .wrBe64
  | .ip6Clear | .ip6Detach | .tcpClear | .tcpDetach => []

/-- A mnemonic and its operands as one statement (R106). -/
def statementText (mnemonic : String) (operands : List String) : String :=
  match operands with
  | [] => mnemonic
  | o :: os => mnemonic ++ " " ++ os.foldl (fun acc x => acc ++ ", " ++ x) o

/-- The text of a statement (R106, R107). -/
def Stmt.text : Stmt → String
  | .set r v => statementText "SET" [r.port.name, toString v.toNat]
  | .get r => statementText "GET" [r.name]
  | .command i => statementText i.opcode.mnemonic (operandText i)
  | .slice b l o => statementText "SLICE" [toString b.toNat, toString l.toNat, toString o.toNat]
  | .wf6 f v => statementText "WF6" [Ip6Field.text f, toString v.toNat]
  | .wft f v => statementText "WFT" [TcpField.text f, toString v.toNat]
  | .rf6 f => statementText "RF6" [Ip6Field.text f]
  | .rft f => statementText "RFT" [TcpField.text f]
  | .wopt k v => statementText "WOPT" [toString k.toNat, toString v.toNat]

end Sys2Proof.Machine
end

