-- ==== Sys2Proof/Machine/Flags.lean ====
section
/-! DEFINITION. The block has no condition codes (R26). This file holds the fields of its two outcome
registers (R23, R24) and the bit names of the TCP `flags` field, which is data (R36). -/

namespace Sys2Proof.Machine

/-- `FAULT.CAUSE`, bits 15:8 (R24). -/
def State.faultCause (s : State) : Byte := s.fault.extractLsb' 8 8

/-- `FAULT.OPC`, bits 31:24 (R24). -/
def State.faultOpc (s : State) : Byte := s.fault.extractLsb' 24 8

/-- The bits of `FAULT` that are reserved and read 0: 7:1, 23:16 and 63:32 (R24). -/
def State.faultReserved (s : State) : BitVec 47 :=
  s.fault.extractLsb' 32 32 ++ s.fault.extractLsb' 16 8 ++ s.fault.extractLsb' 1 7

/-- The eight flags of the TCP `flags` byte (R36). -/
inductive TcpFlag where
  | cwr
  | ece
  | urg
  | ack
  | psh
  | rst
  | syn
  | fin
deriving DecidableEq, Repr

/-- The bit of `flags` that holds a flag, the listed order read most significant first (R36, D18). -/
def TcpFlag.bit : TcpFlag → Nat
  | .cwr => 7
  | .ece => 6
  | .urg => 5
  | .ack => 4
  | .psh => 3
  | .rst => 2
  | .syn => 1
  | .fin => 0

/-- A flag of a TCP record. No command reads one: the names matter to a caller alone (R36). -/
def TcpHeader.flag (h : TcpHeader) (f : TcpFlag) : Bool := h.flags.getLsbD f.bit

end Sys2Proof.Machine
end

