-- ==== Sys2Proof/Safety.lean ====
section
/-! DEFINITION. What a claim assumes of the host (R62, R67, R363), what counts as a failed run (R307),
and the invariants of the machine that every step keeps. -/

namespace Sys2Proof.Machine

/-! ### Premises -/

/-- `slice_backed(BASE, LEN)`: every byte of the slice is backed by memory (R62). -/
def State.sliceBacked (s : State) : Bool := !s.hits .absent s.base.toNat s.len.toNat

/-- No byte of the slice has read side effects (R67). -/
def State.slicePlain (s : State) : Bool := !s.hits .sideEffects s.base.toNat s.len.toNat

/-- A failed run: the block is in the faulted state (R307). -/
def State.failed (s : State) : Bool := s.faulted

/-- The block takes the next command (not faulted, R307; none in flight, R75), and nothing outside
moves between that command's ISSUE and COMMIT (R76). -/
def State.ready (s : State) : Bool := !s.faulted && s.pending.isNone && !s.interposed

/-- The platform lets the block reach the `n` bytes from `BASE + OFF` on (R62, R67). -/
def State.reaches (s : State) (n : Nat) : Bool := s.slicePlain && !s.hits .absent s.start n

/-- The checks of a memory command that touches `n` bytes pass: the slice does not wrap (R69), the
bytes lie in it (R61, R130), and the platform lets the block reach them. -/
def State.canAccess (s : State) (n : Nat) : Bool :=
  !s.wraps && decide (s.off.toNat + n ≤ s.len.toNat) && s.reaches n

/-- The memory is in its canonical form. -/
def State.memWf (s : State) : Bool := Memory.wf s.mem

/-! ### What each command touches -/

/-- The commands that need a readable IPv6 record (R150), each with operands in range. -/
def readsIp6 : Instr → Bool
  | .ip6Encode | .ip6Detach | .ip6FldRd _ => true
  | .addrRd _ w k => decide (k.toNat < w.count)
  | _ => false

/-- The commands that need a writable IPv6 record (R150), each with operands in range. -/
def writesIp6 : Instr → Bool
  | .ip6FldWr _ => true
  | .addrWr _ w k => decide (k.toNat < w.count)
  | _ => false

/-- The commands that need a readable TCP record (R180), each with operands in range. -/
def readsTcp : Instr → Bool
  | .tcpEncode | .tcpDetach | .tcpFldRd _ => true
  | .optRd k => decide (k.toNat ≤ 39)
  | _ => false

/-- The commands that need a writable TCP record (R180), each with operands in range. -/
def writesTcp : Instr → Bool
  | .tcpFldWr _ => true
  | .optWr k => decide (k.toNat ≤ 39)
  | _ => false

/-- The commands that write `RES` (R22). -/
def writesRes : Instr → Bool
  | .rdBe16 | .rdBe32 | .rdBe64 | .unpackBits _ _ | .ip6FldRd _ | .tcpFldRd _ | .optRd _
  | .addrRd _ _ _ => true
  | _ => false

/-- How many bytes from `BASE + OFF` on a command stores to (R66); 0 for one that stores nothing. -/
def storedBytes (s : State) : Instr → Nat
  | .wrBe16 => 2
  | .wrBe32 => 4
  | .wrBe64 => 8
  | .packBits bo w => if bo.toNat + w.toNat ≤ 8 then 1 else 2
  | .ip6Encode => 40
  | .tcpEncode => 20 + s.tcp.hdr.optionsLength.toNat
  | _ => 0

/-- The commands that write the IPv6 record. -/
def changesIp6 : Instr → Bool
  | .ip6Decode | .ip6Clear | .ip6Detach | .ip6FldWr _ | .addrWr _ _ _ => true
  | _ => false

/-- The commands that write the TCP record. -/
def changesTcp : Instr → Bool
  | .tcpDecode | .tcpClear | .tcpDetach | .tcpFldWr _ | .optWr _ => true
  | _ => false

/-! ### Invariants -/

/-- The binding of a record: a `BOUND` one covers `n` bytes inside the address space, any other one is
unbound and not stale (R40). -/
def Record.bindingOk {α : Type} (r : Record α) (aw n : Nat) : Prop :=
  (r.st = .bound → r.bindN = n ∧ r.bindLo.toNat + n ≤ 2 ^ aw) ∧
  (r.st ≠ .bound → r.bindN = 0 ∧ r.stale = false)

/-- A `BOUND` IPv6 record covers 40 bytes (R40, R96). -/
def Ip6RecordOk (r : Record Ip6Header) (aw : Nat) : Prop := r.bindingOk aw 40

/-- A `BOUND` TCP record covers `4 * data_offset` bytes, its options length is a multiple of 4 from 0
to 40 (R38, R40), and its option bytes past that length are 0 (R181). -/
def TcpRecordOk (r : Record TcpHeader) (aw : Nat) : Prop :=
  r.bindingOk aw (tcpLength r.hdr) ∧
  (r.st = .bound →
    r.hdr.optionsLength.toNat % 4 = 0 ∧ r.hdr.optionsLength.toNat ≤ 40 ∧
    ∀ i : Fin 40, r.hdr.optionsLength.toNat ≤ i.val → r.hdr.opt[i] = 0)

/-- A command in flight: its writes lie inside the address space, the records it will write are in
order and come without memory writes, and an error status comes with no writes at all (R305). -/
structure PendingOk (p : Pending) (aw : Nat) : Prop where
  writesBelow : ∀ c ∈ p.writes, c.1 < 2 ^ aw
  ip6Ok : ∀ r, p.ip6 = some r → Ip6RecordOk r aw ∧ p.writes = []
  tcpOk : ∀ r, p.tcp = some r → TcpRecordOk r aw ∧ p.writes = []
  errorQuiet : p.status ≠ .ok → p.writes = [] ∧ p.res = none ∧ p.ip6 = none ∧ p.tcp = none

/-- `STATUS` and `FAULT` hold what R23 and R24 let them hold: a faulted block shows 0xFF, a fault
record with one of the causes of R303 and no command in flight; any other block shows `FAULT` 0 and
one of the five status codes. -/
def State.OutcomeOk (s : State) : Prop :=
  (s.faulted = true →
    s.status = faultedCode ∧ s.pending = none ∧
      ∃ (opc : Byte) (c : Cause), s.fault = faultWord opc c) ∧
  (s.faulted = false → s.fault = 0 ∧ ∃ st : Status, s.status = st.code)

/-- The invariant of the machine: the operand registers keep `AW` bits (R21), memory is canonical and
inside the address space (R60), the outcome registers are legal (R23, R24), the records and the
command in flight are in order (R38, R40, R41). -/
structure State.Inv (s : State) : Prop where
  base : s.base.toNat < 2 ^ s.params.aw
  len : s.len.toNat < 2 ^ s.params.aw
  off : s.off.toNat < 2 ^ s.params.aw
  memWf : Memory.wf s.mem = true
  memBelow : Memory.below s.mem (2 ^ s.params.aw) = true
  outcome : s.OutcomeOk
  ip6 : Ip6RecordOk s.ip6 s.params.aw
  tcp : TcpRecordOk s.tcp s.params.aw
  pending : ∀ p, s.pending = some p → PendingOk p s.params.aw

/-- An IPv6 view shows the bytes it was decoded from: its fields are those of the memory bytes it is
bound to (R16, R40). -/
def Ip6Shows (m : Memory) (r : Record Ip6Header) : Prop :=
  r.hdr = ip6OfBytes (m.readBytes r.bindLo.toNat r.bindN)

/-- A TCP view shows the bytes it was decoded from (R16, R40). -/
def TcpShows (m : Memory) (r : Record TcpHeader) : Prop :=
  r.hdr = tcpOfBytes (m.readBytes r.bindLo.toNat r.bindN)

/-- A decode in flight that no other agent has raced will leave a view of the bytes memory holds now,
and has every byte of that view in its read set (R77). -/
structure PendingViewsOk (p : Pending) (m : Memory) : Prop where
  ip6 : ∀ r, p.ip6 = some r → r.st = .bound → Ip6Shows m r ∧ ∀ a, r.covers a = true → a ∈ p.reads
  tcp : ∀ r, p.tcp = some r → r.st = .bound → TcpShows m r ∧ ∀ a, r.covers a = true → a ∈ p.reads

/-- Unless the block took a `Race` fault, every view that is not stale shows the bytes it is bound to,
as memory holds them (R40, R80): a read of a view never has to choose between the copy and the live
bytes (C11). A `Race` fault leaves its write set at any value (R77) and every binding as it was (R306,
log 9), so a view may differ then; the block is faulted and reads no view before reset (R307). -/
structure State.ViewsValid (s : State) : Prop where
  ip6 : s.faultCause ≠ Cause.race.code → s.ip6.st = .bound → s.ip6.stale = false →
    Ip6Shows s.mem s.ip6
  tcp : s.faultCause ≠ Cause.race.code → s.tcp.st = .bound → s.tcp.stale = false →
    TcpShows s.mem s.tcp
  pending : ∀ p, s.pending = some p → p.raced = false → PendingViewsOk p s.mem

end Sys2Proof.Machine
end

