-- ==== Sys2Proof/Certificates/Slice0/Obligations.lean ====
section
/-! DEFINITION. The statements for the provers, drawn from the numbered rules of spec/. -/

open Sys2Proof Sys2Proof.Machine

/-! ### Encoding (30_encoding.md) -/

/-- R100, R102, R105: every well-formed command is what its own command word decodes to. -/
def Obligations.DecodeOfEncode : Prop :=
  ∀ i : Instr, i.wellFormed = true → decodeWord (encode i) = .command i

/-- R105: a word that decodes to a command is that command's word, and the command is in its static
ranges: no two words mean the same command, and none means an ill-formed one. -/
def Obligations.DecodedWordIsItsEncoding : Prop :=
  ∀ (w : BitVec 32) (i : Instr), decodeWord w = .command i → encode i = w ∧ i.wellFormed = true

/-- R104: a `CMD` write is illegal exactly when (a) its `OPC` is not in the table, (b) a field the row
does not use is not 0, (c) a used field is outside its static range, or (d) bits 63:32 are not 0. The
rows and the used fields of R102 and the ranges of R103 are written out as numbers. -/
def Obligations.IllegalExactlyWhen : Prop :=
  ∀ v : Word,
    let opc := (v.extractLsb' 24 8).toNat
    let sel := (v.extractLsb' 16 8).toNat
    let idx := (v.extractLsb' 8 8).toNat
    let wid := (v.extractLsb' 0 8).toNat
    let plain := [0x00, 0x01, 0x02, 0x03, 0x04, 0x10, 0x11, 0x12, 0x14, 0x15, 0x16, 0x20, 0x21, 0x30, 0x31]
    let legal :=
      v.toNat < 2 ^ 32 ∧
      ((opc ∈ plain ∧ sel = 0 ∧ idx = 0 ∧ wid = 0) ∨
        (opc ∈ [0x18, 0x19] ∧ sel = 0) ∨
        (opc ∈ [0x22, 0x23] ∧ sel ≤ 5 ∧ idx = 0 ∧ wid = 0) ∨
        (opc ∈ [0x24, 0x25] ∧ sel ≤ 1 ∧ wid ≤ 3 ∧ idx < 16 >>> wid) ∨
        (opc ∈ [0x32, 0x33] ∧ sel ≤ 10 ∧ idx = 0 ∧ wid = 0) ∨
        (opc ∈ [0x34, 0x35] ∧ sel = 0 ∧ idx ≤ 39 ∧ wid = 0))
    (∃ i, decodePort v = .command i) ↔ legal

/-- R102, R106: command words written out from the opcode map and the vectors of the spec decode to
the commands they stand for. -/
def Obligations.SampleWordsDecode : Prop :=
  decodeWord 0x00000000 = .command .nop ∧
  decodeWord 0x11000000 = .command .rdBe32 ∧
  decodeWord 0x18000408 = .command (.unpackBits 4 8) ∧
  decodeWord 0x22050000 = .command (.ip6FldRd .hopLimit) ∧
  decodeWord 0x24010103 = .command (.addrRd .dst .w64 1) ∧
  decodeWord 0x330A0000 = .command (.tcpFldWr .optionsLength) ∧
  decodeWord 0x34002700 = .command (.optRd 39)

/-! ### The port (10_state.md, 44_control.md) -/

/-- When the host's next event writes a word to `CMD` that decodes to a well-formed command, and
the block is idle and not faulted, the step is `exec` of that command at the state with the event
taken, the position moved on by one and `CMD` holding the word. The event list and the position
are the model's (log 5, log 6). -/
def Obligations.StepRunsDecodedCommand : Prop :=
  ∀ (s : State) (v : Word) (rest : List Event) (i : Instr),
    s.pending = none → s.faulted = false → s.todo = .port (.write .cmd v) :: rest →
    decodePort v = .command i →
    step s = exec i { s with todo := rest, pos := s.pos + 1, cmd := v.setWidth 32 }

/-- R242: an illegal word written to `CMD` of an idle, unfaulted block sets `CMD` and takes the
fault `IllegalCommand` with the word's opcode field; nothing else changes but the event list and
position. The event list and the position are the model's (log 5, log 6). -/
def Obligations.IllegalWordFaults : Prop :=
  ∀ (s : State) (v : Word) (rest : List Event) (why : Illegal),
    s.pending = none → s.faulted = false → s.todo = .port (.write .cmd v) :: rest →
    decodePort v = .illegal why →
    ∃ t, step s = .next t ∧
      t = { s with todo := rest, pos := s.pos + 1, cmd := v.setWidth 32, status := 0xFF, fault := t.fault } ∧
      t.fault.toNat = (v.toNat / 2 ^ 24 % 256) * 2 ^ 24 + 0x0101

/-- R307: in the faulted state every `CMD` write is ignored: it sets `CMD` and changes nothing
else but the event list and position. The event list and the position are the model's (log 5, log
6). -/
def Obligations.FaultedBlockIgnoresCommands : Prop :=
  ∀ (s : State) (v : Word) (rest : List Event),
    s.pending = none → s.faulted = true → s.todo = .port (.write .cmd v) :: rest →
    step s = .next { s with todo := rest, pos := s.pos + 1, cmd := v.setWidth 32 }

/-- R241: what a host write does to each port register but `CMD`: `BASE`, `LEN` and `OFF` keep the
value modulo `2^AW`, `VAL` keeps it whole, `RES`, `STATUS` and `FAULT` ignore it; the step changes
nothing else, in the faulted state too. The event list, the position and the 64-bit form of the
operand registers are the model's (log 2, log 5, log 6). -/
def Obligations.HostWritesToPortRegisters : Prop :=
  ∀ (s : State) (v : Word) (rest : List Event) (r : PortReg),
    s.pending = none → r ≠ .cmd → s.todo = .port (.write r v) :: rest →
    ∃ t, step s = .next t ∧
      t = { s with todo := rest, pos := s.pos + 1, base := t.base, len := t.len, off := t.off, val := t.val } ∧
      (t.base.toNat = if r = .base then v.toNat % 2 ^ s.params.aw else s.base.toNat) ∧
      (t.len.toNat = if r = .len then v.toNat % 2 ^ s.params.aw else s.len.toNat) ∧
      (t.off.toNat = if r = .off then v.toNat % 2 ^ s.params.aw else s.off.toNat) ∧
      (t.val = if r = .val then v else s.val)

/-- R243: a host read returns the register's value zero-extended to 64 bits and has no side effect
on the block. The event list, the position and `portData`, the value read, are the model's (log 5,
log 6, log 7). -/
def Obligations.HostReadsHaveNoSideEffect : Prop :=
  ∀ (s : State) (rest : List Event) (r : PortReg),
    s.pending = none → s.todo = .port (.read r) :: rest →
    ∃ t, step s = .next t ∧
      t = { s with todo := rest, pos := s.pos + 1, portData := t.portData } ∧
      t.portData.toNat =
        match r with
        | .cmd => s.cmd.toNat
        | .base => s.base.toNat
        | .len => s.len.toNat
        | .off => s.off.toNat
        | .val => s.val.toNat
        | .res => s.res.toNat
        | .status => s.status.toNat
        | .fault => s.fault.toNat

/-! ### Control (44_control.md) -/

/-- R240: `NOP` completes with `OK` and writes `STATUS` only; in the faulted state it is ignored; its
word is 0, and a word with its opcode and any other bit set is illegal. -/
def Obligations.NopWritesStatusOnly : Prop :=
  (∀ s : State, s.ready = true → exec .nop s = .next { s with status := 0x00 }) ∧
  (∀ s : State, s.faulted = true → exec .nop s = .next s) ∧
  decodeWord 0x00000000 = .command .nop ∧
  ∀ w : BitVec 32, w.toNat < 2 ^ 24 → w ≠ 0 → decodeWord w = .illegal .unusedField

/-! ### Byte order (40_byteorder_bitpack.md) -/

/-- The big-endian reads and the bytes they read. -/
def bigEndianReads : List (Instr × Nat) := [(.rdBe16, 2), (.rdBe32, 4), (.rdBe64, 8)]

/-- The big-endian writes and the bytes they write. -/
def bigEndianWrites : List (Instr × Nat) := [(.wrBe16, 2), (.wrBe32, 4), (.wrBe64, 8)]

/-- R131-R133: a big-endian read completes with `OK`, and `RES` is the zero-extended integer whose
most significant byte is the one at `BASE + OFF`; nothing else changes. -/
def Obligations.BigEndianReadsReturnTheirBytes : Prop :=
  ∀ (s : State) (i : Instr) (n : Nat), (i, n) ∈ bigEndianReads →
    s.ready = true → s.canAccess n = true →
    ∃ t, exec i s = .next t ∧ t = { s with res := t.res, status := 0x00 } ∧
      t.res.toNat < 256 ^ n ∧
      ∀ k, k < n → t.res.toNat / 256 ^ (n - 1 - k) % 256 = (s.mem.read (s.base.toNat + s.off.toNat + k)).toNat

/-- R134-R136: a big-endian write completes with `OK` and stores the low `n` bytes of `VAL` at
`BASE + OFF`, most significant first; every other byte of memory reads as before, and no register but
`STATUS` changes, the records only by becoming stale. -/
def Obligations.BigEndianWritesStoreTheirBytes : Prop :=
  ∀ (s : State) (i : Instr) (n : Nat), (i, n) ∈ bigEndianWrites →
    s.ready = true → s.canAccess n = true → s.memWf = true →
    ∃ t, exec i s = .next t ∧
      t = { s with
            mem := t.mem, status := 0x00, ip6 := { s.ip6 with stale := t.ip6.stale }
            tcp := { s.tcp with stale := t.tcp.stale } } ∧
      (∀ k, k < n →
        (t.mem.read (s.base.toNat + s.off.toNat + k)).toNat = s.val.toNat / 256 ^ (n - 1 - k) % 256) ∧
      ∀ a, (a < s.base.toNat + s.off.toNat ∨ s.base.toNat + s.off.toNat + n ≤ a) →
        t.mem.read a = s.mem.read a

/-- R64: a 16-bit read at `o + 2` returns bits 47:32 of the 64-bit read at `o`. -/
def Obligations.MixedWidthReadsAgree : Prop :=
  ∀ (s u : State) (t v : State), s.ready = true → s.canAccess 8 = true →
    u = { s with off := s.off + 2 } →
    exec .rdBe64 s = .next t → exec .rdBe16 u = .next v →
    v.res.toNat = t.res.toNat / 2 ^ 32 % 2 ^ 16

/-- R130, R69, R309: a byte-order command, or a bit-group command with a legal range, whose slice wraps
faults `AddressWrap`, and one whose slice does not wrap but whose bytes reach past it faults
`OutOfRange`; only `FAULT` and `STATUS` change. A bit-group command's bytes are the one or two that
hold its range. -/
def Obligations.ByteOrderRangeFaults : Prop :=
  ∀ (s : State) (i : Instr) (n : Nat),
    ((i, n) ∈ bigEndianReads ++ bigEndianWrites ∨
      ∃ bo w : Byte, (i = .unpackBits bo w ∨ i = .packBits bo w) ∧
        bo.toNat ≤ 7 ∧ 1 ≤ w.toNat ∧ bo.toNat + w.toNat ≤ 16 ∧
        n = if bo.toNat + w.toNat ≤ 8 then 1 else 2) →
    s.faulted = false →
    (2 ^ s.params.aw < s.base.toNat + s.len.toNat →
      ∃ t, exec i s = .next t ∧ t = { s with fault := t.fault, status := 0xFF } ∧
        t.fault.toNat = i.opcode.code.toNat * 2 ^ 24 + 0x0401) ∧
    (s.base.toNat + s.len.toNat ≤ 2 ^ s.params.aw → s.len.toNat < s.off.toNat + n →
      ∃ t, exec i s = .next t ∧ t = { s with fault := t.fault, status := 0xFF } ∧
        t.fault.toNat = i.opcode.code.toNat * 2 ^ 24 + 0x0201)

/-! ### Bit groups (40_byteorder_bitpack.md) -/

/-- Wire bit `j` counted from the top of the byte at `a`, most significant first across bytes (R10,
R137). -/
def wireBit (m : Memory) (a j : Nat) : Bool := (m.read (a + j / 8)).getLsbD (7 - j % 8)

/-- R137, R138: `UNPACK_BITS bo, w` with a legal range completes with `OK`; `RES` is the unsigned
number of the `w` wire bits from `bo` on, its top bit first; nothing else changes. Only the one or two
bytes that hold the range need be in the slice. -/
def Obligations.UnpackReturnsTheBitGroup : Prop :=
  ∀ (s : State) (bo w : Byte), bo.toNat ≤ 7 → 1 ≤ w.toNat → bo.toNat + w.toNat ≤ 16 →
    s.ready = true → s.canAccess (if bo.toNat + w.toNat ≤ 8 then 1 else 2) = true →
    ∃ t, exec (.unpackBits bo w) s = .next t ∧ t = { s with res := t.res, status := 0x00 } ∧
      t.res.toNat < 2 ^ w.toNat ∧
      ∀ j, j < w.toNat →
        t.res.getLsbD (w.toNat - 1 - j) = wireBit s.mem (s.base.toNat + s.off.toNat) (bo.toNat + j)

/-- R137, R139: `PACK_BITS bo, w` with a legal range completes with `OK`; the `w` wire bits from `bo`
on become the low `w` bits of `VAL`, top bit first; every other bit of the one or two bytes, every
other byte of memory and every register but `STATUS` are unchanged, the records but for staleness. -/
def Obligations.PackReplacesTheBitGroup : Prop :=
  ∀ (s : State) (bo w : Byte), bo.toNat ≤ 7 → 1 ≤ w.toNat → bo.toNat + w.toNat ≤ 16 →
    s.ready = true → s.canAccess (if bo.toNat + w.toNat ≤ 8 then 1 else 2) = true → s.memWf = true →
    ∃ t, exec (.packBits bo w) s = .next t ∧
      t = { s with
            mem := t.mem, status := 0x00, ip6 := { s.ip6 with stale := t.ip6.stale }
            tcp := { s.tcp with stale := t.tcp.stale } } ∧
      (∀ j, j < 8 * (if bo.toNat + w.toNat ≤ 8 then 1 else 2) →
        wireBit t.mem (s.base.toNat + s.off.toNat) j =
          if bo.toNat ≤ j ∧ j < bo.toNat + w.toNat then s.val.getLsbD (w.toNat - 1 - (j - bo.toNat))
          else wireBit s.mem (s.base.toNat + s.off.toNat) j) ∧
      ∀ a, (a < s.base.toNat + s.off.toNat ∨
          s.base.toNat + s.off.toNat + (if bo.toNat + w.toNat ≤ 8 then 1 else 2) ≤ a) →
        t.mem.read a = s.mem.read a

/-- R137, R309: a bit range that is not legal faults `BadBitRange`, before any memory check. -/
def Obligations.BadBitRangeFaultsFirst : Prop :=
  ∀ (s : State) (bo w : Byte), s.faulted = false →
    (7 < bo.toNat ∨ w.toNat = 0 ∨ 16 < bo.toNat + w.toNat) →
    exec (.unpackBits bo w) s = .next { s with fault := 0x18000301, status := 0xFF } ∧
    exec (.packBits bo w) s = .next { s with fault := 0x19000301, status := 0xFF }

/-- R140: after `PACK_BITS`, `UNPACK_BITS` of the same range returns the low `w` bits of `VAL`;
`UNPACK_BITS` of a disjoint range returns what it returned before; and a `PACK_BITS` of the value an
`UNPACK_BITS` just returned leaves every byte unchanged but still marks stale a bound record that
covers any byte of the range. -/
def Obligations.PackThenUnpack : Prop :=
  ∀ (s t : State) (bo w : Byte), s.ready = true → s.memWf = true →
    bo.toNat ≤ 7 → 1 ≤ w.toNat → bo.toNat + w.toNat ≤ 16 →
    s.canAccess (if bo.toNat + w.toNat ≤ 8 then 1 else 2) = true →
    exec (.packBits bo w) s = .next t →
    (∃ u, exec (.unpackBits bo w) t = .next u ∧ u.res.toNat = s.val.toNat % 2 ^ w.toNat) ∧
    (∀ bo2 w2 : Byte, bo2.toNat ≤ 7 → 1 ≤ w2.toNat → bo2.toNat + w2.toNat ≤ 16 →
      s.canAccess (if bo2.toNat + w2.toNat ≤ 8 then 1 else 2) = true →
      (bo2.toNat + w2.toNat ≤ bo.toNat ∨ bo.toNat + w.toNat ≤ bo2.toNat) →
      ∃ u v, exec (.unpackBits bo2 w2) s = .next u ∧ exec (.unpackBits bo2 w2) t = .next v ∧
        v.res = u.res) ∧
    ∃ u v, exec (.unpackBits bo w) s = .next u ∧
      exec (.packBits bo w) { u with val := u.res } = .next v ∧
      (∀ a, v.mem.read a = s.mem.read a) ∧
      ∀ k, k < (if bo.toNat + w.toNat ≤ 8 then 1 else 2) →
        (s.ip6.covers (s.base.toNat + s.off.toNat + k) = true → v.ip6.stale = true) ∧
        (s.tcp.covers (s.base.toNat + s.off.toNat + k) = true → v.tcp.stale = true)

/-! ### The IPv6 codec (41_ipv6_codec.md) -/

/-- The IPv6 fields of the 40 bytes at `a`, by the arithmetic of R92. -/
def Ip6FieldsAt (m : Memory) (a : Nat) (h : Ip6Header) : Prop :=
  let b := fun i => (m.read (a + i)).toNat
  h.version.toNat = b 0 / 16 ∧
  h.trafficClass.toNat = b 0 % 16 * 16 + b 1 / 16 ∧
  h.flowLabel.toNat = b 1 % 16 * 65536 + b 2 * 256 + b 3 ∧
  h.payloadLength.toNat = b 4 * 256 + b 5 ∧
  h.nextHeader.toNat = b 6 ∧
  h.hopLimit.toNat = b 7 ∧
  ∀ i : Fin 16, h.src[i] = m.read (a + 8 + i.val) ∧ h.dst[i] = m.read (a + 24 + i.val)

/-- R151: `IP6_DECODE` with 40 bytes available completes with `OK`, whatever the record held and
whatever the version: the record is `BOUND` to the 40 bytes at `BASE + OFF`, not stale, and holds
their fields; nothing but it and `STATUS` changes. -/
def Obligations.Ip6DecodeBindsTheHeader : Prop :=
  ∀ s : State, s.ready = true → s.canAccess 40 = true →
    ∃ t, exec .ip6Decode s = .next t ∧ t = { s with ip6 := t.ip6, status := 0x00 } ∧
      t.ip6.st = .bound ∧ t.ip6.bindN = 40 ∧ t.ip6.stale = false ∧
      t.ip6.bindLo = s.base + s.off ∧ Ip6FieldsAt s.mem (s.base.toNat + s.off.toNat) t.ip6.hdr

/-- R151, R152, R155: with fewer than 40 bytes available (or `OFF` past `LEN`) `IP6_DECODE` ends with
`TruncatedBuffer` and `IP6_ENCODE` of a readable record with `BufferTooSmall`, and `STATUS` alone
changes. -/
def Obligations.Ip6ShortSliceStatuses : Prop :=
  ∀ s : State, s.ready = true → s.base.toNat + s.len.toNat ≤ 2 ^ s.params.aw →
    s.len.toNat < s.off.toNat + 40 →
    exec .ip6Decode s = .next { s with status := 0x01 } ∧
    (s.ip6.st = .owned ∨ s.ip6.st = .bound ∧ s.ip6.stale = false →
      exec .ip6Encode s = .next { s with status := 0x02 })

/-- R155: `IP6_ENCODE` of a readable record with 40 bytes available completes with `OK`: the 40 bytes
at `BASE + OFF` hold the record's fields in the layout of R92, every other byte reads as before, and
only `STATUS` changes beside, the records only by becoming stale. -/
def Obligations.Ip6EncodeWritesTheHeader : Prop :=
  ∀ s : State, s.ready = true → s.canAccess 40 = true → s.memWf = true →
    (s.ip6.st = .owned ∨ s.ip6.st = .bound ∧ s.ip6.stale = false) →
    ∃ t, exec .ip6Encode s = .next t ∧
      t = { s with
            mem := t.mem, status := 0x00, ip6 := { s.ip6 with stale := t.ip6.stale }
            tcp := { s.tcp with stale := t.tcp.stale } } ∧
      Ip6FieldsAt t.mem (s.base.toNat + s.off.toNat) s.ip6.hdr ∧
      ∀ a, (a < s.base.toNat + s.off.toNat ∨ s.base.toNat + s.off.toNat + 40 ≤ a) →
        t.mem.read a = s.mem.read a

/-- R163: encoding a readable record and decoding from the same place gives back every field and both
addresses; conversely, decoding 40 bytes and encoding the record to the same place leaves every byte
of memory as it was. -/
def Obligations.Ip6RoundTrip : Prop :=
  ∀ s : State, s.ready = true → s.canAccess 40 = true → s.memWf = true →
    (s.ip6.st = .owned ∨ s.ip6.st = .bound ∧ s.ip6.stale = false →
      ∃ t u, exec .ip6Encode s = .next t ∧ exec .ip6Decode t = .next u ∧ u.ip6.hdr = s.ip6.hdr) ∧
    ∃ t u, exec .ip6Decode s = .next t ∧ exec .ip6Encode t = .next u ∧
      ∀ a, u.mem.read a = s.mem.read a

/-- R157, R192: a clear, the word 0x20000000 or 0x30000000, completes with `OK` from every state of the
record and leaves it `OWNED`, unbound and not stale with every field 0; nothing but it and `STATUS`
changes. -/
def Obligations.ClearsMakeOwnedZeroRecords : Prop :=
  (∀ s : State, s.ready = true →
    (∃ t, exec .ip6Clear s = .next t ∧ t = { s with
        status := 0x00
        ip6 := { st := .owned, bindLo := t.ip6.bindLo, bindN := 0, stale := false
                 hdr := { version := 0, trafficClass := 0, flowLabel := 0, payloadLength := 0
                          nextHeader := 0, hopLimit := 0, src := Vector.replicate 16 0
                          dst := Vector.replicate 16 0 } } }) ∧
    ∃ t, exec .tcpClear s = .next t ∧ t = { s with
        status := 0x00
        tcp := { st := .owned, bindLo := t.tcp.bindLo, bindN := 0, stale := false
                 hdr := { sourcePort := 0, destPort := 0, sequenceNumber := 0, ackNumber := 0
                          reserved := 0, flags := 0, window := 0, checksum := 0, urgentPointer := 0
                          optionsLength := 0, opt := Vector.replicate 40 0 } } }) ∧
  encode .ip6Clear = 0x20000000 ∧ encode .tcpClear = 0x30000000

/-- R158, R193: a detach, the word 0x21000000 or 0x31000000, of a readable record completes with `OK`:
a `BOUND` record becomes `OWNED` and unbound with its fields kept, an `OWNED` one does not change, and
nothing but it and `STATUS` changes. An `EMPTY` record faults `UndefinedRecord`, a stale view
`StaleView`. -/
def Obligations.DetachesMakeOwnedCopies : Prop :=
  (∀ s : State, s.ready = true →
    (s.ip6.st = .bound → s.ip6.stale = false → ∃ t, exec .ip6Detach s = .next t ∧ t = { s with
        status := 0x00
        ip6 := { s.ip6 with st := .owned, bindLo := t.ip6.bindLo, bindN := 0, stale := false } }) ∧
    (s.ip6.st = .owned → exec .ip6Detach s = .next { s with status := 0x00 }) ∧
    (s.ip6.st = .empty →
      exec .ip6Detach s = .next { s with fault := 0x21000501, status := 0xFF }) ∧
    (s.ip6.st = .bound → s.ip6.stale = true →
      exec .ip6Detach s = .next { s with fault := 0x21000701, status := 0xFF }) ∧
    (s.tcp.st = .bound → s.tcp.stale = false → ∃ t, exec .tcpDetach s = .next t ∧ t = { s with
        status := 0x00
        tcp := { s.tcp with st := .owned, bindLo := t.tcp.bindLo, bindN := 0, stale := false } }) ∧
    (s.tcp.st = .owned → exec .tcpDetach s = .next { s with status := 0x00 }) ∧
    (s.tcp.st = .empty →
      exec .tcpDetach s = .next { s with fault := 0x31000501, status := 0xFF }) ∧
    (s.tcp.st = .bound → s.tcp.stale = true →
      exec .tcpDetach s = .next { s with fault := 0x31000701, status := 0xFF })) ∧
  encode .ip6Detach = 0x21000000 ∧ encode .tcpDetach = 0x31000000

/-- The value of a named IPv6 field (R32). -/
def ip6FieldNat (h : Ip6Header) : Ip6Field → Nat
  | .version => h.version.toNat
  | .trafficClass => h.trafficClass.toNat
  | .flowLabel => h.flowLabel.toNat
  | .payloadLength => h.payloadLength.toNat
  | .nextHeader => h.nextHeader.toNat
  | .hopLimit => h.hopLimit.toNat

/-- The width of a named IPv6 field (R32, R162). -/
def ip6FieldWidth : Ip6Field → Nat
  | .version => 4
  | .trafficClass => 8
  | .flowLabel => 20
  | .payloadLength => 16
  | .nextHeader => 8
  | .hopLimit => 8

/-- R161: `IP6_FLD_RD f` of a readable record completes with `OK` and puts the field, zero-extended,
in `RES`; nothing else changes. -/
def Obligations.Ip6FieldReadReturnsTheField : Prop :=
  ∀ (s : State) (f : Ip6Field), s.ready = true →
    (s.ip6.st = .owned ∨ s.ip6.st = .bound ∧ s.ip6.stale = false) →
    ∃ t, exec (.ip6FldRd f) s = .next t ∧ t = { s with res := t.res, status := 0x00 } ∧
      t.res.toNat = ip6FieldNat s.ip6.hdr f

/-- R162: `IP6_FLD_WR f` of an `OWNED` record completes with `OK`: the field holds `VAL` truncated to
its width, no other field and neither address changes, and nothing but the record and `STATUS`
changes. -/
def Obligations.Ip6FieldWriteTruncates : Prop :=
  ∀ (s : State) (f : Ip6Field), s.ready = true → s.ip6.st = .owned →
    ∃ t, exec (.ip6FldWr f) s = .next t ∧
      t = { s with status := 0x00, ip6 := { s.ip6 with hdr := t.ip6.hdr } } ∧
      t.ip6.hdr.src = s.ip6.hdr.src ∧ t.ip6.hdr.dst = s.ip6.hdr.dst ∧
      ip6FieldNat t.ip6.hdr f = s.val.toNat % 2 ^ ip6FieldWidth f ∧
      ∀ g, g ≠ f → ip6FieldNat t.ip6.hdr g = ip6FieldNat s.ip6.hdr g

/-- R164: encodings of two records that differ only in `flow_label` differ only in the low nibble of
byte 1 and in bytes 2 and 3, and decode to the same `version` and `traffic_class`. With the roles
swapped: encodings of two records that differ only in `version` and `traffic_class` differ only in
byte 0 and the high nibble of byte 1, and decode to the same `flow_label`. -/
def Obligations.FlowLabelIsIsolated : Prop :=
  ∀ (h : Ip6Header) (fl : BitVec 20) (ver : BitVec 4) (tc : BitVec 8),
    let x := ip6ToBytes h
    let y := ip6ToBytes { h with flowLabel := fl }
    let z := ip6ToBytes { h with version := ver, trafficClass := tc }
    ((∀ i, i ≠ 1 → i ≠ 2 → i ≠ 3 → byteAt x i = byteAt y i) ∧
      (byteAt x 1).extractLsb' 4 4 = (byteAt y 1).extractLsb' 4 4 ∧
      (ip6OfBytes y).version = (ip6OfBytes x).version ∧
      (ip6OfBytes y).trafficClass = (ip6OfBytes x).trafficClass ∧ (ip6OfBytes y).flowLabel = fl) ∧
    (∀ i, i ≠ 0 → i ≠ 1 → byteAt x i = byteAt z i) ∧
      (byteAt x 1).extractLsb' 0 4 = (byteAt z 1).extractLsb' 0 4 ∧
      (ip6OfBytes z).flowLabel = (ip6OfBytes x).flowLabel ∧
      (ip6OfBytes z).version = ver ∧ (ip6OfBytes z).trafficClass = tc

/-! ### The address views (43_address_views.md) -/

/-- R223, R221: `ADDR_RD` of a readable record completes with `OK`; byte `j` of element `k` stands at
the big-endian or little-endian place in `RES` that `ADDR_VIEW_ORDER` says, the rest of `RES` is 0,
and nothing else changes. -/
def Obligations.AddrReadReturnsTheElement : Prop :=
  ∀ (s : State) (r : AddrReg) (w : ViewWidth) (k : Byte), s.ready = true →
    (s.ip6.st = .owned ∨ s.ip6.st = .bound ∧ s.ip6.stale = false) →
    k.toNat < 16 / w.bytes →
    ∃ t, exec (.addrRd r w k) s = .next t ∧ t = { s with res := t.res, status := 0x00 } ∧
      t.res.toNat < 256 ^ w.bytes ∧
      ∀ (j : Nat) (i : Fin 16), j < w.bytes → i.val = w.bytes * k.toNat + j →
        t.res.toNat / 256 ^ (if s.params.viewOrder = .be then w.bytes - 1 - j else j) % 256 =
          ((s.ip6.hdr.addr r)[i]).toNat

/-- R224: `ADDR_WR` of an `OWNED` record completes with `OK`; the bytes of element `k` are those of
`VAL` truncated to the element's width, in the order `ADDR_VIEW_ORDER` says; no other byte of either
address, no other field and nothing but the record and `STATUS` changes. -/
def Obligations.AddrWriteReplacesTheElement : Prop :=
  ∀ (s : State) (r : AddrReg) (w : ViewWidth) (k : Byte), s.ready = true → s.ip6.st = .owned →
    k.toNat < 16 / w.bytes →
    ∃ t, exec (.addrWr r w k) s = .next t ∧
      t = { s with
            status := 0x00
            ip6 := { s.ip6 with hdr := { s.ip6.hdr with src := t.ip6.hdr.src, dst := t.ip6.hdr.dst } } } ∧
      (∀ r2, r2 ≠ r → t.ip6.hdr.addr r2 = s.ip6.hdr.addr r2) ∧
      (∀ (j : Nat) (i : Fin 16), j < w.bytes → i.val = w.bytes * k.toNat + j →
        ((t.ip6.hdr.addr r)[i]).toNat =
          s.val.toNat / 256 ^ (if s.params.viewOrder = .be then w.bytes - 1 - j else j) % 256) ∧
      ∀ i : Fin 16, (i.val < w.bytes * k.toNat ∨ w.bytes * k.toNat + w.bytes ≤ i.val) →
        (t.ip6.hdr.addr r)[i] = (s.ip6.hdr.addr r)[i]

/-- R225: after `ADDR_WR` at `(w, k)`, `ADDR_RD` at `(w, k)` returns `VAL` truncated to the element's
width, under either order; the 8-bit view returns the bytes written; `ADDR_RD` of an element of any
view that shares none of its bytes returns what it returned before. And byte `j` of a 64-bit element
under `BE` is that address byte. -/
def Obligations.AddrWriteThenRead : Prop :=
  (∀ (s t : State) (r : AddrReg) (w : ViewWidth) (k : Byte),
    s.ready = true → s.ip6.st = .owned → k.toNat < 16 / w.bytes →
    exec (.addrWr r w k) s = .next t →
    (∃ u, exec (.addrRd r w k) t = .next u ∧ u.res.toNat = s.val.toNat % 256 ^ w.bytes) ∧
    (∀ (j : Nat) (kb : Byte), j < w.bytes → kb.toNat = w.bytes * k.toNat + j →
      ∃ u, exec (.addrRd r .w8 kb) t = .next u ∧
        u.res.toNat =
          s.val.toNat / 256 ^ (if s.params.viewOrder = .be then w.bytes - 1 - j else j) % 256) ∧
    ∀ (w2 : ViewWidth) (k2 : Byte), k2.toNat < 16 / w2.bytes →
      (w2.bytes * k2.toNat + w2.bytes ≤ w.bytes * k.toNat ∨
        w.bytes * k.toNat + w.bytes ≤ w2.bytes * k2.toNat) →
      ∃ u v, exec (.addrRd r w2 k2) s = .next u ∧ exec (.addrRd r w2 k2) t = .next v ∧
        v.res = u.res) ∧
  ∀ (a : Vector Byte 16) (k j : Nat) (i : Fin 16), k < 2 → j < 8 → i.val = 8 * k + j →
    (elemValue .be a .w64 k).extractLsb' (56 - 8 * j) 8 = a[i]

/-! ### The TCP codec (42_tcp_codec.md) -/

/-- The fixed TCP fields of the bytes at `a`, by the arithmetic of R94, but `reserved`. -/
def TcpFixedFieldsAt (m : Memory) (a : Nat) (h : TcpHeader) : Prop :=
  let b := fun i => (m.read (a + i)).toNat
  h.sourcePort.toNat = b 0 * 256 + b 1 ∧
  h.destPort.toNat = b 2 * 256 + b 3 ∧
  h.sequenceNumber.toNat = b 4 * 2 ^ 24 + b 5 * 2 ^ 16 + b 6 * 256 + b 7 ∧
  h.ackNumber.toNat = b 8 * 2 ^ 24 + b 9 * 2 ^ 16 + b 10 * 256 + b 11 ∧
  h.flags.toNat = b 13 ∧
  h.window.toNat = b 14 * 256 + b 15 ∧
  h.checksum.toNat = b 16 * 256 + b 17 ∧
  h.urgentPointer.toNat = b 18 * 256 + b 19

/-- R181: `TCP_DECODE` of a header whose `data_offset` `d` is at least 5, with `4*d` bytes available,
completes with `OK`: the record is `BOUND` to those bytes, not stale, and holds their fields and
options, the option bytes past them 0; nothing but it and `STATUS` changes. -/
def Obligations.TcpDecodeBindsTheHeader : Prop :=
  ∀ (s : State) (d : Nat), d = (s.mem.read (s.base.toNat + s.off.toNat + 12)).toNat / 16 →
    s.ready = true → 5 ≤ d → s.canAccess (4 * d) = true →
    ∃ t, exec .tcpDecode s = .next t ∧ t = { s with tcp := t.tcp, status := 0x00 } ∧
      t.tcp.st = .bound ∧ t.tcp.bindN = 4 * d ∧ t.tcp.stale = false ∧
      t.tcp.bindLo = s.base + s.off ∧
      TcpFixedFieldsAt s.mem (s.base.toNat + s.off.toNat) t.tcp.hdr ∧
      t.tcp.hdr.reserved.toNat = (s.mem.read (s.base.toNat + s.off.toNat + 12)).toNat % 16 ∧
      t.tcp.hdr.optionsLength.toNat = 4 * d - 20 ∧
      ∀ i : Fin 40, t.tcp.hdr.opt[i] =
        if i.val < 4 * d - 20 then s.mem.read (s.base.toNat + s.off.toNat + 20 + i.val) else 0

/-- R181, R182, R310: `TCP_DECODE` ends with `TruncatedBuffer` when fewer than 20 bytes are available,
then with `InvalidDataOffset` when `data_offset` is below 5, then with `TruncatedBuffer` when fewer
than `4 * data_offset` bytes are available; `STATUS` alone changes. -/
def Obligations.TcpDecodeStatuses : Prop :=
  ∀ (s : State) (d : Nat), d = (s.mem.read (s.base.toNat + s.off.toNat + 12)).toNat / 16 →
    s.ready = true → s.base.toNat + s.len.toNat ≤ 2 ^ s.params.aw →
    (s.len.toNat < s.off.toNat + 20 → exec .tcpDecode s = .next { s with status := 0x01 }) ∧
    (s.canAccess 20 = true →
      (d < 5 → exec .tcpDecode s = .next { s with status := 0x03 }) ∧
      (5 ≤ d → s.len.toNat < s.off.toNat + 4 * d →
        exec .tcpDecode s = .next { s with status := 0x01 }))

/-- R186, R187: `TCP_ENCODE` of a readable record whose options length `OL` is a multiple of 4 up to
40, with `20 + OL` bytes available, completes with `OK`: the bytes at `BASE + OFF` hold the fixed
fields, `data_offset = (20 + OL) / 4`, the reserved nibble that `TCP_RSVD_ENCODE` says, and the
options; every other byte reads as before, and only `STATUS` changes beside, the records only by
becoming stale. -/
def Obligations.TcpEncodeWritesTheHeader : Prop :=
  ∀ (s : State) (ol : Nat), ol = s.tcp.hdr.optionsLength.toNat → ol % 4 = 0 → ol ≤ 40 →
    s.ready = true → s.canAccess (20 + ol) = true → s.memWf = true →
    (s.tcp.st = .owned ∨ s.tcp.st = .bound ∧ s.tcp.stale = false) →
    ∃ t, exec .tcpEncode s = .next t ∧
      t = { s with
            mem := t.mem, status := 0x00, ip6 := { s.ip6 with stale := t.ip6.stale }
            tcp := { s.tcp with stale := t.tcp.stale } } ∧
      TcpFixedFieldsAt t.mem (s.base.toNat + s.off.toNat) s.tcp.hdr ∧
      (t.mem.read (s.base.toNat + s.off.toNat + 12)).toNat =
        (20 + ol) / 4 * 16 +
          (if s.params.rsvd = .verbatim then s.tcp.hdr.reserved.toNat else 0) ∧
      (∀ i : Fin 40, i.val < ol →
        t.mem.read (s.base.toNat + s.off.toNat + 20 + i.val) = s.tcp.hdr.opt[i]) ∧
      ∀ a, (a < s.base.toNat + s.off.toNat ∨ s.base.toNat + s.off.toNat + (20 + ol) ≤ a) →
        t.mem.read a = s.mem.read a

/-- R186, R310: `TCP_ENCODE` of a readable record ends with `InvalidOptionsLength` when its options
length is not a multiple of 4 up to 40, whatever the slice, and else with `BufferTooSmall` when fewer
than `20 + OL` bytes are available; `STATUS` alone changes. -/
def Obligations.TcpEncodeStatuses : Prop :=
  ∀ (s : State) (ol : Nat), ol = s.tcp.hdr.optionsLength.toNat → s.ready = true →
    (s.tcp.st = .owned ∨ s.tcp.st = .bound ∧ s.tcp.stale = false) →
    s.base.toNat + s.len.toNat ≤ 2 ^ s.params.aw →
    (ol % 4 ≠ 0 ∨ 40 < ol → exec .tcpEncode s = .next { s with status := 0x04 }) ∧
    (ol % 4 = 0 → ol ≤ 40 → s.len.toNat < s.off.toNat + (20 + ol) →
      exec .tcpEncode s = .next { s with status := 0x02 })

/-- R201: encoding a readable record with a legal options length, and `reserved` 0 under `ZERO`, and
decoding from the same place gives back every field and the option bytes of its length. -/
def Obligations.TcpEncodeDecodeRoundTrip : Prop :=
  ∀ (s : State) (ol : Nat), ol = s.tcp.hdr.optionsLength.toNat → ol % 4 = 0 → ol ≤ 40 →
    (s.params.rsvd = .zero → s.tcp.hdr.reserved = 0) →
    s.ready = true → s.canAccess (20 + ol) = true → s.memWf = true →
    (s.tcp.st = .owned ∨ s.tcp.st = .bound ∧ s.tcp.stale = false) →
    ∃ t u, exec .tcpEncode s = .next t ∧ exec .tcpDecode t = .next u ∧
      u.tcp.hdr = { s.tcp.hdr with opt := u.tcp.hdr.opt } ∧
      ∀ i : Fin 40, u.tcp.hdr.opt[i] = if i.val < ol then s.tcp.hdr.opt[i] else 0

/-- The value of a stored TCP field, or of `data_offset` by the formula of R37 where it is defined. -/
def tcpFieldNat (h : TcpHeader) : TcpField → Nat
  | .sourcePort => h.sourcePort.toNat
  | .destPort => h.destPort.toNat
  | .sequenceNumber => h.sequenceNumber.toNat
  | .ackNumber => h.ackNumber.toNat
  | .dataOffset => (20 + h.optionsLength.toNat) / 4
  | .reserved => h.reserved.toNat
  | .flags => h.flags.toNat
  | .window => h.window.toNat
  | .checksum => h.checksum.toNat
  | .urgentPointer => h.urgentPointer.toNat
  | .optionsLength => h.optionsLength.toNat

/-- The width of a named TCP field (R35, R198). -/
def tcpFieldWidth : TcpField → Nat
  | .sourcePort => 16
  | .destPort => 16
  | .sequenceNumber => 32
  | .ackNumber => 32
  | .dataOffset => 4
  | .reserved => 4
  | .flags => 8
  | .window => 16
  | .checksum => 16
  | .urgentPointer => 16
  | .optionsLength => 16

/-- R197, R37: `TCP_FLD_RD f` of a readable record completes with `OK` and puts the field,
zero-extended, in `RES`, `data_offset` being `(20 + OL) / 4`; nothing else changes. A read of
`data_offset` while `OL` is not a multiple of 4 up to 40 faults `UndefinedField`. -/
def Obligations.TcpFieldReadReturnsTheField : Prop :=
  ∀ (s : State) (f : TcpField), s.ready = true →
    (s.tcp.st = .owned ∨ s.tcp.st = .bound ∧ s.tcp.stale = false) →
    if f = .dataOffset ∧
        ¬(s.tcp.hdr.optionsLength.toNat % 4 = 0 ∧ s.tcp.hdr.optionsLength.toNat ≤ 40) then
      exec (.tcpFldRd f) s = .next { s with fault := 0x32000901, status := 0xFF }
    else
      ∃ t, exec (.tcpFldRd f) s = .next t ∧ t = { s with res := t.res, status := 0x00 } ∧
        t.res.toNat = tcpFieldNat s.tcp.hdr f

/-- R198: `TCP_FLD_WR f` of an `OWNED` record completes with `OK` for every field but `data_offset`:
the field holds `VAL` truncated to its width, no other stored field and no option byte changes, and
nothing but the record and `STATUS` changes. For `data_offset` it faults `ReadOnlyField`. -/
def Obligations.TcpFieldWriteTruncates : Prop :=
  ∀ (s : State) (f : TcpField), s.ready = true → s.tcp.st = .owned →
    if f = .dataOffset then
      exec (.tcpFldWr f) s = .next { s with fault := 0x33000801, status := 0xFF }
    else
      ∃ t, exec (.tcpFldWr f) s = .next t ∧
        t = { s with status := 0x00, tcp := { s.tcp with hdr := t.tcp.hdr } } ∧
        t.tcp.hdr.opt = s.tcp.hdr.opt ∧
        tcpFieldNat t.tcp.hdr f = s.val.toNat % 2 ^ tcpFieldWidth f ∧
        ∀ g, g ≠ f → g ≠ .dataOffset → tcpFieldNat t.tcp.hdr g = tcpFieldNat s.tcp.hdr g

/-- R199: `OPT_RD k` of a readable record completes with `OK` and puts option byte `k`, zero-extended,
in `RES`, unless the record is `BOUND` and `k` is not below its options length, when it faults
`OutOfRange`. -/
def Obligations.OptReadReturnsTheByte : Prop :=
  ∀ (s : State) (k : Byte) (i : Fin 40), i.val = k.toNat → s.ready = true →
    (s.tcp.st = .owned ∨ s.tcp.st = .bound ∧ s.tcp.stale = false) →
    if s.tcp.st = .bound ∧ s.tcp.hdr.optionsLength.toNat ≤ k.toNat then
      exec (.optRd k) s = .next { s with fault := 0x34000201, status := 0xFF }
    else
      exec (.optRd k) s = .next { s with res := (s.tcp.hdr.opt[i]).setWidth 64, status := 0x00 }

/-- R200: `OPT_WR k` of an `OWNED` record completes with `OK`: option byte `k` holds the low 8 bits of
`VAL`, no other option byte, no field and nothing but the record and `STATUS` changes. -/
def Obligations.OptWriteReplacesTheByte : Prop :=
  ∀ (s : State) (k : Byte), k.toNat ≤ 39 → s.ready = true → s.tcp.st = .owned →
    ∃ t, exec (.optWr k) s = .next t ∧
      t = { s with
            status := 0x00
            tcp := { s.tcp with hdr := { s.tcp.hdr with opt := t.tcp.hdr.opt } } } ∧
      ∀ i : Fin 40, t.tcp.hdr.opt[i] = if i.val = k.toNat then s.val.setWidth 8 else s.tcp.hdr.opt[i]

/-! ### Faults (60_exceptions.md) -/

/-- R150, R180: the record checks of every command, before any memory check: `UndefinedRecord` from an
`EMPTY` record, `StaleView` where a stale view is read, `ReadOnlyView` where a view is written. Only
`FAULT` and `STATUS` change. -/
def Obligations.RecordChecksFault : Prop :=
  ∀ (s : State) (i : Instr), s.faulted = false →
    ((readsIp6 i || writesIp6 i) = true → s.ip6.st = .empty →
      exec i s = .next (s.raise i.opcode.code .undefinedRecord)) ∧
    (readsIp6 i = true → s.ip6.st = .bound → s.ip6.stale = true →
      exec i s = .next (s.raise i.opcode.code .staleView)) ∧
    (writesIp6 i = true → s.ip6.st = .bound →
      exec i s = .next (s.raise i.opcode.code .readOnlyView)) ∧
    ((readsTcp i || writesTcp i) = true → s.tcp.st = .empty →
      exec i s = .next (s.raise i.opcode.code .undefinedRecord)) ∧
    (readsTcp i = true → s.tcp.st = .bound → s.tcp.stale = true →
      exec i s = .next (s.raise i.opcode.code .staleView)) ∧
    (writesTcp i = true → s.tcp.st = .bound →
      exec i s = .next (s.raise i.opcode.code .readOnlyView))

/-- R306, R304, R24: a fault raised by a command changes nothing but `FAULT` and `STATUS`: `FAULT`
holds V = 1, a cause code from 1 to 9, the command's opcode field and zeros, and `STATUS` 0xFF. -/
def Obligations.FaultEntryIsPrecise : Prop :=
  ∀ (s t : State) (i : Instr), s.faulted = false → exec i s = .next t → t.faulted = true →
    t = { s with fault := t.fault, status := 0xFF } ∧
    ∃ c, 1 ≤ c ∧ c ≤ 9 ∧ t.fault.toNat = i.opcode.code.toNat * 2 ^ 24 + c * 2 ^ 8 + 1

/-- R302: a command that ends with an error status has no effect other than writing `STATUS`. -/
def Obligations.ErrorStatusWritesStatusOnly : Prop :=
  ∀ (s t : State) (i : Instr), s.ready = true → exec i s = .next t → t.status ≠ 0x00 →
    t.faulted = false → t = { s with status := t.status }

/-- R69, R309: every memory command whose slice wraps, its earlier checks passing, faults
`AddressWrap`, whatever `OFF` holds, and changes only `FAULT` and `STATUS`. -/
def Obligations.WrappingSliceFaults : Prop :=
  ∀ (s : State) (i : Instr), s.faulted = false →
    2 ^ s.params.aw < s.base.toNat + s.len.toNat →
    (i ∈ [.ip6Decode, .tcpDecode, .rdBe16, .rdBe32, .rdBe64, .wrBe16, .wrBe32, .wrBe64] ∨
      (i = .ip6Encode ∧ (s.ip6.st = .owned ∨ s.ip6.st = .bound ∧ s.ip6.stale = false)) ∨
      (i = .tcpEncode ∧ (s.tcp.st = .owned ∨ s.tcp.st = .bound ∧ s.tcp.stale = false)) ∨
      ∃ bo w : Byte, (i = .unpackBits bo w ∨ i = .packBits bo w) ∧
        bo.toNat ≤ 7 ∧ 1 ≤ w.toNat ∧ bo.toNat + w.toNat ≤ 16) →
    exec i s = .next (s.raise i.opcode.code .addressWrap)

/-- R62, R67: where a memory command stops. Once its checks have passed, a slice over memory with
read side effects is refused, and a byte it comes to that is not backed leaves the block stuck. The
named stops are the model's reading of those rules (log 12, log 13). -/
def Obligations.UnadmittedMemoryStops : Prop :=
  ∀ (s : State) (i : Instr) (n : Nat), s.faulted = false →
    s.base.toNat + s.len.toNat ≤ 2 ^ s.params.aw → s.off.toNat + n ≤ s.len.toNat →
    ((i, n) ∈ bigEndianReads ++ bigEndianWrites ∨ (i = .ip6Decode ∧ n = 40) ∨
      (i = .ip6Encode ∧ n = 40 ∧ (s.ip6.st = .owned ∨ s.ip6.st = .bound ∧ s.ip6.stale = false)) ∨
      (i = .tcpDecode ∧ (n = 20 ∨
        20 ≤ n ∧ n = 4 * ((s.mem.read (s.base.toNat + s.off.toNat + 12)).toNat / 16))) ∨
      (i = .tcpEncode ∧ n = 20 + s.tcp.hdr.optionsLength.toNat ∧ n % 4 = 0 ∧ n ≤ 60 ∧
        (s.tcp.st = .owned ∨ s.tcp.st = .bound ∧ s.tcp.stale = false)) ∨
      ∃ bo w : Byte, (i = .unpackBits bo w ∨ i = .packBits bo w) ∧
        bo.toNat ≤ 7 ∧ 1 ≤ w.toNat ∧ bo.toNat + w.toNat ≤ 16 ∧
        n = if bo.toNat + w.toNat ≤ 8 then 1 else 2) →
    (s.slicePlain = false → exec i s = .refused .sideEffectSlice) ∧
    (s.slicePlain = true → s.hits .absent (s.base.toNat + s.off.toNat) n = true →
      exec i s = .fault .unbackedByte)

/-- R308: once the block is faulted, no step changes `FAULT` or `STATUS` but a reset: `FAULT` holds
the first fault since reset. The premise that no command is in flight is part of the invariant. -/
def Obligations.FirstFaultStays : Prop :=
  ∀ (s t : State), s.faulted = true → s.pending = none → step s = .next t →
    (∃ rest, s.todo = .during .reset :: rest ∨ s.todo = .outside .reset :: rest) ∨
      (t.fault = s.fault ∧ t.status = s.status ∧ t.pending = none)

/-! ### Frames over all commands -/

/-- R304, R21: no command writes `BASE`, `LEN`, `OFF`, `VAL` or `CMD`. Nor does one change the
parameters, the platform's map, the events to come, the position, or what the host and another agent
last read: those fields are the model's own (log 1, log 14, log 5, log 6, log 7), and no rule speaks
of them. -/
def Obligations.CommandsKeepOperands : Prop :=
  ∀ (s t : State) (i : Instr), exec i s = .next t →
    t.cmd = s.cmd ∧ t.base = s.base ∧ t.len = s.len ∧ t.off = s.off ∧ t.val = s.val ∧
    t.params = s.params ∧ t.map = s.map ∧ t.todo = s.todo ∧ t.pos = s.pos ∧
    t.portData = s.portData ∧ t.agentData = s.agentData

/-- R22: `RES` is written only by the read commands, and not by one that faults. -/
def Obligations.OnlyReadCommandsWriteRes : Prop :=
  ∀ (s t : State) (i : Instr), exec i s = .next t →
    (writesRes i = false ∨ t.faulted = true) → t.res = s.res

/-- R66, R84, R61: a command changes no byte of memory outside the bytes from `BASE + OFF` on that its
row of R66 names: none at all for a command that stores nothing. -/
def Obligations.CommandsStoreOnlyTheirBytes : Prop :=
  ∀ (s t : State) (i : Instr), exec i s = .next t →
    ∀ a, (a < s.base.toNat + s.off.toNat ∨ s.base.toNat + s.off.toNat + storedBytes s i ≤ a) →
      t.mem.read a = s.mem.read a

/-- A command that writes no record of a kind leaves that record's state, fields and bound bytes as
they were, and changes its staleness only by marking it stale where the command stores to a byte
that the record, `BOUND`, covers (R80). -/
def Obligations.RecordsChangeOnlyByTheirCommands : Prop :=
  ∀ (s t : State) (i : Instr), exec i s = .next t →
    (changesIp6 i = false →
      t.ip6 = { s.ip6 with stale := t.ip6.stale } ∧
      (t.ip6.stale ≠ s.ip6.stale → t.ip6.stale = true ∧
        ∃ k, k < storedBytes s i ∧ s.ip6.covers (s.base.toNat + s.off.toNat + k) = true)) ∧
    (changesTcp i = false →
      t.tcp = { s.tcp with stale := t.tcp.stale } ∧
      (t.tcp.stale ≠ s.tcp.stale → t.tcp.stale = true ∧
        ∃ k, k < storedBytes s i ∧ s.tcp.covers (s.base.toNat + s.off.toNat + k) = true))

/-- R80, D39: a store completed by a command marks stale every `BOUND` record that covers a stored
byte, whatever the values, and leaves the other one's staleness as it was. -/
def Obligations.StoresMarkViewsStale : Prop :=
  ∀ (s t : State) (i : Instr), s.ready = true → exec i s = .next t → t.status = 0x00 →
    0 < storedBytes s i →
    (t.ip6.stale = (s.ip6.stale || decide (s.ip6.st = .bound ∧ 0 < s.ip6.bindN ∧
      s.ip6.bindLo.toNat < s.base.toNat + s.off.toNat + storedBytes s i ∧
      s.base.toNat + s.off.toNat < s.ip6.bindLo.toNat + s.ip6.bindN))) ∧
    (t.tcp.stale = (s.tcp.stale || decide (s.tcp.st = .bound ∧ 0 < s.tcp.bindN ∧
      s.tcp.bindLo.toNat < s.base.toNat + s.off.toNat + storedBytes s i ∧
      s.base.toNat + s.off.toNat < s.tcp.bindLo.toNat + s.tcp.bindN)))

/-! ### Two phases, other agents, reset (20_memory.md, 70_reset_and_hazards.md) -/

/-- R76, R242: a command that something outside comes between the phases of is left pending with no
other effect, and the next step, when no further event comes between, is its COMMIT: it does exactly
what the command does when nothing comes between. What comes between is the model's event list (log
11), here replaced by any list that begins with no such event. -/
def Obligations.CommitIsTheWholeEffect : Prop :=
  ∀ (s t : State) (p : Pending) (i : Instr), s.pending = none → exec i s = .next t →
    t.pending = some p →
    t = { s with pending := some p } ∧
    ∀ evs : List Event, ({ s with todo := evs } : State).interposed = false →
      step { t with todo := evs } = exec i { s with todo := evs }

/-- R77: a write by another agent into the read or write set of a command in flight marks it
raced, and only such a write does. The byte is written. Moves of one byte, in an event list, are
the model's (log 5, log 22). -/
def Obligations.AgentWriteRaces : Prop :=
  ∀ (s : State) (p : Pending) (a : Nat) (b : Byte) (rest : List Event),
    s.pending = some p → s.todo = .during (.write a b) :: rest → s.isBufferByte a = true →
    s.memWf = true →
    ∃ t q, step s = .next t ∧ t.pending = some q ∧ t.mem.read a = b ∧ t.todo = rest ∧
      q = { p with raced := q.raced } ∧
      (q.raced = true ↔ p.raced = true ∨ a ∈ p.reads ∨ ∃ c ∈ p.writes, c.1 = a)

/-- R77, R306: COMMIT of a raced command that was to end with `OK` faults `Race`: `FAULT` and
`STATUS` say so, no command is in flight any more, every other port register and both records with
their bindings are as before, and no byte outside the write set changes. What the write set then holds
is left free (log 8, whose counter alone may move with it). That `STALE` is part of the binding R306
keeps, and that an error status is not raced, are the model's readings (log 9, log 10). The
parameters, the platform's map, the events to come, the position and what the outside last read, the
model's own fields, stay too (log 1, log 14, log 5, log 6, log 7). -/
def Obligations.RacedCommandFaults : Prop :=
  ∀ (s : State) (p : Pending), s.pending = some p → p.raced = true → p.status = .ok →
    s.interposed = false →
    ∃ t, step s = .next t ∧
      t = { s with
            pending := none, fault := t.fault, status := 0xFF, mem := t.mem, draws := t.draws } ∧
      t.fault.toNat = p.opc.toNat * 2 ^ 24 + 0x0A01 ∧
      ∀ a, (∀ c ∈ p.writes, c.1 ≠ a) → t.mem.read a = s.mem.read a

/-- R78: another agent that reads a byte of the write set of a command in flight gets the old or
the new byte of it, and of any other byte gets what memory holds; the block does not fault, and
the command stays as it was. Which of the two it is, is a free value (log 8); `agentData`, the
byte read, is the model's (log 7). -/
def Obligations.AgentReadsOldOrNew : Prop :=
  ∀ (s : State) (p : Pending) (a : Nat) (rest : List Event),
    s.pending = some p → s.todo = .during (.read a) :: rest → s.isBufferByte a = true →
    ∃ t, step s = .next t ∧ t.pending = some p ∧ t.fault = s.fault ∧ t.mem = s.mem ∧
      (t.agentData = s.mem.read a ∨ ∃ c ∈ p.writes, c.1 = a ∧ t.agentData = c.2) ∧
      ((∀ c ∈ p.writes, c.1 ≠ a) → t.agentData = s.mem.read a)

/-- R80: a write by another agent, while no command is in flight or between the phases of one, stores
its byte and makes stale each `BOUND` record that covers that byte, whatever the value; any other
record and every other byte of memory stay as they were, and a command in flight changes at most in
whether it is raced. Moves of one byte, in an event list, are the model's (log 5, log 11, log 22). -/
def Obligations.AgentWriteMarksViewsStale : Prop :=
  ∀ (s : State) (a : Nat) (b : Byte) (rest : List Event),
    (s.pending = none ∧ s.todo = .outside (.write a b) :: rest ∨
      s.todo = .during (.write a b) :: rest) →
    s.isBufferByte a = true →
    ∃ t, step s = .next t ∧
      t = { s with
            todo := rest, mem := t.mem, pending := t.pending, ip6 := { s.ip6 with stale := t.ip6.stale }
            tcp := { s.tcp with stale := t.tcp.stale } } ∧
      (t.pending.map fun p => { p with raced := false }) =
        (s.pending.map fun p => { p with raced := false }) ∧
      (s.memWf = true → t.mem.read a = b) ∧ (∀ x, x ≠ a → t.mem.read x = s.mem.read x) ∧
      t.ip6.stale = (s.ip6.stale || decide (s.ip6.st = .bound ∧
        s.ip6.bindLo.toNat ≤ a ∧ a < s.ip6.bindLo.toNat + s.ip6.bindN)) ∧
      t.tcp.stale = (s.tcp.stale || decide (s.tcp.st = .bound ∧
        s.tcp.bindLo.toNat ≤ a ∧ a < s.tcp.bindLo.toNat + s.tcp.bindN))

/-- R350, R352: a reset, between commands or between the phases of one, puts every port register at
its reset value, makes both records `EMPTY` and unbound, abandons the command in flight and does not
change the buffer memory. That the parameters stay is the model's reading (log 25), and the event
list, which loses the reset alone, is the model's own (log 5). -/
def Obligations.ResetRestoresTheBlock : Prop :=
  ∀ (s : State) (rest : List Event),
    (s.todo = .during .reset :: rest ∨ s.pending = none ∧ s.todo = .outside .reset :: rest) →
    ∃ t, step s = .next t ∧
      t.cmd = 0 ∧ t.base = 0 ∧ t.len = 0 ∧ t.off = 0 ∧ t.val = 0 ∧ t.res = 0 ∧ t.status = 0 ∧
      t.fault = 0 ∧ t.ip6.st = .empty ∧ t.tcp.st = .empty ∧ t.ip6.bindN = 0 ∧ t.tcp.bindN = 0 ∧
      t.ip6.stale = false ∧ t.tcp.stale = false ∧ t.pending = none ∧
      t.mem = s.mem ∧ t.params = s.params ∧ t.todo = rest

/-! ### Invariants -/

/-- R350: the machine right after reset, at any parameters, is in order and has no view to be
wrong. The values that R350 does not give are the model's (log 3, log 4). -/
def Obligations.ResetMeetsTheInvariants : Prop :=
  ∀ p : Params, (State.resetWith p).Inv ∧ (State.resetWith p).ViewsValid

/-- Every step keeps the machine's invariant: operand registers in `AW` bits (R21), canonical
memory inside the address space (R60), legal outcome registers (R23, R24), records and command in
flight in order (R38, R40, R41). The 64-bit form of the operand registers and the zero of unlisted
memory are the model's (log 2, log 4). -/
def Obligations.EveryStepKeepsInv : Prop :=
  ∀ s t : State, s.Inv → step s = .next t → t.Inv

/-- Every step keeps every view valid: a `BOUND` record that is not stale holds the fields of the
bytes it is bound to, as memory holds them then (R16, R40, R80), unless the block took a `Race` fault.
That a `Race` fault is left out is the model's reading of R306 beside R80 (log 9): the free bytes of
the write set mark no view stale. -/
def Obligations.EveryStepKeepsViewsValid : Prop :=
  ∀ s t : State, s.Inv → s.ViewsValid → step s = .next t → t.ViewsValid

/-- R8, D3: no step changes the parameters or the platform's map. Both are held in the state by
the model's choice (log 1, log 14). -/
def Obligations.ParametersNeverChange : Prop :=
  ∀ s t : State, step s = .next t → t.params = s.params ∧ t.map = s.map
end

