-- ==== Sys2Proof/Laws/Memory.lean ====
section
/-! SUPPORT. The laws of the buffer memory: a read after a write, that every operation keeps the
canonical form and the address space, and what a run of bytes reads and writes. -/

namespace Sys2Proof.Machine

/-! ### One byte -/

theorem Memory.read_write_ne (m : Memory) {x y : Nat} (v : Byte) (h : x ≠ y) :
    Memory.read (m.write y v) x = m.read x := by
  induction m with
  | nil => simp only [Memory.write]; split <;> simp [Memory.read, h]
  | cons c m ih =>
    obtain ⟨a, b⟩ := c
    simp only [Memory.write]
    split_ifs <;> simp_all [Memory.read]

theorem Memory.read_of_wfFrom {lo x : Nat} (m : Memory) (h : Memory.wfFrom lo m = true)
    (hx : x < lo) : m.read x = Memory.unlisted := by
  induction m generalizing lo with
  | nil => rfl
  | cons c m ih =>
    obtain ⟨a, b⟩ := c
    simp only [Memory.wfFrom, Bool.and_eq_true, decide_eq_true_eq] at h
    have hne : x ≠ a := by omega
    simp only [Memory.read, hne, if_false]
    exact ih h.2 (by omega)

theorem Memory.read_write_self_from {lo : Nat} (m : Memory) (x : Nat) (v : Byte)
    (h : Memory.wfFrom lo m = true) : Memory.read (m.write x v) x = v := by
  induction m generalizing lo with
  | nil => simp only [Memory.write]; split <;> simp_all [Memory.read]
  | cons c m ih =>
    obtain ⟨a, b⟩ := c
    simp only [Memory.wfFrom, Bool.and_eq_true, decide_eq_true_eq] at h
    simp only [Memory.write]
    split_ifs with h1 h2 h3 h4
    · have hne : x ≠ a := by omega
      simp only [Memory.read, hne, if_false, h2]
      exact Memory.read_of_wfFrom m h.2 (by omega)
    · simp [Memory.read]
    · subst h3; subst h4; exact Memory.read_of_wfFrom m h.2 (by omega)
    · simp [Memory.read]
    · simp only [Memory.read, h3, if_false]; exact ih h.2

/-- A read after a write to the same address gives the byte written. -/
theorem Memory.read_write_self (m : Memory) (x : Nat) (v : Byte) (h : m.wf = true) :
    Memory.read (m.write x v) x = v := Memory.read_write_self_from m x v h

theorem Memory.wfFrom_mono {lo lo' : Nat} (m : Memory) (h : Memory.wfFrom lo m = true)
    (hle : lo' ≤ lo) : Memory.wfFrom lo' m = true := by
  cases m with
  | nil => rfl
  | cons c m =>
    simp only [Memory.wfFrom, Bool.and_eq_true, decide_eq_true_eq] at h ⊢
    exact ⟨⟨by omega, h.1.2⟩, h.2⟩

theorem Memory.write_wfFrom {lo : Nat} (m : Memory) (x : Nat) (v : Byte)
    (h : Memory.wfFrom lo m = true) (hx : lo ≤ x) : Memory.wfFrom lo (m.write x v) = true := by
  induction m generalizing lo with
  | nil => simp only [Memory.write]; split <;> simp_all [Memory.wfFrom]
  | cons c m ih =>
    obtain ⟨a, b⟩ := c
    have h' := h
    simp only [Memory.wfFrom, Bool.and_eq_true, decide_eq_true_eq] at h
    simp only [Memory.write]
    split_ifs with h1 h2 h3 h4
    · exact h'
    · simp only [Memory.wfFrom, Bool.and_eq_true, decide_eq_true_eq]
      exact ⟨⟨hx, by simpa using h2⟩, ⟨by omega, h.1.2⟩, h.2⟩
    · exact Memory.wfFrom_mono m h.2 (by omega)
    · subst h3
      simp only [Memory.wfFrom, Bool.and_eq_true, decide_eq_true_eq]
      exact ⟨⟨hx, by simpa using h4⟩, h.2⟩
    · simp only [Memory.wfFrom, Bool.and_eq_true, decide_eq_true_eq]
      exact ⟨h.1, ih h.2 (by omega)⟩

/-- Writing a byte keeps the canonical form. -/
theorem Memory.write_wf (m : Memory) (x : Nat) (v : Byte) (h : m.wf = true) :
    (m.write x v).wf = true := Memory.write_wfFrom m x v h (Nat.zero_le _)

theorem Memory.mem_write {m : Memory} {x : Nat} {v : Byte} {c : Host.Cell} (h : c ∈ m.write x v) :
    c ∈ m ∨ c.1 = x := by
  induction m with
  | nil =>
    simp only [Memory.write] at h
    split at h <;> simp_all
  | cons d m ih =>
    obtain ⟨a, b⟩ := d
    simp only [Memory.write] at h
    split_ifs at h <;> simp only [List.mem_cons] at h ⊢
    · exact .inl h
    · rcases h with rfl | h
      · exact .inr rfl
      · exact .inl h
    · exact .inl (.inr h)
    · rcases h with rfl | h
      · exact .inr rfl
      · exact .inl (.inr h)
    · rcases h with rfl | h
      · exact .inl (.inl rfl)
      · exact (ih h).imp .inr id

/-- Writing a byte of the address space keeps memory inside it. -/
theorem Memory.write_below {m : Memory} {x n : Nat} (v : Byte) (h : m.below n = true) (hx : x < n) :
    (m.write x v).below n = true := by
  simp only [Memory.below, List.all_eq_true, decide_eq_true_eq] at h ⊢
  intro c hc
  rcases Memory.mem_write hc with hc | rfl
  · exact h c hc
  · exact hx

/-! ### Runs of bytes -/

theorem Memory.read_writeCells_of_not_mem (m : Memory) (cs : List Host.Cell) (x : Nat)
    (h : ∀ c ∈ cs, c.1 ≠ x) : Memory.read (m.writeCells cs) x = m.read x := by
  induction cs generalizing m with
  | nil => rfl
  | cons c cs ih =>
    obtain ⟨a, b⟩ := c
    simp only [Memory.writeCells]
    rw [ih _ fun c hc => h c (List.mem_cons_of_mem _ hc)]
    exact Memory.read_write_ne m b (Ne.symm (h (a, b) List.mem_cons_self))

theorem Memory.writeCells_wf (m : Memory) (cs : List Host.Cell) (h : m.wf = true) :
    (m.writeCells cs).wf = true := by
  induction cs generalizing m with
  | nil => exact h
  | cons c cs ih => exact ih _ (Memory.write_wf m c.1 c.2 h)

theorem Memory.writeCells_below {m : Memory} {n : Nat} (cs : List Host.Cell) (h : m.below n = true)
    (hc : ∀ c ∈ cs, c.1 < n) : (m.writeCells cs).below n = true := by
  induction cs generalizing m with
  | nil => exact h
  | cons c cs ih =>
    exact ih (Memory.write_below c.2 h (hc c List.mem_cons_self))
      fun d hd => hc d (List.mem_cons_of_mem _ hd)

theorem mem_cellsAt {lo : Nat} {bs : List Byte} {c : Host.Cell} :
    c ∈ cellsAt lo bs ↔ ∃ i, ∃ h : i < bs.length, c = (lo + i, bs[i]) := by
  induction bs generalizing lo with
  | nil => simp [cellsAt]
  | cons b bs ih =>
    simp only [cellsAt, List.mem_cons, ih, List.length_cons]
    constructor
    · rintro (rfl | ⟨i, hi, rfl⟩)
      · exact ⟨0, by omega, rfl⟩
      · exact ⟨i + 1, by omega, by simp [Nat.add_assoc, Nat.add_comm 1 i]⟩
    · rintro ⟨i, hi, rfl⟩
      cases i with
      | zero => exact .inl rfl
      | succ i => exact .inr ⟨i, by omega, by simp [Nat.add_assoc, Nat.add_comm 1 i]⟩

theorem cellsAt_addr {lo : Nat} {bs : List Byte} {c : Host.Cell} (h : c ∈ cellsAt lo bs) :
    lo ≤ c.1 ∧ c.1 < lo + bs.length := by
  obtain ⟨i, hi, rfl⟩ := mem_cellsAt.mp h
  exact ⟨Nat.le_add_right _ _, by simpa using hi⟩

/-- What memory holds after a run of bytes is written: the bytes where they were written, and what was
there everywhere else. -/
theorem Memory.read_writeCells_cellsAt (m : Memory) (lo : Nat) (bs : List Byte) (x : Nat)
    (hwf : m.wf = true) :
    Memory.read (m.writeCells (cellsAt lo bs)) x =
      if lo ≤ x ∧ x < lo + bs.length then bs.getD (x - lo) 0 else m.read x := by
  induction bs generalizing m lo with
  | nil =>
    have h : ¬(lo ≤ x ∧ x < lo + ([] : List Byte).length) := by simp
    rw [if_neg h]
    rfl
  | cons b bs ih =>
    simp only [cellsAt, Memory.writeCells]
    rw [ih _ _ (Memory.write_wf m lo b hwf)]
    by_cases hx : x = lo
    · subst hx
      have h1 : ¬(x + 1 ≤ x ∧ x < x + 1 + bs.length) := by omega
      have h2 : x ≤ x ∧ x < x + (b :: bs).length := by simp
      rw [if_neg h1, if_pos h2, Memory.read_write_self m x b hwf]
      simp
    · rw [Memory.read_write_ne m b hx]
      by_cases h : lo + 1 ≤ x ∧ x < lo + 1 + bs.length
      · have h2 : lo ≤ x ∧ x < lo + (b :: bs).length := by simp; omega
        rw [if_pos h, if_pos h2]
        obtain ⟨k, rfl⟩ : ∃ k, x = lo + 1 + k := ⟨x - (lo + 1), by omega⟩
        have e1 : lo + 1 + k - (lo + 1) = k := by omega
        have e2 : lo + 1 + k - lo = k + 1 := by omega
        rw [e1, e2, List.getD_cons_succ]
      · have h2 : ¬(lo ≤ x ∧ x < lo + (b :: bs).length) := by simp; omega
        rw [if_neg h, if_neg h2]

@[simp] theorem Memory.readBytes_length (m : Memory) (a n : Nat) : (m.readBytes a n).length = n := by
  induction n generalizing a with
  | zero => rfl
  | succ n ih => simp [Memory.readBytes, ih]

theorem Memory.readBytes_getElem? (m : Memory) (a n i : Nat) :
    (m.readBytes a n)[i]? = if i < n then some (m.read (a + i)) else none := by
  induction n generalizing a i with
  | zero => simp [Memory.readBytes]
  | succ n ih =>
    cases i with
    | zero => simp [Memory.readBytes]
    | succ i =>
      simp only [Memory.readBytes, List.getElem?_cons_succ, ih, Nat.add_lt_add_iff_right]
      rw [Nat.add_right_comm, Nat.add_assoc]

theorem Memory.readBytes_getD (m : Memory) (a n i : Nat) :
    (m.readBytes a n).getD i 0 = if i < n then m.read (a + i) else 0 := by
  rw [List.getD_eq_getElem?_getD, Memory.readBytes_getElem?]
  split <;> rfl

/-- Reading a run depends on the bytes of the run alone. -/
theorem Memory.readBytes_congr {m m' : Memory} {a n : Nat}
    (h : ∀ i, i < n → m.read (a + i) = m'.read (a + i)) : m.readBytes a n = m'.readBytes a n := by
  apply List.ext_getElem?
  intro i
  rw [Memory.readBytes_getElem?, Memory.readBytes_getElem?]
  split
  · rw [h i ‹_›]
  · rfl

theorem mem_addrsFrom {lo n a : Nat} : a ∈ addrsFrom lo n ↔ lo ≤ a ∧ a < lo + n := by
  induction n generalizing lo with
  | zero => simp [addrsFrom]
  | succ n ih => simp only [addrsFrom, List.mem_cons, ih]; omega

theorem drawCells_map_fst (n : Nat) (cs : List Host.Cell) :
    (drawCells n cs).map Prod.fst = cs.map Prod.fst := by
  induction cs generalizing n with
  | nil => rfl
  | cons c cs ih => simp [drawCells, ih]

/-- A raced write set keeps its addresses (R77). -/
theorem mem_drawCells_addr {n : Nat} {cs : List Host.Cell} {d : Host.Cell}
    (h : d ∈ drawCells n cs) : ∃ c ∈ cs, c.1 = d.1 := by
  have h1 : d.1 ∈ (drawCells n cs).map Prod.fst := List.mem_map_of_mem h
  rw [drawCells_map_fst] at h1
  obtain ⟨c, hc, he⟩ := List.mem_map.mp h1
  exact ⟨c, hc, he⟩

end Sys2Proof.Machine
end

