-- ==== Sys2Proof/Laws/Wire.lean ====
section
/-! SUPPORT. The laws of byte sequences (R13): what an integer's bytes are, and back. -/

namespace Sys2Proof.Machine

@[simp] theorem beNat_nil : beNat [] = 0 := rfl

theorem beNat_append (bs : List Byte) (b : Byte) : beNat (bs ++ [b]) = beNat bs * 256 + b.toNat := by
  simp [beNat]

@[simp] theorem bytesBe_length (n v : Nat) : (bytesBe n v).length = n := by
  induction n generalizing v with
  | zero => rfl
  | succ n ih => simp [bytesBe, ih]

@[simp] theorem bytesLe_length (n v : Nat) : (bytesLe n v).length = n := by
  induction n generalizing v with
  | zero => rfl
  | succ n ih => simp [bytesLe, ih]

/-- The integer of a value's big-endian bytes is the value truncated to them. -/
theorem beNat_bytesBe (n v : Nat) : beNat (bytesBe n v) = v % 256 ^ n := by
  induction n generalizing v with
  | zero => simp [bytesBe, Nat.mod_one]
  | succ n ih =>
    have e : 256 ^ (n + 1) = 256 * 256 ^ n := by rw [Nat.pow_succ, Nat.mul_comm]
    rw [bytesBe, beNat_append, ih, BitVec.toNat_ofNat, e, Nat.mod_mul]
    omega

theorem leNat_bytesLe (n v : Nat) : leNat (bytesLe n v) = v % 256 ^ n := by
  induction n generalizing v with
  | zero => simp [bytesLe, leNat, Nat.mod_one]
  | succ n ih =>
    have e : 256 ^ (n + 1) = 256 * 256 ^ n := by rw [Nat.pow_succ, Nat.mul_comm]
    rw [bytesLe, leNat, ih, BitVec.toNat_ofNat, e, Nat.mod_mul]

/-- Byte `k` of a value's big-endian bytes. -/
theorem bytesBe_getD (n v k : Nat) (h : k < n) :
    ((bytesBe n v).getD k 0).toNat = v / 256 ^ (n - 1 - k) % 256 := by
  induction n generalizing v with
  | zero => omega
  | succ n ih =>
    rw [bytesBe, List.getD_eq_getElem?_getD]
    by_cases hk : k < n
    · rw [List.getElem?_append_left (by simpa using hk), ← List.getD_eq_getElem?_getD,
        ih _ hk, Nat.div_div_eq_div_mul]
      have e : n + 1 - 1 - k = (n - 1 - k) + 1 := by omega
      rw [e, Nat.pow_succ, Nat.mul_comm]
    · have e : k = n := by omega
      subst e
      rw [List.getElem?_append_right (by simp)]
      simp

/-- Byte `k` of a value's little-endian bytes. -/
theorem bytesLe_getD (n v k : Nat) (h : k < n) :
    ((bytesLe n v).getD k 0).toNat = v / 256 ^ k % 256 := by
  induction n generalizing v k with
  | zero => omega
  | succ n ih =>
    cases k with
    | zero => simp [bytesLe]
    | succ k =>
      rw [bytesLe, List.getD_cons_succ, ih _ _ (by omega), Nat.div_div_eq_div_mul, Nat.pow_succ,
        Nat.mul_comm]

theorem beNat_lt (bs : List Byte) : beNat bs < 256 ^ bs.length := by
  induction bs using List.reverseRecOn with
  | nil => simp
  | append_singleton bs b ih =>
    rw [beNat_append, List.length_append, List.length_singleton, Nat.pow_succ]
    have := b.isLt
    omega

theorem leNat_lt (bs : List Byte) : leNat bs < 256 ^ bs.length := by
  induction bs with
  | nil => simp [leNat]
  | cons b bs ih =>
    rw [leNat, List.length_cons, Nat.pow_succ]
    have := b.isLt
    omega

/-- Byte `k` of a big-endian integer. -/
theorem beNat_byte (bs : List Byte) (k : Nat) (h : k < bs.length) :
    beNat bs / 256 ^ (bs.length - 1 - k) % 256 = (bs.getD k 0).toNat := by
  induction bs using List.reverseRecOn with
  | nil => simp at h
  | append_singleton bs b ih =>
    have hb := b.isLt
    rw [beNat_append, List.length_append, List.length_singleton, List.getD_eq_getElem?_getD]
    by_cases hk : k < bs.length
    · rw [List.getElem?_append_left hk, ← List.getD_eq_getElem?_getD, ← ih hk]
      have e : bs.length + 1 - 1 - k = (bs.length - 1 - k) + 1 := by omega
      rw [e, Nat.pow_succ, Nat.mul_comm (256 ^ _) 256, ← Nat.div_div_eq_div_mul]
      have e2 : (beNat bs * 256 + b.toNat) / 256 = beNat bs := by omega
      rw [e2]
    · have e : k = bs.length := by simp at h; omega
      subst e
      rw [List.getElem?_append_right (Nat.le_refl _)]
      simp
      omega

/-- Byte `k` of a little-endian integer. -/
theorem leNat_byte (bs : List Byte) (k : Nat) (h : k < bs.length) :
    leNat bs / 256 ^ k % 256 = (bs.getD k 0).toNat := by
  induction bs generalizing k with
  | nil => simp at h
  | cons b bs ih =>
    have hb := b.isLt
    cases k with
    | zero => simp [leNat]; omega
    | succ k =>
      rw [List.getD_cons_succ, ← ih k (by simpa using h), leNat, Nat.pow_succ,
        Nat.mul_comm (256 ^ k) 256, ← Nat.div_div_eq_div_mul]
      have e2 : (b.toNat + 256 * leNat bs) / 256 = leNat bs := by omega
      rw [e2]

/-- Joining a word and a byte, as integers (R11). -/
theorem toNat_append_byte {n : Nat} (x : BitVec n) (b : Byte) :
    (x ++ b).toNat = x.toNat * 256 + b.toNat := by
  rw [BitVec.toNat_append, ← Nat.shiftLeft_add_eq_or_of_lt b.isLt, Nat.shiftLeft_eq]

/-- Joining a word and a nibble, as integers (R11). -/
theorem toNat_append_nibble {n : Nat} (x : BitVec n) (b : BitVec 4) :
    (x ++ b).toNat = x.toNat * 16 + b.toNat := by
  rw [BitVec.toNat_append, ← Nat.shiftLeft_add_eq_or_of_lt b.isLt, Nat.shiftLeft_eq]

@[simp] theorem ip6ToBytes_length (h : Ip6Header) : (ip6ToBytes h).length = 40 := by
  simp [ip6ToBytes]

/-- A TCP header with a legal options length is written as `20 + options_length` bytes (R186). -/
theorem tcpToBytes_length (mode : RsvdEncode) (h : TcpHeader) (hle : h.optionsLength.toNat ≤ 40) :
    (tcpToBytes mode h).length = tcpLength h := by
  simp [tcpToBytes, tcpLength, hle]
  omega

end Sys2Proof.Machine
end

