-- ==== Sys2Proof/Laws/Codec.lean ====
section
/-! SUPPORT. The two wire formats and their inverses: the fields of a byte sequence as numbers (R92,
R94), and that reading back the bytes of a header gives the header. -/

namespace Sys2Proof.Machine

theorem toNat_extract {n : Nat} (x : BitVec n) (lo w : Nat) :
    (x.extractLsb' lo w).toNat = x.toNat / 2 ^ lo % 2 ^ w := by
  simp [BitVec.extractLsb'_toNat, Nat.shiftRight_eq_div_pow]

theorem toNat_append4 (a b c d : Byte) :
    (a ++ b ++ c ++ d : BitVec 32).toNat =
      a.toNat * 2 ^ 24 + b.toNat * 2 ^ 16 + c.toNat * 256 + d.toNat := by
  show (((a ++ b) ++ c) ++ d).toNat = _
  simp only [toNat_append_byte]
  omega

theorem toNat_append2 (a b : Byte) : (a ++ b : BitVec 16).toNat = a.toNat * 256 + b.toNat :=
  toNat_append_byte _ _

/-- The four bytes of a 32-bit field, most significant first, make the field. -/
theorem append_extract4 (x : BitVec 32) :
    (x.extractLsb' 24 8 ++ x.extractLsb' 16 8 ++ x.extractLsb' 8 8 ++ x.extractLsb' 0 8 : BitVec 32) = x := by
  apply BitVec.eq_of_toNat_eq
  rw [toNat_append4]
  simp only [toNat_extract]
  have := x.isLt
  omega

/-- The two bytes of a 16-bit field, most significant first, make the field. -/
theorem append_extract2 (x : BitVec 16) :
    (x.extractLsb' 8 8 ++ x.extractLsb' 0 8 : BitVec 16) = x := by
  apply BitVec.eq_of_toNat_eq
  rw [toNat_append2]
  simp only [toNat_extract]
  have := x.isLt
  omega

/-- The IPv6 fields of a byte sequence, by the arithmetic of R92. -/
theorem ip6OfBytes_fields (bs : List Byte) :
    let h := ip6OfBytes bs
    let b := fun i => (byteAt bs i).toNat
    h.version.toNat = b 0 / 16 ∧ h.trafficClass.toNat = b 0 % 16 * 16 + b 1 / 16 ∧
      h.flowLabel.toNat = b 1 % 16 * 65536 + b 2 * 256 + b 3 ∧
      h.payloadLength.toNat = b 4 * 256 + b 5 ∧ h.nextHeader.toNat = b 6 ∧ h.hopLimit.toNat = b 7 ∧
      ∀ i : Fin 16, h.src[i] = byteAt bs (8 + i.val) ∧ h.dst[i] = byteAt bs (24 + i.val) := by
  have h0 := (byteAt bs 0).isLt
  have h1 := (byteAt bs 1).isLt
  refine ⟨?_, ?_, ?_, toNat_append2 _ _, rfl, rfl, ?_⟩
  · simp only [ip6OfBytes, toNat_extract]; omega
  · simp only [ip6OfBytes, toNat_append_nibble, toNat_extract]; omega
  · show ((((byteAt bs 1).extractLsb' 0 4) ++ byteAt bs 2) ++ byteAt bs 3).toNat = _
    simp only [toNat_append_byte, toNat_extract]; omega
  · intro i; simp [ip6OfBytes]

/-- The bytes of an IPv6 header decode to the header (R91, R92). -/
theorem ip6OfBytes_ip6ToBytes (h : Ip6Header) : ip6OfBytes (ip6ToBytes h) = h := by
  have hs : ∀ i : Nat, (hi : i < 16) → (h.src.toList ++ h.dst.toList)[i]? = some h.src[i] := by
    intro i hi
    rw [List.getElem?_append_left (by simpa using hi)]
    simp [hi]
  have hd : ∀ i : Nat, (hi : i < 16) → (h.src.toList ++ h.dst.toList)[16 + i]? = some h.dst[i] := by
    intro i hi
    rw [List.getElem?_append_right (by simp)]
    simp [hi]
  rcases h with ⟨v, tc, fl, pl, nh, hl, src, dst⟩
  simp only [ip6OfBytes, ip6ToBytes, Ip6Header.mk.injEq, byteAt, List.append_assoc, List.cons_append,
    List.getD_cons_zero, List.getD_cons_succ]
  have hv := v.isLt
  have htc := tc.isLt
  have hfl := fl.isLt
  refine ⟨?_, ?_, ?_, append_extract2 _, trivial, trivial, ?_, ?_⟩
  · apply BitVec.eq_of_toNat_eq
    simp only [toNat_extract, toNat_append_nibble]; omega
  · apply BitVec.eq_of_toNat_eq
    simp only [toNat_extract, toNat_append_nibble]; omega
  · apply BitVec.eq_of_toNat_eq
    show ((_ ++ _) ++ _ : BitVec 20).toNat = _
    simp only [toNat_extract, toNat_append_byte, toNat_append_nibble]; omega
  · apply Vector.ext
    intro i hi
    rw [Vector.getElem_ofFn, List.getD_eq_getElem?_getD, Nat.add_comm 8]
    simp only [List.getElem?_cons_succ, List.nil_append]
    simpa using congrArg (·.getD 0) (hs i hi)
  · apply Vector.ext
    intro i hi
    rw [Vector.getElem_ofFn, List.getD_eq_getElem?_getD, show 24 + i = (16 + i) + 8 by omega]
    simp only [List.getElem?_cons_succ, List.nil_append]
    simpa using congrArg (·.getD 0) (hd i hi)

/-- The `data_offset` nibble that TCP encode writes is `(20 + options_length) / 4` (R186). -/
theorem tcpOffsetNibble_tcpToBytes (mode : RsvdEncode) (h : TcpHeader)
    (hle : h.optionsLength.toNat ≤ 40) :
    (tcpOffsetNibble (tcpToBytes mode h)).toNat = (20 + h.optionsLength.toNat) / 4 := by
  simp only [tcpOffsetNibble, byteAt, tcpToBytes, List.cons_append, List.getD_cons_zero,
    List.getD_cons_succ, toNat_extract, toNat_append_nibble, BitVec.toNat_ofNat, tcpLength]
  have := (rsvdOut mode h).isLt
  omega

/-- The bytes of a TCP header with a legal options length decode to the header, its option bytes past
that length read as 0 (R94, R181, R186). -/
theorem tcpOfBytes_tcpToBytes (mode : RsvdEncode) (h : TcpHeader)
    (h4 : h.optionsLength.toNat % 4 = 0) (hle : h.optionsLength.toNat ≤ 40)
    (hz : mode = .zero → h.reserved = 0) :
    tcpOfBytes (tcpToBytes mode h) = { h with opt := (tcpOfBytes (tcpToBytes mode h)).opt } ∧
      ∀ i : Fin 40, (tcpOfBytes (tcpToBytes mode h)).opt[i] =
        if i.val < h.optionsLength.toNat then h.opt[i] else 0 := by
  have hr : rsvdOut mode h = h.reserved := by
    cases mode
    · rfl
    · exact (hz rfl).symm
  have hnib := tcpOffsetNibble_tcpToBytes mode h hle
  constructor
  · rw [tcpOfBytes]
    simp only [TcpHeader.mk.injEq, and_true, hnib]
    refine ⟨append_extract2 _, append_extract2 _, append_extract4 _, append_extract4 _, ?_, rfl,
      append_extract2 _, append_extract2 _, append_extract2 _, ?_⟩
    · apply BitVec.eq_of_toNat_eq
      simp only [byteAt, tcpToBytes, List.cons_append, List.getD_cons_zero, List.getD_cons_succ,
        toNat_extract, toNat_append_nibble, hr]
      have := h.reserved.isLt
      omega
    · apply BitVec.eq_of_toNat_eq
      rw [BitVec.toNat_ofNat]
      omega
  · intro i
    simp only [tcpOfBytes, hnib, Fin.getElem_fin, Vector.getElem_ofFn]
    by_cases hi : i.val < h.optionsLength.toNat
    · rw [if_pos (by omega), if_pos hi]
      unfold byteAt tcpToBytes
      rw [Nat.add_comm 20, List.getD_eq_getElem?_getD]
      simp only [List.cons_append, List.getElem?_cons_succ, List.nil_append]
      rw [List.getElem?_take_of_lt hi]
      have : i.val < h.opt.toList.length := by simp
      rw [List.getElem?_eq_getElem this]
      simp
    · rw [if_neg (by omega), if_neg hi]

/-- The first bytes of memory from the start of a command, as the wire sees them. -/
theorem byteAt_readBytes (m : Memory) {a n i : Nat} (hi : i < n) :
    byteAt (m.readBytes a n) i = m.read (a + i) := by
  unfold byteAt
  rw [Memory.readBytes_getD, if_pos hi]

/-- The `data_offset` nibble stands in byte 12 (R93). -/
theorem tcpOffsetNibble_readBytes (m : Memory) {a n : Nat} (hn : 12 < n) :
    (tcpOffsetNibble (m.readBytes a n)).toNat = (m.read (a + 12)).toNat / 16 := by
  unfold tcpOffsetNibble
  rw [byteAt_readBytes m hn, toNat_extract]
  have := (m.read (a + 12)).isLt
  omega

/-! ### Address views -/

theorem ViewWidth.fits {w : ViewWidth} {k : Nat} (h : k < 16 / w.bytes) :
    w.bytes * k + w.bytes ≤ 16 ∧ k < w.count := by
  cases w <;> simp [ViewWidth.bytes, ViewWidth.count] at * <;> omega

theorem elemBytes_getElem? (a : Vector Byte 16) (w : ViewWidth) (k j : Nat) (hj : j < w.bytes)
    (hk : w.bytes * k + j < 16) : (elemBytes a w k)[j]? = some a[w.bytes * k + j] := by
  unfold elemBytes
  rw [List.getElem?_take_of_lt hj, List.getElem?_drop]
  simp [hk]

theorem elemBytes_length (a : Vector Byte 16) (w : ViewWidth) (k : Nat)
    (h : w.bytes * k + w.bytes ≤ 16) : (elemBytes a w k).length = w.bytes := by
  unfold elemBytes
  simp
  omega

theorem elemSequence_length (o : ViewOrder) (w : ViewWidth) (v : Word) :
    (elemSequence o w v).length = w.bytes := by
  cases o
  · exact bytesBe_length _ _
  · exact bytesLe_length _ _

/-- The element just written holds the bytes written (R224). -/
theorem elemBytes_setElem_self (a : Vector Byte 16) (w : ViewWidth) (k : Nat) (c : List Byte)
    (hc : c.length = w.bytes) (h : w.bytes * k + w.bytes ≤ 16) :
    elemBytes (setElem a w k c) w k = c := by
  apply List.ext_getElem?
  intro j
  by_cases hj : j < w.bytes
  · have hjc : j < c.length := by omega
    rw [elemBytes_getElem? _ _ _ _ hj (by omega), List.getElem?_eq_getElem hjc]
    unfold setElem
    rw [Vector.getElem_ofFn, if_pos (by simp only; omega)]
    unfold byteAt
    simp only
    rw [Nat.add_sub_cancel_left, List.getD_eq_getElem?_getD, List.getElem?_eq_getElem hjc]
    rfl
  · rw [List.getElem?_eq_none (by rw [elemBytes_length _ _ _ h]; omega),
      List.getElem?_eq_none (by omega)]

/-- An element that shares no byte with the one written is as before (R225). -/
theorem elemBytes_setElem_other (a : Vector Byte 16) (w w2 : ViewWidth) (k k2 : Nat) (c : List Byte)
    (h : w2.bytes * k2 + w2.bytes ≤ 16)
    (hd : w2.bytes * k2 + w2.bytes ≤ w.bytes * k ∨ w.bytes * k + w.bytes ≤ w2.bytes * k2) :
    elemBytes (setElem a w k c) w2 k2 = elemBytes a w2 k2 := by
  apply List.ext_getElem?
  intro j
  by_cases hj : j < w2.bytes
  · rw [elemBytes_getElem? _ _ _ _ hj (by omega), elemBytes_getElem? _ _ _ _ hj (by omega)]
    unfold setElem
    rw [Vector.getElem_ofFn, if_neg (by simp only; omega)]
    rfl
  · rw [List.getElem?_eq_none (by rw [elemBytes_length _ _ _ h]; omega),
      List.getElem?_eq_none (by rw [elemBytes_length _ _ _ h]; omega)]

@[simp] theorem Ip6Header.addr_setAddr_self (h : Ip6Header) (r : AddrReg) (a : Vector Byte 16) :
    (h.setAddr r a).addr r = a := by cases r <;> rfl

end Sys2Proof.Machine
end

