-- ==== Sys2Proof/Laws/Encoding.lean ====
section
/-! SUPPORT. The four fields of a command word (R100), and the numbers of the opcode map's rows. -/

namespace Sys2Proof

theorem wordOpc_commandWord (opc sel idx wid : Byte) :
    wordOpc (commandWord opc sel idx wid) = opc := by
  apply BitVec.eq_of_getLsbD_eq
  intro i hi
  simp only [wordOpc, commandWord, BitVec.getLsbD_append, BitVec.getLsbD_extractLsb']
  interval_cases i <;> rfl

theorem wordSel_commandWord (opc sel idx wid : Byte) :
    wordSel (commandWord opc sel idx wid) = sel := by
  apply BitVec.eq_of_getLsbD_eq
  intro i hi
  simp only [wordSel, commandWord, BitVec.getLsbD_append, BitVec.getLsbD_extractLsb']
  interval_cases i <;> rfl

theorem wordIdx_commandWord (opc sel idx wid : Byte) :
    wordIdx (commandWord opc sel idx wid) = idx := by
  apply BitVec.eq_of_getLsbD_eq
  intro i hi
  simp only [wordIdx, commandWord, BitVec.getLsbD_append, BitVec.getLsbD_extractLsb']
  interval_cases i <;> rfl

theorem wordWid_commandWord (opc sel idx wid : Byte) :
    wordWid (commandWord opc sel idx wid) = wid := by
  apply BitVec.eq_of_getLsbD_eq
  intro i hi
  simp only [wordWid, commandWord, BitVec.getLsbD_append, BitVec.getLsbD_extractLsb']
  interval_cases i <;> rfl

theorem Opcode.ofCode?_code (op : Opcode) : Opcode.ofCode? op.code = some op := by
  cases op <;> decide

end Sys2Proof
end

