-- ==== Sys2Proof/Laws/State.lean ====
section
/-! SUPPORT. One lemma per field per update of the state, each true by definition. -/

namespace Sys2Proof.Machine

/-! ### `State.raise` -/

@[simp] theorem State.raise_params (s : State) (opc : Byte) (c : Cause) :
    (s.raise opc c).params = s.params := rfl

@[simp] theorem State.raise_map (s : State) (opc : Byte) (c : Cause) :
    (s.raise opc c).map = s.map := rfl

@[simp] theorem State.raise_cmd (s : State) (opc : Byte) (c : Cause) :
    (s.raise opc c).cmd = s.cmd := rfl

@[simp] theorem State.raise_base (s : State) (opc : Byte) (c : Cause) :
    (s.raise opc c).base = s.base := rfl

@[simp] theorem State.raise_len (s : State) (opc : Byte) (c : Cause) :
    (s.raise opc c).len = s.len := rfl

@[simp] theorem State.raise_off (s : State) (opc : Byte) (c : Cause) :
    (s.raise opc c).off = s.off := rfl

@[simp] theorem State.raise_val (s : State) (opc : Byte) (c : Cause) :
    (s.raise opc c).val = s.val := rfl

@[simp] theorem State.raise_res (s : State) (opc : Byte) (c : Cause) :
    (s.raise opc c).res = s.res := rfl

@[simp] theorem State.raise_status (s : State) (opc : Byte) (c : Cause) :
    (s.raise opc c).status = faultedCode := rfl

@[simp] theorem State.raise_fault (s : State) (opc : Byte) (c : Cause) :
    (s.raise opc c).fault = faultWord opc c := rfl

@[simp] theorem State.raise_ip6 (s : State) (opc : Byte) (c : Cause) :
    (s.raise opc c).ip6 = s.ip6 := rfl

@[simp] theorem State.raise_tcp (s : State) (opc : Byte) (c : Cause) :
    (s.raise opc c).tcp = s.tcp := rfl

@[simp] theorem State.raise_pending (s : State) (opc : Byte) (c : Cause) :
    (s.raise opc c).pending = s.pending := rfl

@[simp] theorem State.raise_mem (s : State) (opc : Byte) (c : Cause) :
    (s.raise opc c).mem = s.mem := rfl

@[simp] theorem State.raise_todo (s : State) (opc : Byte) (c : Cause) :
    (s.raise opc c).todo = s.todo := rfl

@[simp] theorem State.raise_pos (s : State) (opc : Byte) (c : Cause) :
    (s.raise opc c).pos = s.pos := rfl

@[simp] theorem State.raise_portData (s : State) (opc : Byte) (c : Cause) :
    (s.raise opc c).portData = s.portData := rfl

@[simp] theorem State.raise_agentData (s : State) (opc : Byte) (c : Cause) :
    (s.raise opc c).agentData = s.agentData := rfl

@[simp] theorem State.raise_draws (s : State) (opc : Byte) (c : Cause) :
    (s.raise opc c).draws = s.draws := rfl

/-! ### `State.finish` -/

@[simp] theorem State.finish_params (s : State) (st : Status) :
    (s.finish st).params = s.params := rfl

@[simp] theorem State.finish_map (s : State) (st : Status) : (s.finish st).map = s.map := rfl

@[simp] theorem State.finish_cmd (s : State) (st : Status) : (s.finish st).cmd = s.cmd := rfl

@[simp] theorem State.finish_base (s : State) (st : Status) : (s.finish st).base = s.base := rfl

@[simp] theorem State.finish_len (s : State) (st : Status) : (s.finish st).len = s.len := rfl

@[simp] theorem State.finish_off (s : State) (st : Status) : (s.finish st).off = s.off := rfl

@[simp] theorem State.finish_val (s : State) (st : Status) : (s.finish st).val = s.val := rfl

@[simp] theorem State.finish_res (s : State) (st : Status) : (s.finish st).res = s.res := rfl

@[simp] theorem State.finish_status (s : State) (st : Status) :
    (s.finish st).status = st.code := rfl

@[simp] theorem State.finish_fault (s : State) (st : Status) : (s.finish st).fault = s.fault := rfl

@[simp] theorem State.finish_ip6 (s : State) (st : Status) : (s.finish st).ip6 = s.ip6 := rfl

@[simp] theorem State.finish_tcp (s : State) (st : Status) : (s.finish st).tcp = s.tcp := rfl

@[simp] theorem State.finish_pending (s : State) (st : Status) :
    (s.finish st).pending = s.pending := rfl

@[simp] theorem State.finish_mem (s : State) (st : Status) : (s.finish st).mem = s.mem := rfl

@[simp] theorem State.finish_todo (s : State) (st : Status) : (s.finish st).todo = s.todo := rfl

@[simp] theorem State.finish_pos (s : State) (st : Status) : (s.finish st).pos = s.pos := rfl

@[simp] theorem State.finish_portData (s : State) (st : Status) :
    (s.finish st).portData = s.portData := rfl

@[simp] theorem State.finish_agentData (s : State) (st : Status) :
    (s.finish st).agentData = s.agentData := rfl

@[simp] theorem State.finish_draws (s : State) (st : Status) : (s.finish st).draws = s.draws := rfl

/-! ### `State.store` -/

@[simp] theorem State.store_params (s : State) (cs : List Host.Cell) :
    (s.store cs).params = s.params := rfl

@[simp] theorem State.store_map (s : State) (cs : List Host.Cell) : (s.store cs).map = s.map := rfl

@[simp] theorem State.store_cmd (s : State) (cs : List Host.Cell) : (s.store cs).cmd = s.cmd := rfl

@[simp] theorem State.store_base (s : State) (cs : List Host.Cell) :
    (s.store cs).base = s.base := rfl

@[simp] theorem State.store_len (s : State) (cs : List Host.Cell) : (s.store cs).len = s.len := rfl

@[simp] theorem State.store_off (s : State) (cs : List Host.Cell) : (s.store cs).off = s.off := rfl

@[simp] theorem State.store_val (s : State) (cs : List Host.Cell) : (s.store cs).val = s.val := rfl

@[simp] theorem State.store_res (s : State) (cs : List Host.Cell) : (s.store cs).res = s.res := rfl

@[simp] theorem State.store_status (s : State) (cs : List Host.Cell) :
    (s.store cs).status = s.status := rfl

@[simp] theorem State.store_fault (s : State) (cs : List Host.Cell) :
    (s.store cs).fault = s.fault := rfl

@[simp] theorem State.store_ip6 (s : State) (cs : List Host.Cell) :
    (s.store cs).ip6 = s.ip6.touch cs := rfl

@[simp] theorem State.store_tcp (s : State) (cs : List Host.Cell) :
    (s.store cs).tcp = s.tcp.touch cs := rfl

@[simp] theorem State.store_pending (s : State) (cs : List Host.Cell) :
    (s.store cs).pending = s.pending := rfl

@[simp] theorem State.store_mem (s : State) (cs : List Host.Cell) :
    (s.store cs).mem = s.mem.writeCells cs := rfl

@[simp] theorem State.store_todo (s : State) (cs : List Host.Cell) :
    (s.store cs).todo = s.todo := rfl

@[simp] theorem State.store_pos (s : State) (cs : List Host.Cell) : (s.store cs).pos = s.pos := rfl

@[simp] theorem State.store_portData (s : State) (cs : List Host.Cell) :
    (s.store cs).portData = s.portData := rfl

@[simp] theorem State.store_agentData (s : State) (cs : List Host.Cell) :
    (s.store cs).agentData = s.agentData := rfl

@[simp] theorem State.store_draws (s : State) (cs : List Host.Cell) :
    (s.store cs).draws = s.draws := rfl

/-! ### `State.writeRegs` -/

@[simp] theorem State.writeRegs_params (s : State) (p : Pending) :
    (s.writeRegs p).params = s.params := rfl

@[simp] theorem State.writeRegs_map (s : State) (p : Pending) : (s.writeRegs p).map = s.map := rfl

@[simp] theorem State.writeRegs_cmd (s : State) (p : Pending) : (s.writeRegs p).cmd = s.cmd := rfl

@[simp] theorem State.writeRegs_base (s : State) (p : Pending) :
    (s.writeRegs p).base = s.base := rfl

@[simp] theorem State.writeRegs_len (s : State) (p : Pending) : (s.writeRegs p).len = s.len := rfl

@[simp] theorem State.writeRegs_off (s : State) (p : Pending) : (s.writeRegs p).off = s.off := rfl

@[simp] theorem State.writeRegs_val (s : State) (p : Pending) : (s.writeRegs p).val = s.val := rfl

@[simp] theorem State.writeRegs_res (s : State) (p : Pending) :
    (s.writeRegs p).res = p.res.getD s.res := rfl

@[simp] theorem State.writeRegs_status (s : State) (p : Pending) :
    (s.writeRegs p).status = s.status := rfl

@[simp] theorem State.writeRegs_fault (s : State) (p : Pending) :
    (s.writeRegs p).fault = s.fault := rfl

@[simp] theorem State.writeRegs_ip6 (s : State) (p : Pending) :
    (s.writeRegs p).ip6 = p.ip6.getD s.ip6 := rfl

@[simp] theorem State.writeRegs_tcp (s : State) (p : Pending) :
    (s.writeRegs p).tcp = p.tcp.getD s.tcp := rfl

@[simp] theorem State.writeRegs_pending (s : State) (p : Pending) :
    (s.writeRegs p).pending = s.pending := rfl

@[simp] theorem State.writeRegs_mem (s : State) (p : Pending) : (s.writeRegs p).mem = s.mem := rfl

@[simp] theorem State.writeRegs_todo (s : State) (p : Pending) :
    (s.writeRegs p).todo = s.todo := rfl

@[simp] theorem State.writeRegs_pos (s : State) (p : Pending) : (s.writeRegs p).pos = s.pos := rfl

@[simp] theorem State.writeRegs_portData (s : State) (p : Pending) :
    (s.writeRegs p).portData = s.portData := rfl

@[simp] theorem State.writeRegs_agentData (s : State) (p : Pending) :
    (s.writeRegs p).agentData = s.agentData := rfl

@[simp] theorem State.writeRegs_draws (s : State) (p : Pending) :
    (s.writeRegs p).draws = s.draws := rfl

/-! ### `State.agentWrite` -/

@[simp] theorem State.agentWrite_params (s : State) (a : Nat) (b : Byte) :
    (s.agentWrite a b).params = s.params := rfl

@[simp] theorem State.agentWrite_map (s : State) (a : Nat) (b : Byte) :
    (s.agentWrite a b).map = s.map := rfl

@[simp] theorem State.agentWrite_cmd (s : State) (a : Nat) (b : Byte) :
    (s.agentWrite a b).cmd = s.cmd := rfl

@[simp] theorem State.agentWrite_base (s : State) (a : Nat) (b : Byte) :
    (s.agentWrite a b).base = s.base := rfl

@[simp] theorem State.agentWrite_len (s : State) (a : Nat) (b : Byte) :
    (s.agentWrite a b).len = s.len := rfl

@[simp] theorem State.agentWrite_off (s : State) (a : Nat) (b : Byte) :
    (s.agentWrite a b).off = s.off := rfl

@[simp] theorem State.agentWrite_val (s : State) (a : Nat) (b : Byte) :
    (s.agentWrite a b).val = s.val := rfl

@[simp] theorem State.agentWrite_res (s : State) (a : Nat) (b : Byte) :
    (s.agentWrite a b).res = s.res := rfl

@[simp] theorem State.agentWrite_status (s : State) (a : Nat) (b : Byte) :
    (s.agentWrite a b).status = s.status := rfl

@[simp] theorem State.agentWrite_fault (s : State) (a : Nat) (b : Byte) :
    (s.agentWrite a b).fault = s.fault := rfl

@[simp] theorem State.agentWrite_ip6 (s : State) (a : Nat) (b : Byte) :
    (s.agentWrite a b).ip6 = s.ip6.touch [(a, b)] := rfl

@[simp] theorem State.agentWrite_tcp (s : State) (a : Nat) (b : Byte) :
    (s.agentWrite a b).tcp = s.tcp.touch [(a, b)] := rfl

@[simp] theorem State.agentWrite_pending (s : State) (a : Nat) (b : Byte) :
    (s.agentWrite a b).pending = s.pending.map fun p => p.hitBy a := rfl

@[simp] theorem State.agentWrite_mem (s : State) (a : Nat) (b : Byte) :
    (s.agentWrite a b).mem = s.mem.writeCells [(a, b)] := rfl

@[simp] theorem State.agentWrite_todo (s : State) (a : Nat) (b : Byte) :
    (s.agentWrite a b).todo = s.todo := rfl

@[simp] theorem State.agentWrite_pos (s : State) (a : Nat) (b : Byte) :
    (s.agentWrite a b).pos = s.pos := rfl

@[simp] theorem State.agentWrite_portData (s : State) (a : Nat) (b : Byte) :
    (s.agentWrite a b).portData = s.portData := rfl

@[simp] theorem State.agentWrite_agentData (s : State) (a : Nat) (b : Byte) :
    (s.agentWrite a b).agentData = s.agentData := rfl

@[simp] theorem State.agentWrite_draws (s : State) (a : Nat) (b : Byte) :
    (s.agentWrite a b).draws = s.draws := rfl

/-! ### `State.raceFault` -/

@[simp] theorem State.raceFault_params (s : State) (p : Pending) :
    (s.raceFault p).params = s.params := rfl

@[simp] theorem State.raceFault_map (s : State) (p : Pending) : (s.raceFault p).map = s.map := rfl

@[simp] theorem State.raceFault_cmd (s : State) (p : Pending) : (s.raceFault p).cmd = s.cmd := rfl

@[simp] theorem State.raceFault_base (s : State) (p : Pending) :
    (s.raceFault p).base = s.base := rfl

@[simp] theorem State.raceFault_len (s : State) (p : Pending) : (s.raceFault p).len = s.len := rfl

@[simp] theorem State.raceFault_off (s : State) (p : Pending) : (s.raceFault p).off = s.off := rfl

@[simp] theorem State.raceFault_val (s : State) (p : Pending) : (s.raceFault p).val = s.val := rfl

@[simp] theorem State.raceFault_res (s : State) (p : Pending) : (s.raceFault p).res = s.res := rfl

@[simp] theorem State.raceFault_status (s : State) (p : Pending) :
    (s.raceFault p).status = faultedCode := rfl

@[simp] theorem State.raceFault_fault (s : State) (p : Pending) :
    (s.raceFault p).fault = faultWord p.opc .race := rfl

@[simp] theorem State.raceFault_ip6 (s : State) (p : Pending) :
    (s.raceFault p).ip6 = s.ip6 := rfl

@[simp] theorem State.raceFault_tcp (s : State) (p : Pending) :
    (s.raceFault p).tcp = s.tcp := rfl

@[simp] theorem State.raceFault_pending (s : State) (p : Pending) :
    (s.raceFault p).pending = s.pending := rfl

@[simp] theorem State.raceFault_mem (s : State) (p : Pending) :
    (s.raceFault p).mem = s.mem.writeCells (drawCells s.draws p.writes) := rfl

@[simp] theorem State.raceFault_todo (s : State) (p : Pending) :
    (s.raceFault p).todo = s.todo := rfl

@[simp] theorem State.raceFault_pos (s : State) (p : Pending) : (s.raceFault p).pos = s.pos := rfl

@[simp] theorem State.raceFault_portData (s : State) (p : Pending) :
    (s.raceFault p).portData = s.portData := rfl

@[simp] theorem State.raceFault_agentData (s : State) (p : Pending) :
    (s.raceFault p).agentData = s.agentData := rfl

@[simp] theorem State.raceFault_draws (s : State) (p : Pending) :
    (s.raceFault p).draws = s.draws + p.writes.length := rfl

/-! ### `State.portRead` -/

@[simp] theorem State.portRead_params (s : State) (r : PortReg) :
    (s.portRead r).params = s.params := rfl

@[simp] theorem State.portRead_map (s : State) (r : PortReg) : (s.portRead r).map = s.map := rfl

@[simp] theorem State.portRead_cmd (s : State) (r : PortReg) : (s.portRead r).cmd = s.cmd := rfl

@[simp] theorem State.portRead_base (s : State) (r : PortReg) : (s.portRead r).base = s.base := rfl

@[simp] theorem State.portRead_len (s : State) (r : PortReg) : (s.portRead r).len = s.len := rfl

@[simp] theorem State.portRead_off (s : State) (r : PortReg) : (s.portRead r).off = s.off := rfl

@[simp] theorem State.portRead_val (s : State) (r : PortReg) : (s.portRead r).val = s.val := rfl

@[simp] theorem State.portRead_res (s : State) (r : PortReg) : (s.portRead r).res = s.res := rfl

@[simp] theorem State.portRead_status (s : State) (r : PortReg) :
    (s.portRead r).status = s.status := rfl

@[simp] theorem State.portRead_fault (s : State) (r : PortReg) :
    (s.portRead r).fault = s.fault := rfl

@[simp] theorem State.portRead_ip6 (s : State) (r : PortReg) : (s.portRead r).ip6 = s.ip6 := rfl

@[simp] theorem State.portRead_tcp (s : State) (r : PortReg) : (s.portRead r).tcp = s.tcp := rfl

@[simp] theorem State.portRead_pending (s : State) (r : PortReg) :
    (s.portRead r).pending = s.pending := rfl

@[simp] theorem State.portRead_mem (s : State) (r : PortReg) : (s.portRead r).mem = s.mem := rfl

@[simp] theorem State.portRead_todo (s : State) (r : PortReg) : (s.portRead r).todo = s.todo := rfl

@[simp] theorem State.portRead_pos (s : State) (r : PortReg) : (s.portRead r).pos = s.pos := rfl

@[simp] theorem State.portRead_portData (s : State) (r : PortReg) :
    (s.portRead r).portData = s.portValue r := rfl

@[simp] theorem State.portRead_agentData (s : State) (r : PortReg) :
    (s.portRead r).agentData = s.agentData := rfl

@[simp] theorem State.portRead_draws (s : State) (r : PortReg) :
    (s.portRead r).draws = s.draws := rfl

/-! ### `State.resetBlock` -/

@[simp] theorem State.resetBlock_params (s : State) : s.resetBlock.params = s.params := rfl

@[simp] theorem State.resetBlock_map (s : State) : s.resetBlock.map = s.map := rfl

@[simp] theorem State.resetBlock_cmd (s : State) : s.resetBlock.cmd = 0 := rfl

@[simp] theorem State.resetBlock_base (s : State) : s.resetBlock.base = 0 := rfl

@[simp] theorem State.resetBlock_len (s : State) : s.resetBlock.len = 0 := rfl

@[simp] theorem State.resetBlock_off (s : State) : s.resetBlock.off = 0 := rfl

@[simp] theorem State.resetBlock_val (s : State) : s.resetBlock.val = 0 := rfl

@[simp] theorem State.resetBlock_res (s : State) : s.resetBlock.res = 0 := rfl

@[simp] theorem State.resetBlock_status (s : State) : s.resetBlock.status = 0 := rfl

@[simp] theorem State.resetBlock_fault (s : State) : s.resetBlock.fault = 0 := rfl

@[simp] theorem State.resetBlock_ip6 (s : State) :
    s.resetBlock.ip6 = Record.reset Ip6Header.zero := rfl

@[simp] theorem State.resetBlock_tcp (s : State) :
    s.resetBlock.tcp = Record.reset TcpHeader.zero := rfl

@[simp] theorem State.resetBlock_pending (s : State) : s.resetBlock.pending = none := rfl

@[simp] theorem State.resetBlock_mem (s : State) : s.resetBlock.mem = s.mem := rfl

@[simp] theorem State.resetBlock_todo (s : State) : s.resetBlock.todo = s.todo := rfl

@[simp] theorem State.resetBlock_pos (s : State) : s.resetBlock.pos = s.pos := rfl

@[simp] theorem State.resetBlock_portData (s : State) : s.resetBlock.portData = s.portData := rfl

@[simp] theorem State.resetBlock_agentData (s : State) :
    s.resetBlock.agentData = s.agentData := rfl

@[simp] theorem State.resetBlock_draws (s : State) : s.resetBlock.draws = s.draws := rfl

/-! ### Records -/

@[simp] theorem Record.touch_st {α : Type} (r : Record α) (cs : List Host.Cell) :
    (r.touch cs).st = r.st := by unfold Record.touch; split <;> rfl

@[simp] theorem Record.touch_hdr {α : Type} (r : Record α) (cs : List Host.Cell) :
    (r.touch cs).hdr = r.hdr := by unfold Record.touch; split <;> rfl

@[simp] theorem Record.touch_bindLo {α : Type} (r : Record α) (cs : List Host.Cell) :
    (r.touch cs).bindLo = r.bindLo := by unfold Record.touch; split <;> rfl

@[simp] theorem Record.touch_bindN {α : Type} (r : Record α) (cs : List Host.Cell) :
    (r.touch cs).bindN = r.bindN := by unfold Record.touch; split <;> rfl

theorem Record.touch_eq {α : Type} (r : Record α) (cs : List Host.Cell) :
    r.touch cs = { r with stale := r.stale || cs.any fun c => r.covers c.1 } := by
  unfold Record.touch
  by_cases h : (cs.any fun c => r.covers c.1) = true
  · rw [if_pos h, h, Bool.or_true]
  · rw [if_neg h, Bool.eq_false_iff.mpr h, Bool.or_false]

@[simp] theorem Record.touch_stale {α : Type} (r : Record α) (cs : List Host.Cell) :
    (r.touch cs).stale = (r.stale || cs.any fun c => r.covers c.1) := by rw [Record.touch_eq]

@[simp] theorem Record.touch_nil {α : Type} (r : Record α) : r.touch [] = r := rfl

theorem Pending.hitBy_eq (p : Pending) (a : Nat) :
    p.hitBy a =
      { p with raced := p.raced || (p.reads.contains a || p.writes.any fun c => c.1 == a) } := by
  unfold Pending.hitBy
  by_cases h : (p.reads.contains a || p.writes.any fun c => c.1 == a) = true
  · rw [if_pos h, h, Bool.or_true]
  · rw [if_neg h, Bool.eq_false_iff.mpr h, Bool.or_false]

end Sys2Proof.Machine
end

