-- ==== Sys2Proof/Laws/Ops.lean ====
section
/-! SUPPORT. What each shared operation can do, said once: the checks of ISSUE, the accesses, the two
phases of a command, and the moves of other agents. -/

namespace Sys2Proof.Machine

/-! ### Checks and accesses -/

@[simp] theorem Issued.check_none (x : Issued) : Issued.check none x = x := rfl

@[simp] theorem Issued.check_some (c : Cause) (x : Issued) : Issued.check (some c) x = .faults c := rfl

theorem Issued.check_ready {c : Option Cause} {x : Issued} {p : Pending}
    (h : Issued.check c x = .ready p) : c = none ∧ x = .ready p := by
  cases c with
  | none => exact ⟨rfl, h⟩
  | some c => cases h

theorem Issued.check_faults {c : Option Cause} {x : Issued} {d : Cause}
    (h : Issued.check c x = .faults d) : c = some d ∨ (c = none ∧ x = .faults d) := by
  cases c with
  | none => exact .inr ⟨rfl, h⟩
  | some c => cases h; exact .inl rfl

theorem State.access_ready {s : State} {lo n : Nat} {x : Issued} {p : Pending}
    (h : s.access lo n x = .ready p) :
    s.hits .sideEffects s.base.toNat s.len.toNat = false ∧ s.hits .absent lo n = false ∧
      x = .ready p := by
  unfold State.access at h
  split at h
  · cases h
  · split at h
    · cases h
    · exact ⟨by simpa using ‹¬s.hits .sideEffects _ _ = true›,
        by simpa using ‹¬s.hits .absent _ _ = true›, h⟩

theorem State.access_faults {s : State} {lo n : Nat} {x : Issued} {c : Cause}
    (h : s.access lo n x = .faults c) : x = .faults c := by
  unfold State.access at h
  split at h
  · cases h
  · split at h
    · cases h
    · exact h

theorem State.access_of_reaches {s : State} {n : Nat} (x : Issued) (h : s.reaches n = true) :
    s.access s.start n x = x := by
  simp only [State.reaches, State.slicePlain, Bool.and_eq_true, Bool.not_eq_true'] at h
  simp [State.access, h.1, h.2]

theorem State.wraps_iff {s : State} :
    s.wraps = true ↔ 2 ^ s.params.aw < s.base.toNat + s.len.toNat := by
  unfold State.wraps State.sliceEnd
  exact decide_eq_true_iff

/-- The memory check of R130: what each answer means. -/
theorem State.memCheck_eq_none {s : State} {n : Nat} :
    s.memCheck n = none ↔ s.wraps = false ∧ s.off.toNat + n ≤ s.len.toNat := by
  unfold State.memCheck
  split_ifs with h1 h2 <;> simp_all

theorem State.wrapCheck_eq_none {s : State} : s.wrapCheck = none ↔ s.wraps = false := by
  unfold State.wrapCheck
  split_ifs with h <;> simp_all

/-- What `canAccess` gives a memory command: its checks pass and its bytes lie in the address space. -/
theorem State.canAccess_spec {s : State} {n : Nat} (h : s.canAccess n = true) :
    s.wraps = false ∧ s.memCheck n = none ∧ s.wrapCheck = none ∧ ¬ s.avail < (n : Int) ∧
      s.reaches n = true ∧ s.off.toNat + n ≤ s.len.toNat ∧
      s.base.toNat + s.off.toNat + n ≤ 2 ^ s.params.aw := by
  simp only [State.canAccess, Bool.and_eq_true, Bool.not_eq_true', decide_eq_true_eq] at h
  obtain ⟨⟨h1, h2⟩, h3⟩ := h
  have h4 : s.base.toNat + s.len.toNat ≤ 2 ^ s.params.aw := by
    have : ¬ s.wraps = true := by simp [h1]
    rw [State.wraps_iff] at this
    omega
  refine ⟨h1, State.memCheck_eq_none.mpr ⟨h1, h2⟩, State.wrapCheck_eq_none.mpr h1, ?_, h3, h2, ?_⟩
  · unfold State.avail; omega
  · omega

theorem State.hits_mono {s : State} {k : RegionKind} {lo n lo' n' : Nat} (h : s.hits k lo n = false)
    (h1 : lo ≤ lo') (h2 : lo' + n' ≤ lo + n) : s.hits k lo' n' = false := by
  simp only [State.hits, List.any_eq_false] at h ⊢
  intro r hr
  have := h r hr
  simp only [Bool.and_eq_true, decide_eq_true_eq] at this ⊢
  rintro ⟨⟨⟨⟨h3, h4⟩, h5⟩, h6⟩, h7⟩
  exact this ⟨⟨⟨⟨h3, by omega⟩, h5⟩, by omega⟩, by omega⟩

/-- Reaching a run of bytes gives reaching a shorter one. -/
theorem State.reaches_mono {s : State} {n m : Nat} (h : s.reaches n = true) (hle : m ≤ n) :
    s.reaches m = true := by
  simp only [State.reaches, Bool.and_eq_true, Bool.not_eq_true'] at h ⊢
  exact ⟨h.1, State.hits_mono h.2 (Nat.le_refl _) (by omega)⟩

theorem State.canAccess_mono {s : State} {n m : Nat} (h : s.canAccess n = true) (hle : m ≤ n) :
    s.canAccess m = true := by
  have hr := (State.canAccess_spec h).2.2.2.2.1
  simp only [State.canAccess, Bool.and_eq_true, decide_eq_true_eq] at h ⊢
  exact ⟨⟨h.1.1, by omega⟩, State.reaches_mono hr hle⟩

/-! ### Records -/

theorem Record.readable_eq_none {α : Type} {r : Record α} :
    r.readable = none ↔ r.st = .owned ∨ r.st = .bound ∧ r.stale = false := by
  unfold Record.readable
  cases r.st <;> simp

theorem Record.writable_eq_none {α : Type} {r : Record α} : r.writable = none ↔ r.st = .owned := by
  unfold Record.writable
  cases r.st <;> simp

theorem Record.covers_iff {α : Type} {r : Record α} {a : Nat} :
    r.covers a = true ↔ r.st = .bound ∧ r.bindLo.toNat ≤ a ∧ a < r.bindLo.toNat + r.bindN := by
  simp [Record.covers, and_assoc]

/-! ### Taking a fault -/

/-- The fault record as its three byte fields (R24). -/
theorem faultWord_eq (opc : Byte) (c : Cause) :
    faultWord opc c = ((0 : BitVec 32) ++ opc ++ (0 : Byte) ++ c.code ++ (1 : Byte) : BitVec 64) := by
  apply BitVec.eq_of_getLsbD_eq
  intro i hi
  have h : i < 64 := hi
  simp only [faultWord, BitVec.getLsbD_or, BitVec.getLsbD_shiftLeft, BitVec.getLsbD_setWidth,
    BitVec.getLsbD_append]
  interval_cases i <;> simp

@[simp] theorem faultWord_bit (opc : Byte) (c : Cause) : (faultWord opc c).getLsbD 0 = true := by
  rw [faultWord_eq, BitVec.getLsbD_append]
  rfl

@[simp] theorem State.raise_faulted (s : State) (opc : Byte) (c : Cause) :
    (s.raise opc c).faulted = true := by simp [State.faulted]

@[simp] theorem State.raise_faultCause (s : State) (opc : Byte) (c : Cause) :
    (s.raise opc c).faultCause = c.code := by
  apply BitVec.eq_of_getLsbD_eq
  intro i hi
  simp only [State.faultCause, State.raise_fault, faultWord_eq, BitVec.getLsbD_extractLsb',
    BitVec.getLsbD_append]
  interval_cases i <;> rfl

/-- A block that is not faulted shows no cause (R24). -/
theorem State.Inv.faultCause {s : State} (hi : s.Inv) (hf : s.faulted = false) :
    s.faultCause = 0 := by
  rw [State.faultCause, (hi.outcome.2 hf).1]
  rfl

theorem faultWord_toNat (opc : Byte) (c : Cause) :
    (faultWord opc c).toNat = opc.toNat * 16777216 + c.code.toNat * 256 + 1 := by
  have h1 : opc.toNat < 256 := opc.isLt
  have h2 : c.code.toNat < 256 := c.code.isLt
  have append : ∀ {w : Nat} (x : BitVec w) (b : Byte), (x ++ b).toNat = x.toNat * 256 + b.toNat := by
    intro w x b
    rw [BitVec.toNat_append, ← Nat.shiftLeft_add_eq_or_of_lt b.isLt, Nat.shiftLeft_eq]
  rw [faultWord_eq]
  show (((((0 : BitVec 32) ++ opc) ++ (0 : Byte)) ++ c.code) ++ (1 : Byte)).toNat = _
  rw [append, append, append, append]
  simp
  omega

/-! ### The two phases -/

theorem State.launch_cases (s : State) (p : Pending) :
    (s.interposed = true ∧ s.launch p = { s with pending := some p }) ∨
    (s.interposed = false ∧ s.launch p = s.commit p) := by
  unfold State.launch
  cases s.interposed <;> simp

/-- COMMIT of a command that no other agent raced. -/
theorem State.commit_of_not_raced {s : State} {p : Pending} (h : p.raced = false) :
    s.commit p =
      ((({ s with pending := none } : State).store p.writes).writeRegs p).finish p.status := by
  simp [State.commit, h]

/-- The two things COMMIT can do. -/
theorem State.commit_cases (s : State) (p : Pending) :
    (p.raced = true ∧ p.status = .ok ∧
      s.commit p = ({ s with pending := none } : State).raceFault p) ∨
    ((p.raced = false ∨ p.status ≠ .ok) ∧
      s.commit p =
        ((({ s with pending := none } : State).store p.writes).writeRegs p).finish p.status) := by
  unfold State.commit
  cases h1 : p.raced <;> by_cases h2 : p.status = .ok <;> simp [h2]

/-- Everything a command can do when it answers a next state: it is ignored, it faults, or it goes on
to COMMIT. -/
theorem runCommand_cases {op : Opcode} {issue : State → Issued} {s t : State}
    (h : runCommand op issue s = .next t) :
    (s.faulted = true ∧ t = s) ∨
    (s.faulted = false ∧ ∃ c, issue s = .faults c ∧ t = s.raise op.code c) ∨
    (s.faulted = false ∧ ∃ p, issue s = .ready p ∧ t = s.launch { p with opc := op.code }) := by
  unfold runCommand at h
  cases hf : s.faulted with
  | true => simp only [hf, if_true] at h; cases h; exact .inl ⟨rfl, rfl⟩
  | false =>
    simp only [hf, Bool.false_eq_true, if_false] at h
    cases hi : issue s with
    | faults c => simp only [hi] at h; cases h; exact .inr (.inl ⟨rfl, c, rfl, rfl⟩)
    | ready p => simp only [hi] at h; cases h; exact .inr (.inr ⟨rfl, p, rfl, rfl⟩)
    | stuck f => simp only [hi] at h; cases h
    | refuses r => simp only [hi] at h; cases h

theorem State.ready_spec {s : State} (h : s.ready = true) :
    s.faulted = false ∧ s.pending = none ∧ s.interposed = false := by
  simpa [State.ready, and_assoc] using h

theorem runCommand_faults {op : Opcode} {issue : State → Issued} {s : State} {c : Cause}
    (hf : s.faulted = false) (h : issue s = .faults c) :
    runCommand op issue s = .next (s.raise op.code c) := by
  simp [runCommand, hf, h]

theorem runCommand_ready {op : Opcode} {issue : State → Issued} {s : State} {p : Pending}
    (hr : s.ready = true) (h : issue s = .ready p) :
    runCommand op issue s = .next (s.commit { p with opc := op.code }) := by
  obtain ⟨h1, -, h3⟩ := State.ready_spec hr
  simp [runCommand, h1, h, State.launch, h3]

theorem State.setPending_none {s : State} (h : s.pending = none) :
    ({ s with pending := none } : State) = s := by cases s; simp_all

/-- A command that ends with a status in ISSUE writes `STATUS` alone (R305). -/
theorem runCommand_finish {op : Opcode} {issue : State → Issued} {s : State} {st : Status}
    {rd : List Nat} (hr : s.ready = true) (h : issue s = .finish st rd) :
    runCommand op issue s = .next { s with status := st.code } := by
  rw [runCommand_ready hr h, State.commit_of_not_raced rfl,
    State.setPending_none (State.ready_spec hr).2.1]
  rfl

/-- A read command writes `RES` and `STATUS` (R22). -/
theorem runCommand_result {op : Opcode} {issue : State → Issued} {s : State} {v : Word}
    {rd : List Nat} (hr : s.ready = true) (h : issue s = .result rd v) :
    runCommand op issue s = .next { s with res := v, status := 0x00 } := by
  rw [runCommand_ready hr h, State.commit_of_not_raced rfl,
    State.setPending_none (State.ready_spec hr).2.1]
  rfl

/-- A storing command writes its bytes, marks views stale, and writes `STATUS` (R76, R80). -/
theorem runCommand_stores {op : Opcode} {issue : State → Issued} {s : State}
    {cs : List Host.Cell} {rd : List Nat} (hr : s.ready = true) (h : issue s = .stores rd cs) :
    runCommand op issue s =
      .next { s with
        mem := s.mem.writeCells cs, ip6 := s.ip6.touch cs, tcp := s.tcp.touch cs
        status := 0x00 } := by
  rw [runCommand_ready hr h, State.commit_of_not_raced rfl,
    State.setPending_none (State.ready_spec hr).2.1]
  rfl

theorem runCommand_setIp6 {op : Opcode} {issue : State → Issued} {s : State}
    {r : Record Ip6Header} {rd : List Nat} (hr : s.ready = true) (h : issue s = .setIp6 rd r) :
    runCommand op issue s = .next { s with ip6 := r, status := 0x00 } := by
  rw [runCommand_ready hr h, State.commit_of_not_raced rfl,
    State.setPending_none (State.ready_spec hr).2.1]
  rfl

theorem runCommand_setTcp {op : Opcode} {issue : State → Issued} {s : State}
    {r : Record TcpHeader} {rd : List Nat} (hr : s.ready = true) (h : issue s = .setTcp rd r) :
    runCommand op issue s = .next { s with tcp := r, status := 0x00 } := by
  rw [runCommand_ready hr h, State.commit_of_not_raced rfl,
    State.setPending_none (State.ready_spec hr).2.1]
  rfl

/-! ### Moves of the outside -/

/-- Everything a move of the outside can do when it answers a next state. -/
theorem State.move_cases {s t : State} {m : Move} (h : s.move m = .next t) :
    (∃ a b, m = .write a b ∧ s.isBufferByte a = true ∧ t = s.agentWrite a b) ∨
    (∃ a, m = .read a ∧ s.isBufferByte a = true ∧ t = s.agentRead a) ∨
    (m = .reset ∧ t = s.resetBlock) := by
  cases m with
  | write a b =>
    simp only [State.move] at h
    split at h
    · cases h; exact .inl ⟨a, b, rfl, ‹_›, rfl⟩
    · cases h
  | read a =>
    simp only [State.move] at h
    split at h
    · cases h; exact .inr (.inl ⟨a, rfl, ‹_›, rfl⟩)
    · cases h
  | reset => simp only [State.move] at h; cases h; exact .inr (.inr ⟨rfl, rfl⟩)

/-- What a read by another agent changes: what it read, and how many free values were drawn (R78). -/
theorem State.agentRead_eq (s : State) (a : Nat) :
    ∃ b n, s.agentRead a = { s with agentData := b, draws := n } ∧
      (b = s.mem.read a ∨ ∃ p, s.pending = some p ∧ p.newByte? a = some b) := by
  unfold State.agentRead
  cases hp : s.pending with
  | none => exact ⟨_, _, rfl, .inl rfl⟩
  | some p =>
    cases hb : p.newByte? a with
    | none => simp only [Option.bind_some, hb]; exact ⟨_, _, rfl, .inl rfl⟩
    | some new =>
      simp only [Option.bind_some, hb]
      refine ⟨_, _, rfl, ?_⟩
      cases Config.freeBit s.draws
      · exact .inl rfl
      · exact .inr ⟨p, rfl, hb⟩

/-- Everything a step can do when it answers a next state: a command in flight commits, the idle block
waits, a host access happens, or something outside moves. -/
theorem step_cases {s t : State} (h : step s = .next t) :
    (∃ p, s.pending = some p ∧ s.interposed = false ∧ t = s.commit p) ∨
    (s.pending = none ∧ s.todo = [] ∧ t = s) ∨
    (∃ a rest, s.pending = none ∧ s.todo = .port a :: rest ∧
      ({ s with todo := rest, pos := s.pos + 1 } : State).portAccess a = .next t) ∨
    (∃ m rest, (s.todo = .during m :: rest ∨ s.pending = none ∧ s.todo = .outside m :: rest) ∧
      ({ s with todo := rest } : State).move m = .next t) := by
  unfold step at h
  cases hp : s.pending with
  | some p =>
    simp only [hp, State.stepPending] at h
    cases ht : s.todo with
    | nil =>
      simp only [ht] at h; cases h; exact .inl ⟨p, rfl, by simp [State.interposed, ht], rfl⟩
    | cons e rest =>
      cases e with
      | port a =>
        simp only [ht] at h; cases h; exact .inl ⟨p, rfl, by simp [State.interposed, ht], rfl⟩
      | outside m =>
        simp only [ht] at h; cases h; exact .inl ⟨p, rfl, by simp [State.interposed, ht], rfl⟩
      | during m =>
        simp only [ht] at h; exact .inr (.inr (.inr ⟨m, rest, .inl rfl, hp ▸ h⟩))
  | none =>
    simp only [hp, State.stepIdle] at h
    cases ht : s.todo with
    | nil => simp only [ht] at h; cases h; exact .inr (.inl ⟨rfl, rfl, rfl⟩)
    | cons e rest =>
      simp only [ht, State.idleEvent] at h
      cases e with
      | port a => exact .inr (.inr (.inl ⟨a, rest, rfl, rfl, hp ▸ h⟩))
      | during m => exact .inr (.inr (.inr ⟨m, rest, .inl rfl, hp ▸ h⟩))
      | outside m => exact .inr (.inr (.inr ⟨m, rest, .inr ⟨rfl, rfl⟩, hp ▸ h⟩))

end Sys2Proof.Machine
end

