-- ==== Sys2Proof/Laws/Exec.lean ====
section
/-! SUPPORT. Every command is one ISSUE run by the shared operation, and the forms ISSUE can end in. -/

namespace Sys2Proof.Machine

/-- The ISSUE phase of each command. -/
def issueOf : Instr → State → Issued
  | .nop => fun _ => .finish .ok []
  | .ip6Decode => issueIp6Decode
  | .ip6Encode => issueIp6Encode
  | .tcpDecode => issueTcpDecode
  | .tcpEncode => issueTcpEncode
  | .rdBe16 => issueReadBe 2
  | .rdBe32 => issueReadBe 4
  | .rdBe64 => issueReadBe 8
  | .wrBe16 => issueWriteBe 2
  | .wrBe32 => issueWriteBe 4
  | .wrBe64 => issueWriteBe 8
  | .unpackBits bo w => issueUnpack bo.toNat w.toNat
  | .packBits bo w => issuePack bo.toNat w.toNat
  | .ip6Clear => issueIp6Clear
  | .ip6Detach => issueIp6Detach
  | .ip6FldRd f => issueIp6FldRd f
  | .ip6FldWr f => issueIp6FldWr f
  | .addrRd r w k => issueAddrRd r w k.toNat
  | .addrWr r w k => issueAddrWr r w k.toNat
  | .tcpClear => issueTcpClear
  | .tcpDetach => issueTcpDetach
  | .tcpFldRd f => issueTcpFldRd f
  | .tcpFldWr f => issueTcpFldWr f
  | .optRd k => issueOptRd k.toNat
  | .optWr k => issueOptWr k.toNat

theorem exec_eq_runCommand (i : Instr) (s : State) :
    exec i s = runCommand i.opcode (issueOf i) s := by cases i <;> rfl

/-- ISSUE never looks at the outside world or at a command in flight. -/
theorem issueOf_setTodo (i : Instr) (s : State) (evs : List Event) :
    issueOf i { s with todo := evs } = issueOf i s := by cases i <;> rfl

/-- Everything a command can do when it answers a next state. -/
theorem exec_cases {i : Instr} {s t : State} (h : exec i s = .next t) :
    (s.faulted = true ∧ t = s) ∨
    (s.faulted = false ∧ ∃ c, issueOf i s = .faults c ∧ t = s.raise i.opcode.code c) ∨
    (s.faulted = false ∧ ∃ p, issueOf i s = .ready p ∧
      t = s.launch { p with opc := i.opcode.code }) :=
  runCommand_cases (exec_eq_runCommand i s ▸ h)

theorem exec_faults {i : Instr} {s : State} {c : Cause} (hf : s.faulted = false)
    (h : issueOf i s = .faults c) : exec i s = .next (s.raise i.opcode.code c) :=
  exec_eq_runCommand i s ▸ runCommand_faults hf h

theorem exec_finish {i : Instr} {s : State} {st : Status} {rd : List Nat} (hr : s.ready = true)
    (h : issueOf i s = .finish st rd) : exec i s = .next { s with status := st.code } :=
  exec_eq_runCommand i s ▸ runCommand_finish hr h

theorem exec_result {i : Instr} {s : State} {v : Word} {rd : List Nat} (hr : s.ready = true)
    (h : issueOf i s = .result rd v) : exec i s = .next { s with res := v, status := 0x00 } :=
  exec_eq_runCommand i s ▸ runCommand_result hr h

theorem exec_stores {i : Instr} {s : State} {cs : List Host.Cell} {rd : List Nat}
    (hr : s.ready = true) (h : issueOf i s = .stores rd cs) :
    exec i s = .next { s with
      mem := s.mem.writeCells cs, ip6 := s.ip6.touch cs, tcp := s.tcp.touch cs, status := 0x00 } :=
  exec_eq_runCommand i s ▸ runCommand_stores hr h

theorem exec_setIp6 {i : Instr} {s : State} {r : Record Ip6Header} {rd : List Nat}
    (hr : s.ready = true) (h : issueOf i s = .setIp6 rd r) :
    exec i s = .next { s with ip6 := r, status := 0x00 } :=
  exec_eq_runCommand i s ▸ runCommand_setIp6 hr h

theorem exec_setTcp {i : Instr} {s : State} {r : Record TcpHeader} {rd : List Nat}
    (hr : s.ready = true) (h : issueOf i s = .setTcp rd r) :
    exec i s = .next { s with tcp := r, status := 0x00 } :=
  exec_eq_runCommand i s ▸ runCommand_setTcp hr h

/-! ### Everything ISSUE can hand to COMMIT -/

/-- A record that a command writes from an `OWNED` or cleared or detached one: it is `OWNED`, and
either unbound or with the binding the `OWNED` record had. -/
def OwnedFrom {α : Type} (r old : Record α) : Prop :=
  r.st = .owned ∧
    ((r.bindN = 0 ∧ r.stale = false) ∨
      (r.bindN = old.bindN ∧ r.stale = old.stale ∧ old.st = .owned))

/-- What ISSUE of a command can hand to COMMIT: a status alone; a result for `RES`; bytes to store
from `BASE + OFF` on, inside a slice that does not wrap; an `OWNED` record; or the record of a
decode, bound to the bytes of its read set. -/
inductive IssueForm (i : Instr) (s : State) : Pending → Prop where
  | status (st : Status) (rd : List Nat) (h : i = .nop ∨ st ≠ .ok) :
      IssueForm i s { okPending rd with status := st }
  | result (rd : List Nat) (v : Word) (h : writesRes i = true) :
      IssueForm i s { okPending rd with res := some v }
  | stores (rd : List Nat) (bs : List Byte) (hlen : bs.length = storedBytes s i)
      (hin : s.start + bs.length ≤ s.sliceEnd) (hw : s.wraps = false)
      (h6 : changesIp6 i = false) (ht : changesTcp i = false) :
      IssueForm i s { okPending rd with writes := cellsAt s.start bs }
  | ip6Owned (rd : List Nat) (r : Record Ip6Header) (h6 : changesIp6 i = true)
      (ht : changesTcp i = false) (hr : OwnedFrom r s.ip6) :
      IssueForm i s { okPending rd with ip6 := some r }
  | tcpOwned (rd : List Nat) (r : Record TcpHeader) (ht : changesTcp i = true)
      (h6 : changesIp6 i = false) (hr : OwnedFrom r s.tcp) :
      IssueForm i s { okPending rd with tcp := some r }
  | ip6Decoded (hi : i = .ip6Decode) (hw : s.wraps = false)
      (hl : s.off.toNat + 40 ≤ s.len.toNat) :
      IssueForm i s { okPending (addrsFrom s.start 40) with
        ip6 := some (Record.bind (ip6OfBytes (s.mem.readBytes s.start 40)) (s.base + s.off) 40) }
  | tcpDecoded (hi : i = .tcpDecode) (d : Nat)
      (hd : d = (tcpOffsetNibble (s.mem.readBytes s.start 20)).toNat) (h5 : 5 ≤ d)
      (hw : s.wraps = false) (hl : s.off.toNat + 4 * d ≤ s.len.toNat) :
      IssueForm i s { okPending (addrsFrom s.start (4 * d)) with
        tcp := some (Record.bind (tcpOfBytes (s.mem.readBytes s.start (4 * d))) (s.base + s.off)
          (4 * d)) }

theorem OwnedFrom.of_writable {α : Type} {r : Record α} (hdr : α) (h : r.writable = none) :
    OwnedFrom (r.setHdr hdr) r := by
  rw [Record.writable_eq_none] at h
  exact ⟨h, .inr ⟨rfl, rfl, h⟩⟩

theorem OwnedFrom.of_detach {α : Type} {r : Record α} (h : r.readable = none) :
    OwnedFrom r.detach r := by
  rw [Record.readable_eq_none] at h
  rcases h with h | h
  · simp [OwnedFrom, Record.detach, h]
  · simp [OwnedFrom, Record.detach, h.1, Record.unbind]

theorem OwnedFrom.of_clear {α : Type} (r : Record α) (z : α) : OwnedFrom (r.clear z) r :=
  ⟨rfl, .inl ⟨rfl, rfl⟩⟩

theorem issueReadBe_form {n : Nat} {s : State} {p : Pending} {i : Instr}
    (h : issueReadBe n s = .ready p) (hi : writesRes i = true) : IssueForm i s p := by
  obtain ⟨-, h⟩ := Issued.check_ready h
  obtain ⟨-, -, h⟩ := State.access_ready h
  cases Issued.ready.inj h
  exact .result _ _ hi

theorem issueWriteBe_form {n : Nat} {s : State} {p : Pending} {i : Instr}
    (h : issueWriteBe n s = .ready p) (hi : n = storedBytes s i) (h6 : changesIp6 i = false)
    (ht : changesTcp i = false) : IssueForm i s p := by
  obtain ⟨hc, h⟩ := Issued.check_ready h
  obtain ⟨-, -, h⟩ := State.access_ready h
  obtain ⟨hw, hl⟩ := State.memCheck_eq_none.mp hc
  cases Issued.ready.inj h
  exact .stores _ (bytesBe n s.val.toNat) (by rw [bytesBe_length, hi])
    (by rw [bytesBe_length]; simp only [State.start, State.sliceEnd]; omega) hw h6 ht

theorem windowBytes_length (win : BitVec 16) (bo w : Nat) :
    (windowBytes win (bitBytes bo w)).length = bitBytes bo w := by
  unfold windowBytes bitBytes
  by_cases h : bo + w ≤ 8 <;> simp [h]

theorem issuePack_form {bo w : Byte} {s : State} {p : Pending}
    (h : issuePack bo.toNat w.toNat s = .ready p) : IssueForm (.packBits bo w) s p := by
  obtain ⟨-, h⟩ := Issued.check_ready h
  obtain ⟨hc, h⟩ := Issued.check_ready h
  obtain ⟨-, -, h⟩ := State.access_ready h
  obtain ⟨hw, hl⟩ := State.memCheck_eq_none.mp hc
  cases Issued.ready.inj h
  exact .stores _ _ (windowBytes_length _ _ _)
    (by rw [windowBytes_length]; simp only [State.start, State.sliceEnd]; omega) hw rfl rfl

theorem issueIp6Decode_form {s : State} {p : Pending} (h : issueIp6Decode s = .ready p) :
    IssueForm .ip6Decode s p := by
  obtain ⟨hc, h⟩ := Issued.check_ready h
  have hw := State.wrapCheck_eq_none.mp hc
  split at h
  · cases Issued.ready.inj h
    exact .status _ _ (.inr (by decide))
  · rename_i ha
    obtain ⟨-, -, h⟩ := State.access_ready h
    cases Issued.ready.inj h
    exact .ip6Decoded rfl hw (by unfold State.avail at ha; omega)

theorem issueIp6Encode_form {s : State} {p : Pending} (h : issueIp6Encode s = .ready p) :
    IssueForm .ip6Encode s p := by
  obtain ⟨-, h⟩ := Issued.check_ready h
  obtain ⟨hc, h⟩ := Issued.check_ready h
  have hw := State.wrapCheck_eq_none.mp hc
  split at h
  · cases Issued.ready.inj h
    exact .status _ _ (.inr (by decide))
  · rename_i ha
    obtain ⟨-, -, h⟩ := State.access_ready h
    cases Issued.ready.inj h
    refine .stores _ (ip6ToBytes s.ip6.hdr) (ip6ToBytes_length _) ?_ hw rfl rfl
    rw [ip6ToBytes_length]
    unfold State.avail at ha
    simp only [State.start, State.sliceEnd]
    omega

theorem issueTcpDecode_form {s : State} {p : Pending} (h : issueTcpDecode s = .ready p) :
    IssueForm .tcpDecode s p := by
  obtain ⟨hc, h⟩ := Issued.check_ready h
  have hw := State.wrapCheck_eq_none.mp hc
  split at h
  · cases Issued.ready.inj h
    exact .status _ _ (.inr (by decide))
  · obtain ⟨-, -, h⟩ := State.access_ready h
    simp only [issueTcpDecodeBody] at h
    split at h
    · cases Issued.ready.inj h
      exact .status _ _ (.inr (by decide))
    · rename_i h5
      split at h
      · cases Issued.ready.inj h
        exact .status _ _ (.inr (by decide))
      · rename_i ha
        obtain ⟨-, -, h⟩ := State.access_ready h
        cases Issued.ready.inj h
        exact .tcpDecoded rfl _ rfl (by omega) hw (by unfold State.avail at ha; omega)

theorem issueTcpEncode_form {s : State} {p : Pending} (h : issueTcpEncode s = .ready p) :
    IssueForm .tcpEncode s p := by
  obtain ⟨-, h⟩ := Issued.check_ready h
  obtain ⟨hc, h⟩ := Issued.check_ready h
  have hw := State.wrapCheck_eq_none.mp hc
  split at h
  · cases Issued.ready.inj h
    exact .status _ _ (.inr (by decide))
  · rename_i hd
    split at h
    · cases Issued.ready.inj h
      exact .status _ _ (.inr (by decide))
    · rename_i ha
      obtain ⟨-, -, h⟩ := State.access_ready h
      have hle : s.tcp.hdr.optionsLength.toNat ≤ 40 := by
        by_contra hgt
        exact hd (by rw [dataOffsetOf, if_neg]; omega)
      cases Issued.ready.inj h
      refine .stores _ _ (tcpToBytes_length _ _ hle) ?_ hw rfl rfl
      rw [tcpToBytes_length _ _ hle]
      unfold State.avail at ha
      simp only [State.start, State.sliceEnd]
      omega

/-- Everything ISSUE of a command can hand to COMMIT. -/
theorem issueOf_form {i : Instr} {s : State} {p : Pending} (h : issueOf i s = .ready p) :
    IssueForm i s p := by
  cases i with
  | nop => cases Issued.ready.inj h; exact .status _ _ (.inl rfl)
  | ip6Decode => exact issueIp6Decode_form h
  | ip6Encode => exact issueIp6Encode_form h
  | tcpDecode => exact issueTcpDecode_form h
  | tcpEncode => exact issueTcpEncode_form h
  | rdBe16 => exact issueReadBe_form h rfl
  | rdBe32 => exact issueReadBe_form h rfl
  | rdBe64 => exact issueReadBe_form h rfl
  | wrBe16 => exact issueWriteBe_form h rfl rfl rfl
  | wrBe32 => exact issueWriteBe_form h rfl rfl rfl
  | wrBe64 => exact issueWriteBe_form h rfl rfl rfl
  | unpackBits bo w =>
    obtain ⟨-, h⟩ := Issued.check_ready h
    obtain ⟨-, h⟩ := Issued.check_ready h
    obtain ⟨-, -, h⟩ := State.access_ready h
    cases Issued.ready.inj h
    exact .result _ _ rfl
  | packBits bo w => exact issuePack_form h
  | ip6Clear => cases Issued.ready.inj h; exact .ip6Owned _ _ rfl rfl (.of_clear _ _)
  | ip6Detach =>
    obtain ⟨hc, h⟩ := Issued.check_ready h
    cases Issued.ready.inj h
    exact .ip6Owned _ _ rfl rfl (.of_detach hc)
  | ip6FldRd f =>
    obtain ⟨-, h⟩ := Issued.check_ready h
    cases Issued.ready.inj h
    exact .result _ _ rfl
  | ip6FldWr f =>
    obtain ⟨hc, h⟩ := Issued.check_ready h
    cases Issued.ready.inj h
    exact .ip6Owned _ _ rfl rfl (.of_writable _ hc)
  | addrRd r w k =>
    obtain ⟨-, h⟩ := Issued.check_ready h
    obtain ⟨-, h⟩ := Issued.check_ready h
    cases Issued.ready.inj h
    exact .result _ _ rfl
  | addrWr r w k =>
    obtain ⟨-, h⟩ := Issued.check_ready h
    obtain ⟨hc, h⟩ := Issued.check_ready h
    cases Issued.ready.inj h
    exact .ip6Owned _ _ rfl rfl (.of_writable _ hc)
  | tcpClear => cases Issued.ready.inj h; exact .tcpOwned _ _ rfl rfl (.of_clear _ _)
  | tcpDetach =>
    obtain ⟨hc, h⟩ := Issued.check_ready h
    cases Issued.ready.inj h
    exact .tcpOwned _ _ rfl rfl (.of_detach hc)
  | tcpFldRd f =>
    obtain ⟨-, h⟩ := Issued.check_ready h
    split at h
    · cases h
    · cases Issued.ready.inj h
      exact .result _ _ rfl
  | tcpFldWr f =>
    obtain ⟨hc, h⟩ := Issued.check_ready h
    split at h
    · cases h
    · cases Issued.ready.inj h
      exact .tcpOwned _ _ rfl rfl (.of_writable _ hc)
  | optRd k =>
    obtain ⟨-, h⟩ := Issued.check_ready h
    obtain ⟨-, h⟩ := Issued.check_ready h
    obtain ⟨-, h⟩ := Issued.check_ready h
    cases Issued.ready.inj h
    exact .result _ _ rfl
  | optWr k =>
    obtain ⟨-, h⟩ := Issued.check_ready h
    obtain ⟨hc, h⟩ := Issued.check_ready h
    cases Issued.ready.inj h
    exact .tcpOwned _ _ rfl rfl (.of_writable _ hc)

/-! ### The causes ISSUE can find -/

/-- A check of ISSUE never finds `Race`, and neither does what comes after it. -/
theorem Issued.check_ne_race {c : Option Cause} {x : Issued} {d : Cause}
    (h : Issued.check c x = .faults d) (hc : c ≠ some .race) (hx : ∀ d, x = .faults d → d ≠ .race) :
    d ≠ .race := by
  rcases Issued.check_faults h with h | ⟨-, h⟩
  · exact fun e => hc (e ▸ h)
  · exact hx d h

theorem Record.readable_ne_race {α : Type} (r : Record α) : r.readable ≠ some .race := by
  unfold Record.readable
  cases r.st <;> simp

theorem Record.writable_ne_race {α : Type} (r : Record α) : r.writable ≠ some .race := by
  unfold Record.writable
  cases r.st <;> simp

theorem State.memCheck_ne_race (s : State) (n : Nat) : s.memCheck n ≠ some .race := by
  unfold State.memCheck
  split_ifs <;> simp

theorem State.wrapCheck_ne_race (s : State) : s.wrapCheck ≠ some .race := by
  unfold State.wrapCheck
  split_ifs <;> simp

theorem bitRangeCheck_ne_race (bo w : Nat) : bitRangeCheck bo w ≠ some .race := by
  unfold bitRangeCheck
  split_ifs <;> simp

theorem optIndexCheck_ne_race (k : Nat) : optIndexCheck k ≠ some .race := by
  unfold optIndexCheck
  split_ifs <;> simp

theorem optBoundCheck_ne_race (r : Record TcpHeader) (k : Nat) : optBoundCheck r k ≠ some .race := by
  unfold optBoundCheck
  split_ifs <;> simp

theorem elemCheck_ne_race (w : ViewWidth) (k : Nat) : elemCheck w k ≠ some .race := by
  unfold elemCheck
  split_ifs <;> simp

/-- `Race` is found at COMMIT alone: no ISSUE faults with it (R77, R303). -/
theorem issueOf_ne_race {i : Instr} {s : State} {c : Cause} (h : issueOf i s = .faults c) :
    c ≠ .race := by
  have ready : ∀ (p : Pending) (d : Cause), Issued.ready p = .faults d → d ≠ .race :=
    fun p d h => by cases h
  have acc : ∀ {lo n : Nat} {p : Pending} (d : Cause), s.access lo n (.ready p) = .faults d →
      d ≠ .race := fun d h => ready _ d (State.access_faults h)
  have mem : ∀ {lo n m : Nat} {p : Pending} (d : Cause),
      Issued.check (s.memCheck m) (s.access lo n (.ready p)) = .faults d → d ≠ .race :=
    fun d h => Issued.check_ne_race h (s.memCheck_ne_race _) acc
  cases i with
  | nop => cases h
  | ip6Clear => cases h
  | tcpClear => cases h
  | rdBe16 => exact mem c h
  | rdBe32 => exact mem c h
  | rdBe64 => exact mem c h
  | wrBe16 => exact mem c h
  | wrBe32 => exact mem c h
  | wrBe64 => exact mem c h
  | unpackBits bo w => exact Issued.check_ne_race h (bitRangeCheck_ne_race _ _) mem
  | packBits bo w => exact Issued.check_ne_race h (bitRangeCheck_ne_race _ _) mem
  | ip6Decode =>
    refine Issued.check_ne_race h s.wrapCheck_ne_race fun d h => ?_
    split at h
    · cases h
    · exact acc d h
  | ip6Encode =>
    refine Issued.check_ne_race h s.ip6.readable_ne_race fun d h => ?_
    refine Issued.check_ne_race h s.wrapCheck_ne_race fun d h => ?_
    split at h
    · cases h
    · exact acc d h
  | tcpDecode =>
    refine Issued.check_ne_race h s.wrapCheck_ne_race fun d h => ?_
    split at h
    · cases h
    · have h := State.access_faults h
      simp only [issueTcpDecodeBody] at h
      split at h
      · cases h
      · split at h
        · cases h
        · exact acc d h
  | tcpEncode =>
    refine Issued.check_ne_race h s.tcp.readable_ne_race fun d h => ?_
    refine Issued.check_ne_race h s.wrapCheck_ne_race fun d h => ?_
    split at h
    · cases h
    · split at h
      · cases h
      · exact acc d h
  | ip6Detach => exact Issued.check_ne_race h s.ip6.readable_ne_race (ready _)
  | tcpDetach => exact Issued.check_ne_race h s.tcp.readable_ne_race (ready _)
  | ip6FldRd f => exact Issued.check_ne_race h s.ip6.readable_ne_race (ready _)
  | ip6FldWr f => exact Issued.check_ne_race h s.ip6.writable_ne_race (ready _)
  | addrRd r w k =>
    exact Issued.check_ne_race h (elemCheck_ne_race _ _) fun d h =>
      Issued.check_ne_race h s.ip6.readable_ne_race (ready _)
  | addrWr r w k =>
    exact Issued.check_ne_race h (elemCheck_ne_race _ _) fun d h =>
      Issued.check_ne_race h s.ip6.writable_ne_race (ready _)
  | tcpFldRd f =>
    refine Issued.check_ne_race h s.tcp.readable_ne_race fun d h => ?_
    split at h
    · cases h
      decide
    · cases h
  | tcpFldWr f =>
    refine Issued.check_ne_race h s.tcp.writable_ne_race fun d h => ?_
    split at h
    · cases h
      decide
    · cases h
  | optRd k =>
    exact Issued.check_ne_race h (optIndexCheck_ne_race _) fun d h =>
      Issued.check_ne_race h s.tcp.readable_ne_race fun d h =>
        Issued.check_ne_race h (optBoundCheck_ne_race _ _) (ready _)
  | optWr k =>
    exact Issued.check_ne_race h (optIndexCheck_ne_race _) fun d h =>
      Issued.check_ne_race h s.tcp.writable_ne_race (ready _)

end Sys2Proof.Machine
end

