-- ==== Sys2Proof/Laws/Invariant.lean ====
section
/-! SUPPORT. What the shared operations do to the parts of the invariant: stale marking keeps a
record's binding in order, and what ISSUE hands to COMMIT is in order. -/

namespace Sys2Proof.Machine

/-! ### Records -/

theorem Record.bindingOk_touch {α : Type} {r : Record α} {aw n : Nat} {cs : List Host.Cell}
    (h : r.bindingOk aw n) : (r.touch cs).bindingOk aw n := by
  unfold Record.bindingOk at *
  simp only [Record.touch_st, Record.touch_bindN, Record.touch_bindLo, Record.touch_stale]
  refine ⟨h.1, fun hb => ⟨(h.2 hb).1, ?_⟩⟩
  rw [(h.2 hb).2, Bool.false_or, List.any_eq_false]
  intro c _ hc
  rw [Record.covers_iff] at hc
  exact hb hc.1

theorem Ip6RecordOk.touch {r : Record Ip6Header} {aw : Nat} {cs : List Host.Cell}
    (h : Ip6RecordOk r aw) : Ip6RecordOk (r.touch cs) aw := Record.bindingOk_touch h

theorem TcpRecordOk.touch {r : Record TcpHeader} {aw : Nat} {cs : List Host.Cell}
    (h : TcpRecordOk r aw) : TcpRecordOk (r.touch cs) aw := by
  unfold TcpRecordOk at *
  rw [Record.touch_hdr, Record.touch_st]
  exact ⟨Record.bindingOk_touch h.1, h.2⟩

theorem OwnedFrom.bindingOk {α : Type} {r old : Record α} {aw n : Nat} (h : OwnedFrom r old)
    (ho : old.bindingOk aw n) (m : Nat) : r.bindingOk aw m := by
  obtain ⟨h1, h2⟩ := h
  refine ⟨fun h => absurd (h1.symm.trans h) (by decide), fun _ => ?_⟩
  rcases h2 with h2 | ⟨h2, h3, h4⟩
  · exact h2
  · have := ho.2 (by rw [h4]; decide)
    rw [h2, h3]
    exact this

/-! ### What ISSUE hands to COMMIT -/

/-- An access inside a slice that does not wrap stays inside the address space, and the binding
register holds its first address exactly. -/
theorem State.start_spec {s : State} {n : Nat} (hw : s.wraps = false) (hn : 0 < n)
    (hl : s.off.toNat + n ≤ s.len.toNat) :
    (s.base + s.off).toNat = s.start ∧ s.start + n ≤ 2 ^ s.params.aw := by
  have h1 : ¬ s.wraps = true := by simp [hw]
  rw [State.wraps_iff] at h1
  have h2 : 2 ^ s.params.aw ≤ 2 ^ 64 := Nat.pow_le_pow_right (by omega) (by unfold Params.aw; omega)
  have h3 : s.start + n ≤ 2 ^ s.params.aw := by unfold State.start; omega
  refine ⟨?_, h3⟩
  rw [BitVec.toNat_add]
  unfold State.start at *
  generalize 2 ^ s.params.aw = A at *
  exact Nat.mod_eq_of_lt (by omega)

/-- A decoded TCP view is in order: its options length is what `data_offset` says. -/
theorem tcpOfBytes_spec {m : Memory} {a d : Nat} (hd : d = (tcpOffsetNibble (m.readBytes a 20)).toNat)
    (h5 : 5 ≤ d) :
    (tcpOfBytes (m.readBytes a (4 * d))).optionsLength.toNat = 4 * d - 20 ∧ d < 16 ∧
      ∀ i : Fin 40, 4 * d - 20 ≤ i.val → (tcpOfBytes (m.readBytes a (4 * d))).opt[i] = 0 := by
  have hn : (tcpOffsetNibble (m.readBytes a (4 * d))).toNat = d := by
    rw [tcpOffsetNibble_readBytes m (by omega), hd, tcpOffsetNibble_readBytes m (by omega)]
  have h16 : d < 16 := by rw [hd]; exact BitVec.isLt _
  refine ⟨?_, h16, fun i hi => ?_⟩
  · simp only [tcpOfBytes, hn, BitVec.toNat_ofNat]
    omega
  · simp only [tcpOfBytes, hn, Fin.getElem_fin, Vector.getElem_ofFn]
    rw [if_neg (by omega)]

/-- What ISSUE hands to COMMIT in a machine in order is in order. -/
theorem IssueForm.pendingOk {i : Instr} {s : State} {p : Pending} (hi : s.Inv)
    (h : IssueForm i s p) : PendingOk p s.params.aw := by
  cases h with
  | status st rd h =>
    exact ⟨fun c hc => (by cases hc), fun r hr => (by cases hr), fun r hr => (by cases hr),
      fun _ => ⟨rfl, rfl, rfl, rfl⟩⟩
  | result rd v h =>
    exact ⟨fun c hc => (by cases hc), fun r hr => (by cases hr), fun r hr => (by cases hr),
      fun h => absurd rfl h⟩
  | stores rd bs hlen hin hw h6 ht =>
    refine ⟨fun c hc => ?_, fun r hr => (by cases hr), fun r hr => (by cases hr),
      fun h => absurd rfl h⟩
    have h1 : ¬ s.wraps = true := by simp [hw]
    rw [State.wraps_iff] at h1
    have := cellsAt_addr hc
    unfold State.sliceEnd at hin
    omega
  | ip6Owned rd r h6 ht hr =>
    refine ⟨fun c hc => (by cases hc), fun r hr' => ?_, fun r hr => (by cases hr),
      fun h => absurd rfl h⟩
    cases hr'
    exact ⟨hr.bindingOk hi.ip6 _, rfl⟩
  | tcpOwned rd r h6 ht hr =>
    refine ⟨fun c hc => (by cases hc), fun r hr => (by cases hr), fun r hr' => ?_,
      fun h => absurd rfl h⟩
    cases hr'
    exact ⟨⟨hr.bindingOk hi.tcp.1 _, fun h => absurd (hr.1.symm.trans h) (by decide)⟩, rfl⟩
  | ip6Decoded hi' hw hl =>
    refine ⟨fun c hc => (by cases hc), fun r hr' => ?_, fun r hr => (by cases hr),
      fun h => absurd rfl h⟩
    cases hr'
    obtain ⟨h1, h2⟩ := State.start_spec hw (by omega) hl
    exact ⟨⟨fun _ => ⟨rfl, by rw [show (Record.bind _ _ _).bindLo = s.base + s.off from rfl, h1]; exact h2⟩,
      fun h => absurd rfl h⟩, rfl⟩
  | tcpDecoded hi' d hd h5 hw hl =>
    refine ⟨fun c hc => (by cases hc), fun r hr => (by cases hr), fun r hr' => ?_,
      fun h => absurd rfl h⟩
    cases hr'
    obtain ⟨h1, h2⟩ := State.start_spec hw (show 0 < 4 * d by omega) hl
    obtain ⟨h3, h4, h6⟩ := tcpOfBytes_spec hd h5
    refine ⟨⟨⟨fun _ => ⟨?_, ?_⟩, fun h => absurd rfl h⟩, fun _ => ⟨?_, ?_, ?_⟩⟩, rfl⟩
    · show 4 * d = 20 + (tcpOfBytes _).optionsLength.toNat
      rw [h3]; omega
    · show (s.base + s.off).toNat + (20 + (tcpOfBytes _).optionsLength.toNat) ≤ _
      rw [h1, h3]; omega
    · show (tcpOfBytes _).optionsLength.toNat % 4 = 0
      rw [h3]; omega
    · show (tcpOfBytes _).optionsLength.toNat ≤ 40
      rw [h3]; omega
    · intro j hj
      exact h6 j (h3 ▸ hj)

/-- A decode that ISSUE hands to COMMIT shows the bytes of its read set. -/
theorem IssueForm.viewsOk {i : Instr} {s : State} {p : Pending} (h : IssueForm i s p) :
    PendingViewsOk p s.mem := by
  cases h with
  | status st rd h => exact ⟨fun r hr => (by cases hr), fun r hr => (by cases hr)⟩
  | result rd v h => exact ⟨fun r hr => (by cases hr), fun r hr => (by cases hr)⟩
  | stores rd bs hlen hin hw h6 ht => exact ⟨fun r hr => (by cases hr), fun r hr => (by cases hr)⟩
  | ip6Owned rd r h6 ht hr =>
    refine ⟨fun r hr' hb => ?_, fun r hr => (by cases hr)⟩
    cases hr'
    exact absurd (hr.1.symm.trans hb) (by decide)
  | tcpOwned rd r h6 ht hr =>
    refine ⟨fun r hr => (by cases hr), fun r hr' hb => ?_⟩
    cases hr'
    exact absurd (hr.1.symm.trans hb) (by decide)
  | ip6Decoded hi' hw hl =>
    refine ⟨fun r hr' hb => ?_, fun r hr => (by cases hr)⟩
    cases hr'
    obtain ⟨h1, -⟩ := State.start_spec hw (show 0 < 40 by omega) hl
    refine ⟨?_, fun a ha => ?_⟩
    · unfold Ip6Shows
      simp only [Record.bind]
      rw [h1]
    · rw [Record.covers_iff] at ha
      simp only [Record.bind] at ha
      rw [h1] at ha
      exact mem_addrsFrom.mpr ha.2
  | tcpDecoded hi' d hd h5 hw hl =>
    refine ⟨fun r hr => (by cases hr), fun r hr' hb => ?_⟩
    cases hr'
    obtain ⟨h1, -⟩ := State.start_spec hw (show 0 < 4 * d by omega) hl
    refine ⟨?_, fun a ha => ?_⟩
    · unfold TcpShows
      simp only [Record.bind]
      rw [h1]
    · rw [Record.covers_iff] at ha
      simp only [Record.bind] at ha
      rw [h1] at ha
      exact mem_addrsFrom.mpr ha.2

/-! ### Storing under a view -/

theorem Ip6Shows.congr {m m' : Memory} {r : Record Ip6Header} (h : Ip6Shows m r)
    (hc : ∀ a, r.bindLo.toNat ≤ a → a < r.bindLo.toNat + r.bindN → m'.read a = m.read a) :
    Ip6Shows m' r := by
  unfold Ip6Shows at *
  rw [h]
  congr 1
  exact (Memory.readBytes_congr fun k h2 => hc _ (Nat.le_add_right _ _) (by omega)).symm

theorem TcpShows.congr {m m' : Memory} {r : Record TcpHeader} (h : TcpShows m r)
    (hc : ∀ a, r.bindLo.toNat ≤ a → a < r.bindLo.toNat + r.bindN → m'.read a = m.read a) :
    TcpShows m' r := by
  unfold TcpShows at *
  rw [h]
  congr 1
  exact (Memory.readBytes_congr fun k h2 => hc _ (Nat.le_add_right _ _) (by omega)).symm

/-- A view still fresh after some stores covers none of the bytes stored to (R80). -/
theorem Record.fresh_of_touch {α : Type} {r : Record α} {m : Memory} {cs : List Host.Cell}
    (hb : (r.touch cs).st = .bound) (hs : (r.touch cs).stale = false) :
    r.touch cs = r ∧ r.st = .bound ∧ r.stale = false ∧
      ∀ a, r.bindLo.toNat ≤ a → a < r.bindLo.toNat + r.bindN → (m.writeCells cs).read a = m.read a := by
  rw [Record.touch_st] at hb
  rw [Record.touch_stale, Bool.or_eq_false_iff] at hs
  obtain ⟨h1, h2⟩ := hs
  refine ⟨by rw [Record.touch_eq, h2, Bool.or_false], hb, h1, fun a ha hb' => ?_⟩
  apply Memory.read_writeCells_of_not_mem
  rintro c hc rfl
  rw [List.any_eq_false] at h2
  exact h2 c hc (Record.covers_iff.mpr ⟨hb, ha, hb'⟩)

end Sys2Proof.Machine
end

