-- ==== Sys2Proof/Laws/PerInstr.lean ====
section
/-! SUPPORT. One statement about the encoding of every command, proved constructor by constructor. -/

namespace Sys2Proof.Laws.WordFields

/-- The command word of a command is laid out as R100 and R102 say: `OPC` is its row's number, from
which the row is found again, and every field the row does not use is 0. -/
def Statement (i : Instr) : Prop :=
  Opcode.ofCode? (wordOpc (encode i)) = some i.opcode ∧
    i.opcode.unusedZero (wordSel (encode i)) (wordIdx (encode i)) (wordWid (encode i)) = true

/-- The statement holds of a command whose unused fields are 0. -/
theorem of_fields {i : Instr}
    (h : i.opcode.unusedZero i.fields.1 i.fields.2.1 i.fields.2.2 = true) : Statement i := by
  unfold Statement encode
  rw [wordOpc_commandWord, wordSel_commandWord, wordIdx_commandWord, wordWid_commandWord]
  exact ⟨Opcode.ofCode?_code _, h⟩

theorem nop : Statement .nop := of_fields rfl

theorem ip6Decode : Statement .ip6Decode := of_fields rfl

theorem ip6Encode : Statement .ip6Encode := of_fields rfl

theorem tcpDecode : Statement .tcpDecode := of_fields rfl

theorem tcpEncode : Statement .tcpEncode := of_fields rfl

theorem rdBe16 : Statement .rdBe16 := of_fields rfl

theorem rdBe32 : Statement .rdBe32 := of_fields rfl

theorem rdBe64 : Statement .rdBe64 := of_fields rfl

theorem wrBe16 : Statement .wrBe16 := of_fields rfl

theorem wrBe32 : Statement .wrBe32 := of_fields rfl

theorem wrBe64 : Statement .wrBe64 := of_fields rfl

theorem unpackBits (bo w : Byte) : Statement (.unpackBits bo w) := of_fields rfl

theorem packBits (bo w : Byte) : Statement (.packBits bo w) := of_fields rfl

theorem ip6Clear : Statement .ip6Clear := of_fields rfl

theorem ip6Detach : Statement .ip6Detach := of_fields rfl

theorem ip6FldRd (f : Ip6Field) : Statement (.ip6FldRd f) := of_fields rfl

theorem ip6FldWr (f : Ip6Field) : Statement (.ip6FldWr f) := of_fields rfl

theorem addrRd (r : AddrReg) (w : ViewWidth) (k : Byte) : Statement (.addrRd r w k) := of_fields rfl

theorem addrWr (r : AddrReg) (w : ViewWidth) (k : Byte) : Statement (.addrWr r w k) := of_fields rfl

theorem tcpClear : Statement .tcpClear := of_fields rfl

theorem tcpDetach : Statement .tcpDetach := of_fields rfl

theorem tcpFldRd (f : TcpField) : Statement (.tcpFldRd f) := of_fields rfl

theorem tcpFldWr (f : TcpField) : Statement (.tcpFldWr f) := of_fields rfl

theorem optRd (k : Byte) : Statement (.optRd k) := of_fields rfl

theorem optWr (k : Byte) : Statement (.optWr k) := of_fields rfl

end Sys2Proof.Laws.WordFields
end

