-- ==== Sys2Proof/Tests/Slice0.lean ====
section
/-! SUPPORT. Tests: words of the spec's encoding tables, single steps with the expected values of
95_test_vectors.md (their ids are named), and a witness for the hypotheses of each statement. -/

namespace Sys2Proof.Machine.Tests

/-! ### Small states -/

/-- Reset state with bytes at address 0 and a slice at `BASE = 0`. -/
def st (bytes : List Byte) (len off : Nat) : State :=
  { State.reset with
    mem := Memory.writeCells [] (cellsAt 0 bytes), len := BitVec.ofNat 64 len
    off := BitVec.ofNat 64 off }

/-- The next state, where there is one. -/
def after (o : Host.Outcome State Fault Refusal) : Option State :=
  match o with
  | .next t => some t
  | .fault _ => none
  | .refused _ => none

/-- Part of the state after one command. -/
def out {α : Type} (i : Instr) (s : State) (f : State → α) : Option α := (after (exec i s)).map f

/-- Part of the state after one step. -/
def outStep {α : Type} (s : State) (f : State → α) : Option α := (after (step s)).map f

def setVal (v : Word) (s : State) : State := { s with val := v }

def own6 (s : State) : State := { s with ip6 := { s.ip6 with st := .owned } }

def ownT (s : State) : State := { s with tcp := { s.tcp with st := .owned } }

/-- A machine with a 16-bit buffer address. -/
def aw16 (s : State) : State := { s with params := { s.params with awOver16 := 0 } }

def le (s : State) : State := { s with params := { s.params with viewOrder := .le } }

def zeros (n : Nat) : List Byte := List.replicate n 0

/-- `V1_BYTES` of the vectors. -/
def v1 : List Byte :=
  [0x60, 0, 0, 0, 0, 0x14, 0x06, 0x40, 0x20, 0x01, 0x0D, 0xB8, 0, 0, 0, 0, 0, 0, 0, 0, 0, 0, 0, 1,
    0xFE, 0x80, 0, 0, 0, 0, 0, 0, 0, 0, 0, 0, 0, 0, 0, 2]

/-- `T1_BYTES` of the vectors. -/
def t1 : List Byte :=
  [0x1F, 0x90, 0x00, 0x50, 0x01, 0x02, 0x03, 0x04, 0xA0, 0xB0, 0xC0, 0xD0, 0x60, 0x12, 0xFF, 0xFF,
    0x12, 0x34, 0x00, 0x00, 0x02, 0x04, 0x05, 0xB4]

def m4 : List Byte := [0x1F, 0x90, 0x00, 0x50, 0x01, 0x02, 0x03, 0x04]

def m5 : List Byte := [0x6A, 0xBC, 0xDE, 0xF1]

/-- `V1_BYTES`, decoded. -/
def view6 : State := { st v1 40 0 with ip6 := Record.bind (ip6OfBytes v1) 0 40 }

/-- `T1_BYTES`, decoded. -/
def viewT : State := { st t1 24 0 with tcp := Record.bind (tcpOfBytes t1) 0 24 }

/-- The next event is a host write to `CMD`. -/
def cmdWrite (v : Word) (s : State) : State := { s with todo := [.port (.write .cmd v)] }

/-- A `WR_BE16` between its ISSUE and COMMIT, storing to addresses 0 and 1. -/
def inFlight (ev : Event) : State :=
  { st m4 8 0 with
    todo := [ev]
    pending := some { okPending [] with opc := 0x14, writes := [(0, 0xAA), (1, 0xBB)] } }

/-! ### Well-formedness (R103) -/

theorem test_illFormed_addrRd : (Instr.addrRd .src .w16 8).wellFormed = false := by decide

theorem test_illFormed_addrWr : (Instr.addrWr .dst .w64 2).wellFormed = false := by decide

theorem test_illFormed_optRd : (Instr.optRd 40).wellFormed = false := by decide

theorem test_illFormed_optWr : (Instr.optWr 40).wellFormed = false := by decide

/-! ### Decoding: `OPC<<24 | SEL<<16 | IDX<<8 | WID` with the numbers of R102 -/

theorem test_decode_nop : decodeWord 0x00000000 = .command .nop := by decide

theorem test_decode_ip6Decode : decodeWord 0x01000000 = .command .ip6Decode := by decide

theorem test_decode_ip6Encode : decodeWord 0x02000000 = .command .ip6Encode := by decide

theorem test_decode_tcpDecode : decodeWord 0x03000000 = .command .tcpDecode := by decide

theorem test_decode_tcpEncode : decodeWord 0x04000000 = .command .tcpEncode := by decide

theorem test_decode_rdBe16 : decodeWord 0x10000000 = .command .rdBe16 := by decide

theorem test_decode_rdBe32 : decodeWord 0x11000000 = .command .rdBe32 := by decide

theorem test_decode_rdBe64 : decodeWord 0x12000000 = .command .rdBe64 := by decide

theorem test_decode_wrBe16 : decodeWord 0x14000000 = .command .wrBe16 := by decide

theorem test_decode_wrBe32 : decodeWord 0x15000000 = .command .wrBe32 := by decide

theorem test_decode_wrBe64 : decodeWord 0x16000000 = .command .wrBe64 := by decide

theorem test_decode_unpackBits : decodeWord 0x18000709 = .command (.unpackBits 7 9) := by decide

theorem test_decode_packBits : decodeWord 0x19000702 = .command (.packBits 7 2) := by decide

theorem test_decode_ip6Clear : decodeWord 0x20000000 = .command .ip6Clear := by decide

theorem test_decode_ip6Detach : decodeWord 0x21000000 = .command .ip6Detach := by decide

theorem test_decode_ip6FldRd : decodeWord 0x22030000 = .command (.ip6FldRd .payloadLength) := by decide

theorem test_decode_ip6FldWr : decodeWord 0x23020000 = .command (.ip6FldWr .flowLabel) := by decide

theorem test_decode_addrRd : decodeWord 0x24010103 = .command (.addrRd .dst .w64 1) := by decide

theorem test_decode_addrWr : decodeWord 0x25000201 = .command (.addrWr .src .w16 2) := by decide

theorem test_decode_tcpClear : decodeWord 0x30000000 = .command .tcpClear := by decide

theorem test_decode_tcpDetach : decodeWord 0x31000000 = .command .tcpDetach := by decide

theorem test_decode_tcpFldRd : decodeWord 0x32040000 = .command (.tcpFldRd .dataOffset) := by decide

theorem test_decode_tcpFldWr : decodeWord 0x33060000 = .command (.tcpFldWr .flags) := by decide

theorem test_decode_optRd : decodeWord 0x34002700 = .command (.optRd 39) := by decide

theorem test_decode_optWr : decodeWord 0x35000300 = .command (.optWr 3) := by decide

/-- E3, E2, D7, E4: the four cases of R104. -/
theorem test_decode_illegal :
    decodePort 0x05000000 = .illegal .unknownOpcode ∧ decodePort 0x00000001 = .illegal .unusedField ∧
      decodePort 0x23060000 = .illegal .fieldRange ∧
      decodePort 0x0000000100000000 = .illegal .highBits := by decide

/-- The tables' edges: the last legal value of each used field and the first illegal one (R103). -/
theorem test_decode_edges :
    decodePort 0x22050000 = .command (.ip6FldRd .hopLimit) ∧
      decodePort 0x22060000 = .illegal .fieldRange ∧
      decodePort 0x24000F00 = .command (.addrRd .src .w8 15) ∧
      decodePort 0x24001000 = .illegal .fieldRange ∧
      decodePort 0x24000801 = .illegal .fieldRange ∧ decodePort 0x24020000 = .illegal .fieldRange ∧
      decodePort 0x24000004 = .illegal .fieldRange ∧
      decodePort 0x330A0000 = .command (.tcpFldWr .optionsLength) ∧
      decodePort 0x330B0000 = .illegal .fieldRange ∧ decodePort 0x35002800 = .illegal .fieldRange ∧
      decodePort 0x1900FFFF = .command (.packBits 255 255) ∧
      decodePort 0x19010000 = .illegal .unusedField := by decide

/-! ### Single commands, with the values of the vectors -/

/-- E1. -/
theorem test_nop : out .nop State.reset (fun t => t.status) = some 0x00 := by decide

/-- B1, B5. -/
theorem test_rdBe16 : out .rdBe16 (st m4 8 1) (fun t => t.res) = some 0x9000 := by decide

theorem test_rdBe16_outOfRange :
    out .rdBe16 (st m4 8 7) (fun t => (t.fault, t.res)) = some (0x10000201, 0) := by decide

/-- B2, B3. -/
theorem test_rdBe32 : out .rdBe32 (st m4 8 1) (fun t => t.res) = some 0x90005001 := by decide

theorem test_rdBe64 : out .rdBe64 (st m4 8 0) (fun t => t.res) = some 0x1F90005001020304 := by decide

/-- E8: the slice passes the top of a 16-bit address space. -/
theorem test_rdBe32_wraps :
    out .rdBe32 { aw16 (st [] 0x20 0) with base := 0xFFF0 } (fun t => t.fault) =
      some 0x11000401 := by decide

/-- B6. -/
theorem test_wrBe16 :
    out .wrBe16 (setVal 0xABCD1234 (st (zeros 8) 8 0)) (fun t => t.mem.readBytes 0 3) =
      some [0x12, 0x34, 0x00] := by decide

/-- B7. -/
theorem test_wrBe32 :
    out .wrBe32 (setVal 0x01020304 (st [0x12, 0x34] 8 3)) (fun t => t.mem.readBytes 0 8) =
      some [0x12, 0x34, 0x00, 0x01, 0x02, 0x03, 0x04, 0x00] := by decide

/-- B8, B9. -/
theorem test_wrBe64 :
    out .wrBe64 (setVal 0x0102030405060708 (st [] 8 0)) (fun t => t.mem.readBytes 0 8) =
      some [1, 2, 3, 4, 5, 6, 7, 8] := by decide

theorem test_wrBe64_outOfRange :
    out .wrBe64 (setVal 1 (st m4 8 1)) (fun t => (t.fault, t.mem.readBytes 0 8)) =
      some (0x16000201, m4) := by decide

/-- K3, K17. -/
theorem test_unpackBits : out (.unpackBits 7 9) (st m5 4 0) (fun t => t.res) = some 0xBC := by decide

theorem test_unpackBits_badRange :
    out (.unpackBits 8 0) (st m5 1 5) (fun t => t.fault) = some 0x18000301 := by decide

/-- K8, K16. -/
theorem test_packBits :
    out (.packBits 4 8) (setVal 0x5D (st m5 4 0)) (fun t => t.mem.readBytes 0 4) =
      some [0x65, 0xDC, 0xDE, 0xF1] := by decide

theorem test_packBits_outOfRange :
    out (.packBits 0 16) (st m5 4 3) (fun t => t.fault) = some 0x19000201 := by decide

/-- D1. -/
theorem test_ip6Decode :
    out .ip6Decode (st m5 40 0)
        (fun t => (t.ip6.hdr.version, t.ip6.hdr.trafficClass, t.ip6.hdr.flowLabel)) =
      some (6, 0xAB, 0xCDEF1) := by decide

/-- D4: `OFF` past `LEN`. -/
theorem test_ip6Decode_truncated :
    out .ip6Decode (st m5 40 41) (fun t => (t.status, t.ip6.st)) = some (0x01, .empty) := by decide

/-- D2. -/
theorem test_ip6Encode :
    out .ip6Encode
        { st [] 40 0 with
          ip6 := { State.reset.ip6 with
            st := .owned
            hdr := { Ip6Header.zero with version := 6, trafficClass := 0xAB, flowLabel := 0xCDEF1 } } }
        (fun t => t.mem.readBytes 0 5) = some [0x6A, 0xBC, 0xDE, 0xF1, 0x00] := by decide

/-- D8: encoding a view into its own bytes leaves it stale. -/
theorem test_ip6Encode_stale :
    out .ip6Encode view6 (fun t => (t.status, t.ip6.stale, t.mem.readBytes 0 40)) =
      some (0x00, true, v1) := by decide

/-- T1. -/
theorem test_tcpDecode :
    out .tcpDecode (st t1 24 0)
        (fun t => (t.tcp.hdr.sequenceNumber, t.tcp.hdr.flags, t.tcp.hdr.optionsLength, t.tcp.bindN)) =
      some (0x01020304, 0x12, 4, 24) := by decide

/-- T3. -/
theorem test_tcpDecode_badOffset :
    out .tcpDecode (st (zeros 12 ++ [0x40]) 20 0) (fun t => (t.status, t.tcp.st)) =
      some (0x03, .empty) := by decide

/-- T11 under `VERBATIM` and `ZERO`. -/
theorem test_tcpEncode :
    out .tcpEncode
        { viewT with
          tcp := { State.reset.tcp with st := .owned, hdr := { TcpHeader.zero with reserved := 0xF } } }
        (fun t => t.mem.read 12) = some 0x5F := by decide

theorem test_tcpEncode_zero :
    out .tcpEncode
        { viewT with
          params := { Params.default with rsvd := .zero }
          tcp := { State.reset.tcp with st := .owned, hdr := { TcpHeader.zero with reserved := 0xF } } }
        (fun t => t.mem.read 12) = some 0x50 := by decide

/-- D10. -/
theorem test_ip6Clear :
    out .ip6Clear view6 (fun t => (t.ip6.hdr.version, t.ip6.st, t.ip6.bindN)) =
      some (0, .owned, 0) := by decide

/-- D9. -/
theorem test_ip6Detach :
    out .ip6Detach view6 (fun t => (t.ip6.hdr.version, t.ip6.st, t.ip6.bindN)) =
      some (6, .owned, 0) := by decide

/-- S1. -/
theorem test_ip6FldRd : out (.ip6FldRd .hopLimit) view6 (fun t => t.res) = some 0x40 := by decide

/-- S6, D5. -/
theorem test_ip6FldWr :
    out (.ip6FldWr .flowLabel) (setVal 0x123456 (own6 State.reset)) (fun t => t.ip6.hdr.flowLabel) =
      some 0x23456 := by decide

theorem test_ip6FldWr_view :
    out (.ip6FldWr .hopLimit) view6 (fun t => t.fault) = some 0x23000601 := by decide

/-- A4 under `BE` and `LE`. -/
theorem test_addrRd : out (.addrRd .src .w32 0) view6 (fun t => t.res) = some 0x20010DB8 := by decide

theorem test_addrRd_le :
    out (.addrRd .src .w32 0) (le view6) (fun t => t.res) = some 0xB80D0120 := by decide

/-- A11 under `BE` and `LE`. -/
theorem test_addrWr :
    out (.addrWr .src .w64 0) (setVal 0x1122334455667788 (own6 view6))
        (fun t => t.ip6.hdr.src.toList.take 9) =
      some [0x11, 0x22, 0x33, 0x44, 0x55, 0x66, 0x77, 0x88, 0x00] := by decide

theorem test_addrWr_le :
    out (.addrWr .src .w64 0) (le (setVal 0x1122334455667788 (own6 view6)))
        (fun t => t.ip6.hdr.src.toList.take 9) =
      some [0x88, 0x77, 0x66, 0x55, 0x44, 0x33, 0x22, 0x11, 0x00] := by decide

/-- S4 starts here: the record is owned and all zero. -/
theorem test_tcpClear :
    out .tcpClear viewT (fun t => (t.tcp.st, t.tcp.hdr.window, t.tcp.bindN)) =
      some (.owned, 0, 0) := by decide

/-- T19. -/
theorem test_tcpDetach :
    out .tcpDetach viewT (fun t => (t.tcp.st, t.tcp.hdr.window, t.tcp.bindN)) =
      some (.owned, 0xFFFF, 0) := by decide

/-- T1, T14. -/
theorem test_tcpFldRd : out (.tcpFldRd .dataOffset) viewT (fun t => t.res) = some 6 := by decide

theorem test_tcpFldRd_undefined :
    out (.tcpFldRd .dataOffset)
        (ownT { viewT with tcp := { viewT.tcp with hdr := { TcpHeader.zero with optionsLength := 2 } } })
        (fun t => t.fault) = some 0x32000901 := by decide

/-- T18, T16. -/
theorem test_tcpFldWr :
    out (.tcpFldWr .window) (setVal 0x1FFFF (ownT viewT)) (fun t => t.tcp.hdr.window) =
      some 0xFFFF := by decide

theorem test_tcpFldWr_view :
    out (.tcpFldWr .dataOffset) viewT (fun t => t.fault) = some 0x33000601 := by decide

/-- T1, T2. -/
theorem test_optRd : out (.optRd 3) viewT (fun t => t.res) = some 0xB4 := by decide

theorem test_optRd_pastLength : out (.optRd 4) viewT (fun t => t.fault) = some 0x34000201 := by decide

/-- P2, step 13: any of the 40 bytes of an owned record can be written. -/
theorem test_optWr :
    out (.optWr 39) (setVal 0x1B4 (ownT viewT)) (fun t => (t.tcp.hdr.optByte 39, t.tcp.hdr.optByte 3)) =
      some (0xB4, 0xB4) := by decide

/-! ### The port, flags and memory -/

/-- E6 and R241: a port write in the faulted state, truncated to `AW` bits. -/
theorem test_port_write :
    outStep { aw16 State.reset with fault := 0x05000101, todo := [.port (.write .base 0x10040)] }
        (fun t => (t.base, t.pos)) = some (0x40, 1) := by decide

/-- R243: `CMD` reads zero-extended. -/
theorem test_port_read :
    outStep { State.reset with cmd := 0x80000001, todo := [.port (.read .cmd)] }
        (fun t => t.portData) = some 0x80000001 := by decide

/-- R36: bit 1 of `flags` is SYN and bit 4 is ACK; T1's 0x12 is both, and not FIN. -/
theorem test_flags :
    viewT.tcp.hdr.flag .syn = true ∧ viewT.tcp.hdr.flag .ack = true ∧
      viewT.tcp.hdr.flag .fin = false := by decide

/-- R24: the fields of a fault record. -/
theorem test_fault_fields :
    let t := State.reset.raise 0x23 .readOnlyView
    t.faultCause = 0x06 ∧ t.faultOpc = 0x23 ∧ t.faultReserved = 0 ∧ t.faulted = true := by decide

/-- The canonical form: rising addresses, no zero byte listed, and a zero written removes one. -/
theorem test_memory_form :
    Memory.wf [(3, 1), (5, 2)] = true ∧ Memory.wf [(5, 2), (3, 1)] = false ∧
      Memory.wf [(3, 0)] = false ∧ Memory.write [(3, 1)] 3 0 = [] := by decide

/-- Reset memory lists nothing, and that is canonical. -/
theorem test_reset_memory : State.reset.memWf = true := by decide

/-- R107: `WF6 hop_limit, 1` is `SET VAL, 1` and then the command word 0x23050000. -/
theorem test_assembler :
    (Stmt.wf6 .hopLimit 1).accesses = [.write .val 1, .write .cmd 0x23050000] := by decide

/-- A command word placed where the next step takes it runs as the first command after reset. -/
theorem test_placed_command :
    outStep (State.reset.withFetchWord 32 0x20000000) (fun t => (t.ip6.st, t.cmd)) =
      some (.owned, 0x20000000) := by decide

/-! ### Witnesses: states and operands that meet the hypotheses of each statement

Where the statement has clauses on one input, a witness for each clause stands at the edge of its
range. -/

theorem test_witness_DecodeOfEncode :
    (Instr.addrWr .dst .w64 1).wellFormed = true ∧ (Instr.optRd 39).wellFormed = true := by decide

theorem test_witness_DecodedWordIsItsEncoding :
    decodeWord 0x34002700 = .command (.optRd 39) ∧ decodeWord 0x1800FFFF = .command (.unpackBits 255 255) := by
  decide

theorem test_witness_StepRunsDecodedCommand :
    let s := cmdWrite 0x11000000 (st m4 8 1)
    s.pending = none ∧ s.faulted = false ∧ s.todo = .port (.write .cmd 0x11000000) :: [] ∧
      decodePort 0x11000000 = .command .rdBe32 := by decide

theorem test_witness_IllegalWordFaults :
    let s := cmdWrite 0x05000000 State.reset
    s.pending = none ∧ s.faulted = false ∧ s.todo = .port (.write .cmd 0x05000000) :: [] ∧
      decodePort 0x05000000 = .illegal .unknownOpcode := by decide

theorem test_witness_FaultedBlockIgnoresCommands :
    let s := cmdWrite 0x20000000 { State.reset with fault := 0x05000101, status := 0xFF }
    s.pending = none ∧ s.faulted = true ∧ s.todo = .port (.write .cmd 0x20000000) :: [] := by decide

/-- Each port register but `CMD`, written with a value past a 16-bit `AW`. -/
theorem test_witness_HostWritesToPortRegisters :
    ∀ r ∈ [PortReg.base, .len, .off, .val, .res, .status, .fault],
      let s := { aw16 State.reset with todo := [.port (.write r 0x10000)] }
      s.pending = none ∧ r ≠ .cmd ∧ s.todo = .port (.write r 0x10000) :: [] := by decide

theorem test_witness_HostReadsHaveNoSideEffect :
    let s := { State.reset with todo := [.port (.read .fault)] }
    s.pending = none ∧ s.todo = .port (.read .fault) :: [] := by decide

theorem test_witness_NopWritesStatusOnly :
    State.reset.ready = true ∧ ({ State.reset with fault := 0x05000101 } : State).faulted = true ∧
      (0x00FFFFFF : BitVec 32).toNat < 2 ^ 24 ∧ (0x00FFFFFF : BitVec 32) ≠ 0 := by decide

/-- The last offset at which each width fits the slice (R130). -/
theorem test_witness_BigEndianReadsReturnTheirBytes :
    (Instr.rdBe16, 2) ∈ bigEndianReads ∧ (Instr.rdBe32, 4) ∈ bigEndianReads ∧
      (Instr.rdBe64, 8) ∈ bigEndianReads ∧ (st m4 8 6).ready = true ∧
      (st m4 8 6).canAccess 2 = true ∧ (st m4 8 4).canAccess 4 = true ∧
      (st m4 8 0).canAccess 8 = true := by decide

theorem test_witness_BigEndianWritesStoreTheirBytes :
    (Instr.wrBe16, 2) ∈ bigEndianWrites ∧ (Instr.wrBe32, 4) ∈ bigEndianWrites ∧
      (Instr.wrBe64, 8) ∈ bigEndianWrites ∧ (st m4 8 6).ready = true ∧
      (st m4 8 6).canAccess 2 = true ∧ (st m4 8 4).canAccess 4 = true ∧
      (st m4 8 0).canAccess 8 = true ∧ (st m4 8 0).memWf = true := by decide

theorem test_witness_MixedWidthReadsAgree :
    ∃ s t v : State, s.ready = true ∧ s.canAccess 8 = true ∧ exec .rdBe64 s = .next t ∧
      exec .rdBe16 { s with off := s.off + 2 } = .next v :=
  ⟨st m4 8 0, _, _, by decide, by decide, rfl, rfl⟩

/-- A slice one byte past the top, and a slice up to the top with one byte too few, for a read and for
a bit range over two bytes. -/
theorem test_witness_ByteOrderRangeFaults :
    let s := { aw16 (st [] 0x11 0) with base := 0xFFF0 }
    let u := { aw16 (st [] 0x10 0x0F) with base := 0xFFF0 }
    ((Instr.rdBe16, 2) ∈ bigEndianReads ++ bigEndianWrites ∧
      (0 : Byte).toNat ≤ 7 ∧ 1 ≤ (9 : Byte).toNat ∧ (0 : Byte).toNat + (9 : Byte).toNat ≤ 16 ∧
      2 = if (0 : Byte).toNat + (9 : Byte).toNat ≤ 8 then 1 else 2) ∧
      s.faulted = false ∧ 2 ^ s.params.aw < s.base.toNat + s.len.toNat ∧ u.faulted = false ∧
      u.base.toNat + u.len.toNat ≤ 2 ^ u.params.aw ∧ u.len.toNat < u.off.toNat + 2 := by decide

/-- Ranges that just fit one byte, just need two, and just fill both. -/
theorem test_witness_UnpackReturnsTheBitGroup :
    ∀ x ∈ [((4 : Byte), (4 : Byte), 3), (7, 2, 2), (0, 16, 2)],
      x.1.toNat ≤ 7 ∧ 1 ≤ x.2.1.toNat ∧ x.1.toNat + x.2.1.toNat ≤ 16 ∧
        (st m5 4 x.2.2).ready = true ∧
        (st m5 4 x.2.2).canAccess (if x.1.toNat + x.2.1.toNat ≤ 8 then 1 else 2) = true := by decide

theorem test_witness_PackReplacesTheBitGroup :
    ∀ x ∈ [((4 : Byte), (4 : Byte), 3), (7, 2, 2), (0, 16, 2)],
      x.1.toNat ≤ 7 ∧ 1 ≤ x.2.1.toNat ∧ x.1.toNat + x.2.1.toNat ≤ 16 ∧
        (st m5 4 x.2.2).ready = true ∧ (st m5 4 x.2.2).memWf = true ∧
        (st m5 4 x.2.2).canAccess (if x.1.toNat + x.2.1.toNat ≤ 8 then 1 else 2) = true := by decide

/-- K13, K15, K14: each way a range is not legal, at its edge. -/
theorem test_witness_BadBitRangeFaultsFirst :
    State.reset.faulted = false ∧ 7 < (8 : Byte).toNat ∧ (0 : Byte).toNat = 0 ∧
      16 < (4 : Byte).toNat + (13 : Byte).toNat := by decide

/-- A view of the bytes from 1 on, and a bit range about to be packed into bytes 0 and 1. -/
def viewAt1 : State := { st v1 40 0 with ip6 := Record.bind Ip6Header.zero 1 40 }

/-- A range over two bytes where the second one alone is in a view. -/
theorem test_witness_PackThenUnpack_secondByte :
    ∃ t : State, viewAt1.ready = true ∧ viewAt1.memWf = true ∧
      (4 : Byte).toNat + (12 : Byte).toNat ≤ 16 ∧
      viewAt1.canAccess (if (4 : Byte).toNat + (12 : Byte).toNat ≤ 8 then 1 else 2) = true ∧
      exec (.packBits 4 12) viewAt1 = .next t ∧
      1 < (if (4 : Byte).toNat + (12 : Byte).toNat ≤ 8 then 1 else 2) ∧
      viewAt1.ip6.covers (viewAt1.base.toNat + viewAt1.off.toNat + 0) = false ∧
      viewAt1.ip6.covers (viewAt1.base.toNat + viewAt1.off.toNat + 1) = true :=
  ⟨_, by decide, by decide, by decide, by decide, rfl, by decide, by decide, by decide⟩

/-- A range in one byte and one just after it over both, with a view of those bytes. -/
theorem test_witness_PackThenUnpack :
    ∃ t : State, view6.ready = true ∧ view6.memWf = true ∧
      view6.canAccess (if (0 : Byte).toNat + (4 : Byte).toNat ≤ 8 then 1 else 2) = true ∧
      exec (.packBits 0 4) view6 = .next t ∧
      view6.canAccess (if (4 : Byte).toNat + (12 : Byte).toNat ≤ 8 then 1 else 2) = true ∧
      (0 : Byte).toNat + (4 : Byte).toNat ≤ (4 : Byte).toNat ∧
      view6.ip6.covers (view6.base.toNat + view6.off.toNat) = true :=
  ⟨_, by decide, by decide, by decide, rfl, by decide, by decide, by decide⟩

theorem test_witness_Ip6DecodeBindsTheHeader :
    (st v1 40 0).ready = true ∧ (st v1 40 0).canAccess 40 = true := by decide

/-- 39 bytes available, with an owned record and with a view. -/
theorem test_witness_Ip6ShortSliceStatuses :
    ∀ s ∈ [own6 (st v1 39 0), { view6 with len := 39 }],
      s.ready = true ∧ s.base.toNat + s.len.toNat ≤ 2 ^ s.params.aw ∧
        s.len.toNat < s.off.toNat + 40 ∧
        (s.ip6.st = .owned ∨ s.ip6.st = .bound ∧ s.ip6.stale = false) := by decide

theorem test_witness_Ip6EncodeWritesTheHeader :
    ∀ s ∈ [own6 (st v1 40 0), view6],
      s.ready = true ∧ s.canAccess 40 = true ∧ s.memWf = true ∧
        (s.ip6.st = .owned ∨ s.ip6.st = .bound ∧ s.ip6.stale = false) := by decide

theorem test_witness_Ip6RoundTrip :
    (own6 (st v1 40 0)).ready = true ∧ (own6 (st v1 40 0)).canAccess 40 = true ∧
      (own6 (st v1 40 0)).memWf = true ∧ (own6 (st v1 40 0)).ip6.st = .owned := by decide

theorem test_witness_ClearsMakeOwnedZeroRecords : view6.ready = true ∧ viewT.ready = true := by decide

/-- A stale view of each kind. -/
def stale6 : State := { view6 with ip6 := { view6.ip6 with stale := true } }

def staleT : State := { viewT with tcp := { viewT.tcp with stale := true } }

theorem test_witness_DetachesMakeOwnedCopies :
    (view6.ready = true ∧ view6.ip6.st = .bound ∧ view6.ip6.stale = false) ∧
      ((own6 view6).ready = true ∧ (own6 view6).ip6.st = .owned) ∧
      (State.reset.ready = true ∧ State.reset.ip6.st = .empty ∧ State.reset.tcp.st = .empty) ∧
      (stale6.ready = true ∧ stale6.ip6.st = .bound ∧ stale6.ip6.stale = true) ∧
      (viewT.ready = true ∧ viewT.tcp.st = .bound ∧ viewT.tcp.stale = false) ∧
      ((ownT viewT).ready = true ∧ (ownT viewT).tcp.st = .owned) ∧
      staleT.ready = true ∧ staleT.tcp.st = .bound ∧ staleT.tcp.stale = true := by decide

theorem test_witness_Ip6FieldReadReturnsTheField :
    view6.ready = true ∧ view6.ip6.st = .bound ∧ view6.ip6.stale = false := by decide

theorem test_witness_Ip6FieldWriteTruncates :
    (own6 view6).ready = true ∧ (own6 view6).ip6.st = .owned := by decide

/-- The last element of each view width. -/
theorem test_witness_AddrReadReturnsTheElement :
    view6.ready = true ∧ view6.ip6.st = .bound ∧ view6.ip6.stale = false ∧
      ∀ x ∈ [(ViewWidth.w8, (15 : Byte)), (.w16, 7), (.w32, 3), (.w64, 1)],
        x.2.toNat < 16 / x.1.bytes := by decide

theorem test_witness_AddrWriteReplacesTheElement :
    (own6 view6).ready = true ∧ (own6 view6).ip6.st = .owned ∧
      ∀ x ∈ [(ViewWidth.w8, (15 : Byte)), (.w16, 7), (.w32, 3), (.w64, 1)],
        x.2.toNat < 16 / x.1.bytes := by decide

/-- A 64-bit element written, its last byte and the 16-bit element just past it read. -/
theorem test_witness_AddrWriteThenRead :
    ∃ s t : State, s.ready = true ∧ s.ip6.st = .owned ∧ exec (.addrWr .src .w64 0) s = .next t ∧
      (7 : Byte).toNat = ViewWidth.w64.bytes * (0 : Byte).toNat + 7 ∧
      (15 : Fin 16).val = 8 * 1 + 7 ∧
      (4 : Byte).toNat < 16 / ViewWidth.w16.bytes ∧
      ViewWidth.w64.bytes * (0 : Byte).toNat + ViewWidth.w64.bytes ≤
        ViewWidth.w16.bytes * (4 : Byte).toNat :=
  ⟨own6 view6, _, by decide, by decide, rfl, by decide, by decide, by decide, by decide⟩

/-- The shortest and the longest header. -/
theorem test_witness_TcpDecodeBindsTheHeader :
    ∀ x ∈ [(st (zeros 12 ++ [0x50]) 20 0, 5), (st (zeros 12 ++ [0xF0]) 60 0, 15)],
      x.2 = (x.1.mem.read (x.1.base.toNat + x.1.off.toNat + 12)).toNat / 16 ∧ x.1.ready = true ∧
        5 ≤ x.2 ∧ x.1.canAccess (4 * x.2) = true := by decide

/-- T4, T3 and T5: each status, at the edge of its clause. -/
theorem test_witness_TcpDecodeStatuses :
    (∀ s ∈ [st t1 19 0, st (zeros 12 ++ [0x40]) 20 0, st t1 23 0],
      s.ready = true ∧ s.base.toNat + s.len.toNat ≤ 2 ^ s.params.aw) ∧
      (st t1 19 0).len.toNat < (st t1 19 0).off.toNat + 20 ∧
      (st (zeros 12 ++ [0x40]) 20 0).canAccess 20 = true ∧
      ((st (zeros 12 ++ [0x40]) 20 0).mem.read 12).toNat / 16 < 5 ∧
      (st t1 23 0).canAccess 20 = true ∧ 5 ≤ ((st t1 23 0).mem.read 12).toNat / 16 ∧
      (st t1 23 0).len.toNat < (st t1 23 0).off.toNat + 4 * (((st t1 23 0).mem.read 12).toNat / 16) := by
  decide

/-- An owned record of options length `ol`, and a slice of `len` bytes. -/
def ownOl (ol : BitVec 16) (len : Nat) : State :=
  { st [] len 0 with
    tcp := { State.reset.tcp with st := .owned, hdr := { TcpHeader.zero with optionsLength := ol } } }

theorem test_witness_TcpEncodeWritesTheHeader :
    ∀ x ∈ [(ownOl 0 20, 0), (ownOl 40 60, 40)],
      x.2 = x.1.tcp.hdr.optionsLength.toNat ∧ x.2 % 4 = 0 ∧ x.2 ≤ 40 ∧ x.1.ready = true ∧
        x.1.canAccess (20 + x.2) = true ∧ x.1.memWf = true ∧ x.1.tcp.st = .owned := by decide

/-- Options lengths 2 and 44, and one byte too few for 40. -/
theorem test_witness_TcpEncodeStatuses :
    (∀ s ∈ [ownOl 2 64, ownOl 44 64, ownOl 40 59],
      s.ready = true ∧ s.tcp.st = .owned ∧ s.base.toNat + s.len.toNat ≤ 2 ^ s.params.aw) ∧
      (ownOl 2 64).tcp.hdr.optionsLength.toNat % 4 ≠ 0 ∧
      40 < (ownOl 44 64).tcp.hdr.optionsLength.toNat ∧
      (ownOl 40 59).len.toNat <
        (ownOl 40 59).off.toNat + (20 + (ownOl 40 59).tcp.hdr.optionsLength.toNat) := by decide

theorem test_witness_TcpEncodeDecodeRoundTrip :
    let s := { ownOl 40 60 with params := { Params.default with rsvd := .zero } }
    40 = s.tcp.hdr.optionsLength.toNat ∧ 40 % 4 = 0 ∧
      (s.params.rsvd = .zero → s.tcp.hdr.reserved = 0) ∧ s.ready = true ∧
      s.canAccess (20 + 40) = true ∧ s.memWf = true ∧ s.tcp.st = .owned := by decide

/-- The clause of `data_offset` while undefined, and the other one. -/
theorem test_witness_TcpFieldReadReturnsTheField :
    (ownOl 41 0).ready = true ∧ (ownOl 41 0).tcp.st = .owned ∧
      ¬((ownOl 41 0).tcp.hdr.optionsLength.toNat % 4 = 0 ∧
        (ownOl 41 0).tcp.hdr.optionsLength.toNat ≤ 40) ∧
      viewT.ready = true ∧ viewT.tcp.st = .bound ∧ viewT.tcp.stale = false ∧
      viewT.tcp.hdr.optionsLength.toNat % 4 = 0 ∧ viewT.tcp.hdr.optionsLength.toNat ≤ 40 := by decide

theorem test_witness_TcpFieldWriteTruncates :
    (ownT viewT).ready = true ∧ (ownT viewT).tcp.st = .owned := by decide

/-- The first byte past a view's options, and the last byte of an owned record. -/
theorem test_witness_OptReadReturnsTheByte :
    (4 : Fin 40).val = (4 : Byte).toNat ∧ viewT.ready = true ∧ viewT.tcp.st = .bound ∧
      viewT.tcp.stale = false ∧ viewT.tcp.hdr.optionsLength.toNat ≤ (4 : Byte).toNat ∧
      (39 : Fin 40).val = (39 : Byte).toNat ∧ (ownT viewT).ready = true ∧
      (ownT viewT).tcp.st = .owned := by decide

theorem test_witness_OptWriteReplacesTheByte :
    (39 : Byte).toNat ≤ 39 ∧ (ownT viewT).ready = true ∧ (ownT viewT).tcp.st = .owned := by decide

/-- A command and a record for each of the six clauses. -/
theorem test_witness_RecordChecksFault :
    (State.reset.faulted = false ∧ writesIp6 (.addrWr .dst .w64 1) = true ∧
      State.reset.ip6.st = .empty) ∧
    (stale6.faulted = false ∧ readsIp6 .ip6Encode = true ∧ stale6.ip6.st = .bound ∧
      stale6.ip6.stale = true) ∧
    (view6.faulted = false ∧ writesIp6 (.ip6FldWr .version) = true ∧ view6.ip6.st = .bound) ∧
    (readsTcp (.optRd 39) = true ∧ State.reset.tcp.st = .empty) ∧
    (staleT.faulted = false ∧ readsTcp .tcpEncode = true ∧ staleT.tcp.st = .bound ∧
      staleT.tcp.stale = true) ∧
    viewT.faulted = false ∧ writesTcp (.optWr 39) = true ∧ viewT.tcp.st = .bound := by decide

theorem test_witness_FaultEntryIsPrecise :
    ∃ s t : State, s.faulted = false ∧ exec .rdBe16 s = .next t ∧ t.faulted = true :=
  ⟨st m4 8 7, _, by decide, rfl, by decide⟩

theorem test_witness_ErrorStatusWritesStatusOnly :
    ∃ s t : State, s.ready = true ∧ exec .ip6Decode s = .next t ∧ t.status ≠ 0x00 ∧
      t.faulted = false :=
  ⟨st v1 39 0, _, by decide, rfl, by decide, by decide⟩

/-- A slice one byte past the top, with commands of each of the four clauses. -/
theorem test_witness_WrappingSliceFaults :
    let s := { aw16 (own6 (ownT (st [] 0x11 0))) with base := 0xFFF0 }
    s.faulted = false ∧ 2 ^ s.params.aw < s.base.toNat + s.len.toNat ∧ s.ip6.st = .owned ∧
      Instr.tcpDecode ∈ [Instr.ip6Decode, .tcpDecode, .rdBe16, .rdBe32, .rdBe64, .wrBe16, .wrBe32,
        .wrBe64] ∧
      s.tcp.st = .owned ∧ (7 : Byte).toNat ≤ 7 ∧ 1 ≤ (9 : Byte).toNat ∧
      (7 : Byte).toNat + (9 : Byte).toNat ≤ 16 := by decide

/-- A slice over device memory, and a slice whose byte 1 is not backed. -/
theorem test_witness_UnadmittedMemoryStops :
    let s := { st m4 8 0 with map := [{ base := 7, size := 1, kind := .sideEffects }] }
    let u := { st m4 8 0 with map := [{ base := 1, size := 1, kind := .absent }] }
    (Instr.rdBe16, 2) ∈ bigEndianReads ++ bigEndianWrites ∧ s.faulted = false ∧
      s.base.toNat + s.len.toNat ≤ 2 ^ s.params.aw ∧ s.off.toNat + 2 ≤ s.len.toNat ∧
      s.slicePlain = false ∧ u.faulted = false ∧ u.base.toNat + u.len.toNat ≤ 2 ^ u.params.aw ∧
      u.off.toNat + 2 ≤ u.len.toNat ∧ u.slicePlain = true ∧
      u.hits .absent (u.base.toNat + u.off.toNat) 2 = true := by decide

theorem test_witness_FirstFaultStays :
    ∃ s t : State, s.faulted = true ∧ s.pending = none ∧ step s = .next t :=
  ⟨cmdWrite 0 { State.reset with fault := 0x05000101 }, _, by decide, by decide, rfl⟩

theorem test_witness_CommandsKeepOperands :
    ∃ t : State, exec .wrBe64 (st m4 8 0) = .next t := ⟨_, rfl⟩

theorem test_witness_OnlyReadCommandsWriteRes :
    (∃ t : State, exec .wrBe64 (st m4 8 0) = .next t ∧ writesRes .wrBe64 = false) ∧
      ∃ t : State, exec .rdBe16 (st m4 8 7) = .next t ∧ t.faulted = true :=
  ⟨⟨_, rfl, by decide⟩, ⟨_, rfl, by decide⟩⟩

theorem test_witness_CommandsStoreOnlyTheirBytes :
    ∃ t : State, exec .wrBe16 (st m4 8 2) = .next t ∧ storedBytes (st m4 8 2) .wrBe16 = 2 :=
  ⟨_, rfl, rfl⟩

/-- A command that stores nothing, and one whose store makes a view stale. -/
theorem test_witness_RecordsChangeOnlyByTheirCommands :
    (∃ t : State, exec .rdBe16 view6 = .next t ∧ changesIp6 .rdBe16 = false ∧
      changesTcp .rdBe16 = false) ∧
      ∃ t : State, exec .wrBe16 viewAt1 = .next t ∧ changesIp6 .wrBe16 = false ∧
        changesTcp .wrBe16 = false ∧ t.ip6.stale ≠ viewAt1.ip6.stale :=
  ⟨⟨_, rfl, by decide, by decide⟩, ⟨_, rfl, by decide, by decide, by decide⟩⟩

/-- A store to the last byte of a view. -/
theorem test_witness_StoresMarkViewsStale :
    ∃ t : State, ({ view6 with off := 38 } : State).ready = true ∧
      exec .wrBe16 { view6 with off := 38 } = .next t ∧ t.status = 0x00 ∧
      0 < storedBytes view6 .wrBe16 :=
  ⟨_, by decide, rfl, by decide, by decide⟩

/-- A `WR_BE16` left between its phases; then no more events, and then a host access. -/
theorem test_witness_CommitIsTheWholeEffect :
    ∃ (s t : State) (p : Pending), s.pending = none ∧ exec .wrBe16 s = .next t ∧
      t.pending = some p ∧ ({ s with todo := [] } : State).interposed = false ∧
      ({ s with todo := [.port (.read .res)] } : State).interposed = false :=
  ⟨{ st m4 8 0 with todo := [.during (.read 0)] }, _, _, by decide, rfl, rfl, by decide, by decide⟩

/-- A write into the write set, and one outside both sets. -/
theorem test_witness_AgentWriteRaces :
    ∀ a ∈ [1, 2], ∃ p, (inFlight (.during (.write a 0x55))).pending = some p ∧
      (inFlight (.during (.write a 0x55))).todo = .during (.write a 0x55) :: [] ∧
      (inFlight (.during (.write a 0x55))).isBufferByte a = true ∧
      (inFlight (.during (.write a 0x55))).memWf = true := by
  intro a ha
  refine ⟨_, rfl, rfl, ?_, rfl⟩
  revert a
  decide

theorem test_witness_RacedCommandFaults :
    ∃ (s : State) (p : Pending), s.pending = some p ∧ p.raced = true ∧ p.status = .ok ∧
      s.interposed = false :=
  ⟨{ st m4 8 0 with pending := some { okPending [0] with raced := true } }, _, rfl, rfl, rfl,
    by decide⟩

/-- A read inside the write set, and one outside it. -/
theorem test_witness_AgentReadsOldOrNew :
    ∀ a ∈ [1, 2], ∃ p, (inFlight (.during (.read a))).pending = some p ∧
      (inFlight (.during (.read a))).todo = .during (.read a) :: [] ∧
      (inFlight (.during (.read a))).isBufferByte a = true := by
  intro a ha
  refine ⟨_, rfl, rfl, ?_⟩
  revert a
  decide

/-- A write to the last byte of a view and one just past it, between commands and during one. -/
theorem test_witness_AgentWriteMarksViewsStale :
    ∀ a ∈ [39, 40],
      let s := { view6 with todo := [.outside (.write a 0)] }
      let u := { view6 with todo := [.during (.write a 0)], pending := some (okPending [0]) }
      s.pending = none ∧ s.todo = .outside (.write a 0) :: [] ∧ s.isBufferByte a = true ∧
        s.memWf = true ∧ u.pending ≠ none ∧ u.todo = .during (.write a 0) :: [] ∧
        u.isBufferByte a = true ∧ u.memWf = true := by decide

/-- R306: COMMIT of a raced store into a view's bytes leaves the view's binding as it was. -/
theorem test_race_keeps_records :
    outStep
        { view6 with
          pending := some { okPending [] with opc := 0x14, writes := [(0, 0xAA)], raced := true } }
        (fun t => (t.fault, t.ip6.stale, t.draws)) = some (0x14000A01, false, 1) := by decide

theorem test_witness_ResetRestoresTheBlock :
    (inFlight (.during .reset)).todo = .during .reset :: [] ∧
      ({ view6 with todo := [.outside .reset] } : State).pending = none := by decide

/-- A fresh view, and a `WR_BE16` into its bytes about to be issued. -/
def viewStore : State := cmdWrite 0x14000000 view6

/-- That state is in order. -/
theorem test_viewStore_inv : viewStore.Inv where
  base := by decide
  len := by decide
  off := by decide
  memWf := by decide
  memBelow := by decide
  outcome := ⟨fun h => absurd h (by decide), fun _ => ⟨rfl, .ok, rfl⟩⟩
  ip6 := ⟨fun _ => ⟨rfl, by decide⟩, fun h => absurd rfl h⟩
  tcp := ⟨⟨fun h => absurd h (by decide), fun _ => ⟨rfl, rfl⟩⟩, fun h => absurd h (by decide)⟩
  pending := fun p h => absurd h (by simp [viewStore, cmdWrite, view6, st, State.reset, State.resetWith])

/-- The same view shows the bytes it is bound to. -/
theorem test_viewStore_valid : viewStore.ViewsValid where
  ip6 := fun _ _ _ => by unfold Ip6Shows; decide
  tcp := fun _ h => absurd h (by decide)
  pending := fun p h => absurd h (by simp [viewStore, cmdWrite, view6, st, State.reset, State.resetWith])

theorem test_witness_EveryStepKeepsInv : ∃ t : State, viewStore.Inv ∧ step viewStore = .next t :=
  ⟨_, test_viewStore_inv, rfl⟩

theorem test_witness_EveryStepKeepsViewsValid :
    ∃ t : State, viewStore.Inv ∧ viewStore.ViewsValid ∧ step viewStore = .next t :=
  ⟨_, test_viewStore_inv, test_viewStore_valid, rfl⟩

theorem test_witness_ParametersNeverChange : ∃ t : State, step viewStore = .next t := ⟨_, rfl⟩

end Sys2Proof.Machine.Tests
end

section
/-! PROOFS (00_scope.md). What a port access and a step can do to the platform's data and to the views:
a step keeps the parameters and the map (R8), and keeps every fresh view equal to its bytes (R16, R40,
R80). -/

namespace Sys2Proof.Machine

/-! ### What a port access can do -/

/-- Everything a write to `CMD` can do when it answers a next state (R104, R242, R307). -/
theorem State.writeCmd_cases {s t : State} {v : Word} (h : s.writeCmd v = .next t) :
    let u : State := { s with cmd := v.setWidth 32 }
    (s.faulted = true ∧ t = u) ∨
    (s.faulted = false ∧ (∃ why, decodePort v = .illegal why) ∧
      t = u.raise (wordOpc u.cmd) .illegalCommand) ∨
    (s.faulted = false ∧ ∃ i, decodePort v = .command i ∧ exec i u = .next t) := by
  intro u
  have hu : u.faulted = s.faulted := rfl
  simp only [State.writeCmd] at h
  split at h
  · rename_i hf
    cases h
    exact .inl ⟨hf, rfl⟩
  · rename_i hf
    have hf : s.faulted = false := hu ▸ Bool.eq_false_iff.mpr hf
    split at h
    · rename_i why hd
      cases h
      exact .inr (.inl ⟨hf, ⟨why, hd⟩, rfl⟩)
    · rename_i i hd
      exact .inr (.inr ⟨hf, i, hd, h⟩)

/-- A port access is a write to `CMD`, or it changes operand registers and the value last read alone
(R241, R243). -/
theorem State.portAccess_cases {s t : State} {a : PortAccess} (h : s.portAccess a = .next t) :
    (∃ v, a = .write .cmd v ∧ s.writeCmd v = .next t) ∨
    ∃ b l o x d, t = { s with base := b, len := l, off := o, val := x, portData := d } := by
  cases a with
  | read r => cases h; exact .inr ⟨_, _, _, _, _, rfl⟩
  | write r v =>
    cases r with
    | cmd => exact .inl ⟨v, rfl, h⟩
    | base | len | off | val | res | status | fault => cases h; exact .inr ⟨_, _, _, _, _, rfl⟩

/-! ### The parameters and the map -/

@[simp] theorem State.commit_params (s : State) (p : Pending) : (s.commit p).params = s.params := by
  rcases s.commit_cases p with ⟨-, -, h⟩ | ⟨-, h⟩ <;> simp [h]

@[simp] theorem State.commit_map (s : State) (p : Pending) : (s.commit p).map = s.map := by
  rcases s.commit_cases p with ⟨-, -, h⟩ | ⟨-, h⟩ <;> simp [h]

@[simp] theorem State.launch_params (s : State) (p : Pending) : (s.launch p).params = s.params := by
  rcases s.launch_cases p with ⟨-, h⟩ | ⟨-, h⟩ <;> simp [h]

@[simp] theorem State.launch_map (s : State) (p : Pending) : (s.launch p).map = s.map := by
  rcases s.launch_cases p with ⟨-, h⟩ | ⟨-, h⟩ <;> simp [h]

@[simp] theorem State.agentRead_params (s : State) (a : Nat) :
    (s.agentRead a).params = s.params := by
  obtain ⟨b, n, h, -⟩ := s.agentRead_eq a
  rw [h]

@[simp] theorem State.agentRead_map (s : State) (a : Nat) : (s.agentRead a).map = s.map := by
  obtain ⟨b, n, h, -⟩ := s.agentRead_eq a
  rw [h]

theorem exec_keeps_platform {i : Instr} {s t : State} (h : exec i s = .next t) :
    t.params = s.params ∧ t.map = s.map := by
  rcases exec_cases h with ⟨-, rfl⟩ | ⟨-, c, -, rfl⟩ | ⟨-, p, -, rfl⟩
  · exact ⟨rfl, rfl⟩
  · exact ⟨rfl, rfl⟩
  · simp

theorem State.portAccess_keeps_platform {s t : State} {a : PortAccess}
    (h : s.portAccess a = .next t) : t.params = s.params ∧ t.map = s.map := by
  rcases State.portAccess_cases h with ⟨v, -, hw⟩ | ⟨_, _, _, _, _, rfl⟩
  · rcases State.writeCmd_cases hw with ⟨-, rfl⟩ | ⟨-, -, rfl⟩ | ⟨-, i, -, he⟩
    · exact ⟨rfl, rfl⟩
    · exact ⟨rfl, rfl⟩
    · obtain ⟨hp, hm⟩ := exec_keeps_platform he
      exact ⟨hp, hm⟩
  · exact ⟨rfl, rfl⟩

theorem State.move_keeps_platform {s t : State} {m : Move} (h : s.move m = .next t) :
    t.params = s.params ∧ t.map = s.map := by
  rcases State.move_cases h with ⟨a, b, -, -, rfl⟩ | ⟨a, -, -, rfl⟩ | ⟨-, rfl⟩ <;> simp

/-- Settles O60: each of the four things a step can do keeps the parameters and the map. -/
theorem parametersNeverChange : Obligations.ParametersNeverChange := by
  intro s t h
  rcases step_cases h with ⟨p, -, -, rfl⟩ | ⟨-, -, rfl⟩ | ⟨a, rest, -, -, ha⟩ | ⟨m, rest, -, hm⟩
  · simp
  · exact ⟨rfl, rfl⟩
  · obtain ⟨hp, hm⟩ := State.portAccess_keeps_platform ha
    exact ⟨hp, hm⟩
  · obtain ⟨hp, hm⟩ := State.move_keeps_platform hm
    exact ⟨hp, hm⟩

/-! ### One record and the bytes under it

Said once for both records: `Shows` stands for `Ip6Shows` or `TcpShows`. -/

/-- What a record shows depends on the bytes it is bound to alone. -/
def ReadsBoundBytes {α : Type} (Shows : Memory → Record α → Prop) : Prop :=
  ∀ (m m' : Memory) (r : Record α), Shows m r →
    (∀ a, r.bindLo.toNat ≤ a → a < r.bindLo.toNat + r.bindN → m'.read a = m.read a) → Shows m' r

theorem ip6Shows_readsBoundBytes : ReadsBoundBytes Ip6Shows := fun _ _ _ h hc => h.congr hc

theorem tcpShows_readsBoundBytes : ReadsBoundBytes TcpShows := fun _ _ _ h hc => h.congr hc

/-- A `BOUND` record that is not stale shows its bytes: what `State.ViewsValid` says of a record. -/
def FreshShows {α : Type} (Shows : Memory → Record α → Prop) (m : Memory) (r : Record α) : Prop :=
  r.st = .bound → r.stale = false → Shows m r

/-- A record about to be written shows its bytes and has them in the read set: what `PendingViewsOk`
says of a record. -/
def DecodeShows {α : Type} (Shows : Memory → Record α → Prop) (m : Memory) (reads : List Nat)
    (r : Record α) : Prop :=
  r.st = .bound → Shows m r ∧ ∀ a, r.covers a = true → a ∈ reads

section
variable {α : Type} {Shows : Memory → Record α → Prop} {m : Memory} {r : Record α}

/-- Stale marking leaves fresh only a view whose bytes the stores did not touch (R80). -/
theorem FreshShows.touch (hS : ReadsBoundBytes Shows) (h : FreshShows Shows m r)
    (cs : List Host.Cell) : FreshShows Shows (m.writeCells cs) (r.touch cs) := by
  intro hb hs
  obtain ⟨he, hb', hs', hread⟩ := Record.fresh_of_touch (m := m) hb hs
  rw [he]
  exact hS _ _ _ (h hb' hs') hread

/-- COMMIT writes memory under the old record, or leaves memory and writes a new record (R76). -/
theorem FreshShows.commit (hS : ReadsBoundBytes Shows) (h : FreshShows Shows m r)
    {cs : List Host.Cell} {new : Option (Record α)} {reads : List Nat}
    (hnew : ∀ r', new = some r' → DecodeShows Shows m reads r' ∧ cs = []) :
    FreshShows Shows (m.writeCells cs) (new.getD (r.touch cs)) := by
  cases new with
  | none => exact h.touch hS cs
  | some r' =>
    obtain ⟨hd, rfl⟩ := hnew r' rfl
    exact fun hb _ => (hd hb).1

/-- A write outside the read set misses every byte of a decode in flight (R77). -/
theorem DecodeShows.agentWrite (hS : ReadsBoundBytes Shows) {reads : List Nat}
    (h : DecodeShows Shows m reads r) {a : Nat} (ha : a ∉ reads) (b : Byte) :
    DecodeShows Shows (m.writeCells [(a, b)]) reads r := by
  intro hb
  obtain ⟨hs, hc⟩ := h hb
  refine ⟨hS _ _ _ hs fun x hlo hhi => ?_, hc⟩
  have hx : x ∈ reads := hc x (Record.covers_iff.mpr ⟨hb, hlo, hhi⟩)
  exact Memory.read_write_ne m b fun e => ha (e ▸ hx)

end

/-! ### Moves of the outside -/

/-- A command not raced after another agent's write was not raced before, and read no such byte (R77). -/
theorem Pending.hitBy_not_raced {p : Pending} {a : Nat} (h : (p.hitBy a).raced = false) :
    p.raced = false ∧ a ∉ p.reads ∧ p.hitBy a = p := by
  simp only [Pending.hitBy_eq, Bool.or_eq_false_iff] at h
  obtain ⟨hp, hr, hw⟩ := h
  refine ⟨hp, by simpa using hr, ?_⟩
  rw [Pending.hitBy_eq, hr, hw, Bool.or_false, Bool.or_false]

theorem PendingViewsOk.agentWrite {p : Pending} {m : Memory} (h : PendingViewsOk p m) {a : Nat}
    (ha : a ∉ p.reads) (b : Byte) : PendingViewsOk p (m.writeCells [(a, b)]) where
  ip6 r hr := DecodeShows.agentWrite ip6Shows_readsBoundBytes (h.ip6 r hr) ha b
  tcp r hr := DecodeShows.agentWrite tcpShows_readsBoundBytes (h.tcp r hr) ha b

theorem State.ViewsValid.agentWrite {s : State} (h : s.ViewsValid) (a : Nat) (b : Byte) :
    (s.agentWrite a b).ViewsValid where
  ip6 hc := FreshShows.touch ip6Shows_readsBoundBytes (h.ip6 hc) _
  tcp hc := FreshShows.touch tcpShows_readsBoundBytes (h.tcp hc) _
  pending q hq hraced := by
    obtain ⟨p, hp, rfl⟩ := Option.map_eq_some_iff.mp hq
    obtain ⟨hp', ha, he⟩ := Pending.hitBy_not_raced hraced
    rw [he]
    exact (h.pending p hp hp').agentWrite ha b

theorem State.ViewsValid.agentRead {s : State} (h : s.ViewsValid) (a : Nat) :
    (s.agentRead a).ViewsValid := by
  obtain ⟨b, n, he, -⟩ := s.agentRead_eq a
  rw [he]
  exact ⟨h.ip6, h.tcp, h.pending⟩

theorem State.resetBlock_viewsValid (s : State) : s.resetBlock.ViewsValid where
  ip6 _ hb := by cases hb
  tcp _ hb := by cases hb
  pending _ hp := by cases hp

theorem State.ViewsValid.move {s t : State} {m : Move} (h : s.ViewsValid)
    (hm : s.move m = .next t) : t.ViewsValid := by
  rcases State.move_cases hm with ⟨a, b, -, -, rfl⟩ | ⟨a, -, -, rfl⟩ | ⟨-, rfl⟩
  · exact h.agentWrite a b
  · exact h.agentRead a
  · exact s.resetBlock_viewsValid

/-! ### Commands -/

theorem State.Inv.faultCause_ne_race {s : State} (hi : s.Inv) (hf : s.faulted = false) :
    s.faultCause ≠ Cause.race.code := by
  rw [hi.faultCause hf]
  decide

/-- A faulted block has no command in flight (R306). -/
theorem State.Inv.not_faulted_of_pending {s : State} {p : Pending} (hi : s.Inv)
    (hp : s.pending = some p) : s.faulted = false := by
  by_contra hf
  obtain ⟨-, hnone, -⟩ := hi.outcome.1 (Bool.eq_true_of_not_eq_false hf)
  rw [hp] at hnone
  cases hnone

/-- Taking a fault changes no record; that no `Race` was shown before is what makes both views valid. -/
theorem State.ViewsValid.raise {s : State} (h : s.ViewsValid)
    (hc : s.faultCause ≠ Cause.race.code) (opc : Byte) (c : Cause) : (s.raise opc c).ViewsValid :=
  ⟨fun _ => h.ip6 hc, fun _ => h.tcp hc, h.pending⟩

/-- The views that a command writes at COMMIT: a raced one that completes all the same ends with an
error status and writes no record (R66, R305). -/
theorem PendingOk.viewsOk_of_completes {p : Pending} {aw : Nat} {m : Memory} (hp : PendingOk p aw)
    (hv : p.raced = false → PendingViewsOk p m) (h : p.raced = false ∨ p.status ≠ .ok) :
    PendingViewsOk p m := by
  rcases h with h | h
  · exact hv h
  · obtain ⟨-, -, h6, ht⟩ := hp.errorQuiet h
    exact ⟨fun r hr => absurd (h6.symm.trans hr) (by simp),
      fun r hr => absurd (ht.symm.trans hr) (by simp)⟩

/-- COMMIT keeps the views, or takes a `Race` fault, which they are excused from (R77, log 9). -/
theorem State.ViewsValid.commit {s : State} {p : Pending} {aw : Nat} (h : s.ViewsValid)
    (hp : PendingOk p aw) (hv : p.raced = false → PendingViewsOk p s.mem) :
    (s.commit p).ViewsValid := by
  rcases s.commit_cases p with ⟨-, -, he⟩ | ⟨hdone, he⟩
  · have hrace : (s.commit p).faultCause = Cause.race.code := by
      rw [he]
      exact State.raise_faultCause _ _ _
    exact ⟨fun hc => absurd hrace hc, fun hc => absurd hrace hc,
      fun q hq => by rw [he] at hq; cases hq⟩
  · obtain ⟨v6, vt⟩ := hp.viewsOk_of_completes hv hdone
    rw [he]
    exact
      { ip6 := fun hc => FreshShows.commit ip6Shows_readsBoundBytes (h.ip6 hc) fun r hr =>
          ⟨v6 r hr, (hp.ip6Ok r hr).2⟩
        tcp := fun hc => FreshShows.commit tcpShows_readsBoundBytes (h.tcp hc) fun r hr =>
          ⟨vt r hr, (hp.tcpOk r hr).2⟩
        pending := fun q hq => by cases hq }

theorem State.ViewsValid.launch {s : State} {p : Pending} {aw : Nat} (h : s.ViewsValid)
    (hp : PendingOk p aw) (hv : PendingViewsOk p s.mem) : (s.launch p).ViewsValid := by
  rcases s.launch_cases p with ⟨-, he⟩ | ⟨-, he⟩
  · rw [he]
    exact ⟨h.ip6, h.tcp, fun q hq _ => by cases hq; exact hv⟩
  · rw [he]
    exact h.commit hp fun _ => hv

/-- A command keeps the views: what ISSUE hands to COMMIT is in order, whatever opcode it records. -/
theorem State.ViewsValid.exec {i : Instr} {s t : State} (hi : s.Inv) (h : s.ViewsValid)
    (he : exec i s = .next t) : t.ViewsValid := by
  rcases exec_cases he with ⟨-, rfl⟩ | ⟨hf, c, -, rfl⟩ | ⟨-, p, hp, rfl⟩
  · exact h
  · exact h.raise (hi.faultCause_ne_race hf) _ _
  · have form := issueOf_form hp
    obtain ⟨hw, h6, ht, hq⟩ := form.pendingOk hi
    obtain ⟨v6, vt⟩ := form.viewsOk
    exact h.launch ⟨hw, h6, ht, hq⟩ ⟨v6, vt⟩

/-! ### Port accesses and steps -/

/-- The invariant says nothing of `CMD` and the events to come. -/
theorem State.Inv.setOutside {s : State} (hi : s.Inv) (evs : List Event) (n : Nat) (c : BitVec 32) :
    ({ s with todo := evs, pos := n, cmd := c } : State).Inv :=
  ⟨hi.base, hi.len, hi.off, hi.memWf, hi.memBelow, hi.outcome, hi.ip6, hi.tcp, hi.pending⟩

theorem State.ViewsValid.setOutside {s : State} (h : s.ViewsValid) (evs : List Event) (n : Nat)
    (c : BitVec 32) : ({ s with todo := evs, pos := n, cmd := c } : State).ViewsValid :=
  ⟨h.ip6, h.tcp, h.pending⟩

theorem State.ViewsValid.writeCmd {s t : State} {v : Word} (hi : s.Inv) (h : s.ViewsValid)
    (hw : s.writeCmd v = .next t) : t.ViewsValid := by
  have hu := h.setOutside s.todo s.pos (v.setWidth 32)
  rcases State.writeCmd_cases hw with ⟨-, rfl⟩ | ⟨hf, -, rfl⟩ | ⟨-, i, -, he⟩
  · exact hu
  · exact hu.raise (hi.faultCause_ne_race hf) _ _
  · exact hu.exec (hi.setOutside s.todo s.pos _) he

theorem State.ViewsValid.portAccess {s t : State} {a : PortAccess} (hi : s.Inv) (h : s.ViewsValid)
    (ha : s.portAccess a = .next t) : t.ViewsValid := by
  rcases State.portAccess_cases ha with ⟨v, -, hw⟩ | ⟨_, _, _, _, _, rfl⟩
  · exact h.writeCmd hi hw
  · exact ⟨h.ip6, h.tcp, h.pending⟩

/-- Settles O59: each of the four things a step can do keeps every fresh view. A store or another
agent's write marks stale each view it touches, a decode in flight that was not raced still shows the
bytes it read, and a raced one takes the `Race` fault. -/
theorem everyStepKeepsViewsValid : Obligations.EveryStepKeepsViewsValid := by
  intro s t hi h hstep
  rcases step_cases hstep with ⟨p, hp, -, rfl⟩ | ⟨-, -, rfl⟩ | ⟨a, rest, -, -, ha⟩ |
    ⟨m, rest, -, hm⟩
  · exact h.commit (hi.pending p hp) (h.pending p hp)
  · exact h
  · exact (h.setOutside rest (s.pos + 1) s.cmd).portAccess (hi.setOutside rest (s.pos + 1) s.cmd) ha
  · exact (h.setOutside rest s.pos s.cmd).move hm

end Sys2Proof.Machine
end

section
/-! PROOFS (10_state.md). Every step keeps the invariant of the machine (R21, R23, R24, R38, R40, R41,
R60), and `RES` is written by the read commands alone (R22). -/

namespace Sys2Proof.Machine

/-! ### Register updates -/

/-- The invariant over a change of the command in flight: none is left in a faulted block (R306). -/
theorem State.Inv.setPending {s : State} (hi : s.Inv) {q : Option Pending}
    (hf : s.faulted = true → q = none) (hq : ∀ p, q = some p → PendingOk p s.params.aw) :
    ({ s with pending := q } : State).Inv where
  base := hi.base
  len := hi.len
  off := hi.off
  memWf := hi.memWf
  memBelow := hi.memBelow
  outcome := by
    refine ⟨fun h => ?_, hi.outcome.2⟩
    obtain ⟨hst, -, hword⟩ := hi.outcome.1 h
    exact ⟨hst, hf h, hword⟩
  ip6 := hi.ip6
  tcp := hi.tcp
  pending := hq

/-- The invariant over a change of the operand registers that keeps them in `AW` bits (R21). -/
theorem State.Inv.setOperands {s : State} (hi : s.Inv) {b l o : Word}
    (hb : b.toNat < 2 ^ s.params.aw) (hl : l.toNat < 2 ^ s.params.aw)
    (ho : o.toNat < 2 ^ s.params.aw) (x d : Word) :
    ({ s with base := b, len := l, off := o, val := x, portData := d } : State).Inv :=
  ⟨hb, hl, ho, hi.memWf, hi.memBelow, hi.outcome, hi.ip6, hi.tcp, hi.pending⟩

/-- Taking a fault leaves the outcome registers legal, no command being in flight (R24, R306). -/
theorem State.Inv.raise {s : State} (hi : s.Inv) (hp : s.pending = none) (opc : Byte) (c : Cause) :
    (s.raise opc c).Inv where
  base := hi.base
  len := hi.len
  off := hi.off
  memWf := hi.memWf
  memBelow := hi.memBelow
  outcome := ⟨fun _ => ⟨rfl, hp, opc, c, rfl⟩,
    fun h => absurd ((s.raise_faulted opc c).symm.trans h) (by decide)⟩
  ip6 := hi.ip6
  tcp := hi.tcp
  pending := hi.pending

/-- Finishing writes one of the five status codes of an unfaulted block (R23, R305). -/
theorem State.Inv.finish {s : State} (hi : s.Inv) (hf : s.faulted = false) (st : Status) :
    (s.finish st).Inv where
  base := hi.base
  len := hi.len
  off := hi.off
  memWf := hi.memWf
  memBelow := hi.memBelow
  outcome := by
    obtain ⟨hzero, -⟩ := hi.outcome.2 hf
    exact ⟨fun h => absurd (hf.symm.trans h) (by decide), fun _ => ⟨hzero, st, rfl⟩⟩
  ip6 := hi.ip6
  tcp := hi.tcp
  pending := hi.pending

/-- The register writes of a command in order leave both records in order. -/
theorem State.Inv.writeRegs {s : State} {p : Pending} (hi : s.Inv) (hp : PendingOk p s.params.aw) :
    (s.writeRegs p).Inv where
  base := hi.base
  len := hi.len
  off := hi.off
  memWf := hi.memWf
  memBelow := hi.memBelow
  outcome := hi.outcome
  ip6 := by
    cases h : p.ip6 with
    | none => simpa [h] using hi.ip6
    | some r => simpa [h] using (hp.ip6Ok r h).1
  tcp := by
    cases h : p.tcp with
    | none => simpa [h] using hi.tcp
    | some r => simpa [h] using (hp.tcpOk r h).1
  pending := hi.pending

/-! ### Writes to memory -/

section
variable {s : State} {cs : List Host.Cell}

/-- Memory stays canonical and inside the address space when bytes of it are written (R60). -/
theorem State.Inv.writeMem (hi : s.Inv) (hc : ∀ c ∈ cs, c.1 < 2 ^ s.params.aw) (n : Nat) :
    ({ s with mem := s.mem.writeCells cs, draws := n } : State).Inv :=
  ⟨hi.base, hi.len, hi.off, Memory.writeCells_wf _ _ hi.memWf,
    Memory.writeCells_below _ hi.memBelow hc, hi.outcome, hi.ip6, hi.tcp, hi.pending⟩

/-- Stale marking keeps both bindings in order, so a store keeps the invariant (R80). -/
theorem State.Inv.store (hi : s.Inv) (hc : ∀ c ∈ cs, c.1 < 2 ^ s.params.aw) : (s.store cs).Inv :=
  have hm := hi.writeMem hc s.draws
  ⟨hi.base, hi.len, hi.off, hm.memWf, hm.memBelow, hi.outcome, hi.ip6.touch, hi.tcp.touch,
    hi.pending⟩

end

/-- The drawn bytes of a raced command lie in its write set (R77). -/
theorem State.Inv.raceFault {s : State} {p : Pending} (hi : s.Inv) (hnone : s.pending = none)
    (hp : PendingOk p s.params.aw) : (s.raceFault p).Inv := by
  have hc : ∀ c ∈ drawCells s.draws p.writes, c.1 < 2 ^ s.params.aw := fun c hc => by
    obtain ⟨w, hw, he⟩ := mem_drawCells_addr hc
    exact he ▸ hp.writesBelow w hw
  exact (hi.writeMem hc _).raise hnone _ _

/-! ### Commands -/

/-- COMMIT of a command in order keeps the invariant, raced or not (R76, R77). -/
theorem State.Inv.commit {s : State} {p : Pending} (hi : s.Inv) (hf : s.faulted = false)
    (hp : PendingOk p s.params.aw) : (s.commit p).Inv := by
  have idle : ({ s with pending := none } : State).Inv :=
    hi.setPending (fun _ => rfl) fun _ h => by cases h
  rcases s.commit_cases p with ⟨-, -, he⟩ | ⟨-, he⟩ <;> rw [he]
  · exact idle.raceFault rfl hp
  · exact ((idle.store hp.writesBelow).writeRegs hp).finish hf _

theorem State.Inv.launch {s : State} {p : Pending} (hi : s.Inv) (hf : s.faulted = false)
    (hp : PendingOk p s.params.aw) : (s.launch p).Inv := by
  rcases s.launch_cases p with ⟨-, he⟩ | ⟨-, he⟩ <;> rw [he]
  · refine hi.setPending (fun h => absurd (hf.symm.trans h) (by decide)) fun q hq => ?_
    cases hq
    exact hp
  · exact hi.commit hf hp

/-- Whatever opcode field a command in flight records, it is as much in order. -/
theorem PendingOk.setOpc {p : Pending} {aw : Nat} (h : PendingOk p aw) (opc : Byte) :
    PendingOk { p with opc := opc } aw := ⟨h.writesBelow, h.ip6Ok, h.tcpOk, h.errorQuiet⟩

/-- A command keeps the invariant of a block with no command in flight. -/
theorem State.Inv.exec {i : Instr} {s t : State} (hi : s.Inv) (hnone : s.pending = none)
    (he : exec i s = .next t) : t.Inv := by
  rcases exec_cases he with ⟨-, rfl⟩ | ⟨-, c, -, rfl⟩ | ⟨hf, p, hp, rfl⟩
  · exact hi
  · exact hi.raise hnone _ _
  · exact hi.launch hf (((issueOf_form hp).pendingOk hi).setOpc _)

/-! ### Port accesses -/

theorem State.Inv.writeCmd {s t : State} {v : Word} (hi : s.Inv) (hnone : s.pending = none)
    (hw : s.writeCmd v = .next t) : t.Inv := by
  have hu := hi.setOutside s.todo s.pos (v.setWidth 32)
  rcases State.writeCmd_cases hw with ⟨-, rfl⟩ | ⟨-, -, rfl⟩ | ⟨-, i, -, he⟩
  · exact hu
  · exact hu.raise hnone _ _
  · exact hu.exec hnone he

theorem truncAw_lt (p : Params) (v : Word) : (truncAw p v).toNat < 2 ^ p.aw := by
  rw [truncAw, BitVec.toNat_ofNat]
  exact (Nat.mod_le _ _).trans_lt (Nat.mod_lt _ (Nat.two_pow_pos _))

/-- A port access runs a command, or leaves the operand registers in `AW` bits (R21, R241, R243). -/
theorem State.Inv.portAccess {s t : State} {a : PortAccess} (hi : s.Inv) (hnone : s.pending = none)
    (ha : s.portAccess a = .next t) : t.Inv := by
  cases a with
  | read r => cases ha; exact hi.setOperands hi.base hi.len hi.off _ _
  | write r v =>
    have hv := truncAw_lt s.params v
    cases r with
    | cmd => exact hi.writeCmd hnone ha
    | base => cases ha; exact hi.setOperands hv hi.len hi.off _ _
    | len => cases ha; exact hi.setOperands hi.base hv hi.off _ _
    | off => cases ha; exact hi.setOperands hi.base hi.len hv _ _
    | val => cases ha; exact hi.setOperands hi.base hi.len hi.off _ _
    | res | status | fault => cases ha; exact hi

/-! ### Moves of the outside -/

theorem State.lt_of_isBufferByte {s : State} {a : Nat} (h : s.isBufferByte a = true) :
    a < 2 ^ s.params.aw := by
  simp only [State.isBufferByte, Bool.and_eq_true, decide_eq_true_eq] at h
  obtain ⟨⟨ha, -⟩, -⟩ := h
  exact ha

theorem PendingOk.hitBy {p : Pending} {aw : Nat} (h : PendingOk p aw) (a : Nat) :
    PendingOk (p.hitBy a) aw := by
  rw [Pending.hitBy_eq]
  exact ⟨h.writesBelow, h.ip6Ok, h.tcpOk, h.errorQuiet⟩

/-- Another agent's write is a store that may mark the command in flight raced (R77, R80). -/
theorem State.Inv.agentWrite {s : State} (hi : s.Inv) {a : Nat} (ha : a < 2 ^ s.params.aw)
    (b : Byte) : (s.agentWrite a b).Inv := by
  have hs : (s.store [(a, b)]).Inv := hi.store (by simpa using ha)
  refine hs.setPending (fun hf => ?_) fun q hq => ?_
  · obtain ⟨-, hnone, -⟩ := hi.outcome.1 hf
    rw [hnone, Option.map_none]
  · obtain ⟨p, hp, rfl⟩ := Option.map_eq_some_iff.mp hq
    exact (hi.pending p hp).hitBy a

theorem State.Inv.agentRead {s : State} (hi : s.Inv) (a : Nat) : (s.agentRead a).Inv := by
  obtain ⟨b, n, he, -⟩ := s.agentRead_eq a
  rw [he]
  exact ⟨hi.base, hi.len, hi.off, hi.memWf, hi.memBelow, hi.outcome, hi.ip6, hi.tcp, hi.pending⟩

theorem Record.reset_bindingOk {α : Type} (hdr : α) (aw n : Nat) :
    (Record.reset hdr).bindingOk aw n := ⟨fun h => (by cases h), fun _ => ⟨rfl, rfl⟩⟩

/-- Reset leaves everything but memory at its reset value (R350, R352). -/
theorem State.Inv.resetBlock {s : State} (hi : s.Inv) : s.resetBlock.Inv where
  base := Nat.two_pow_pos _
  len := Nat.two_pow_pos _
  off := Nat.two_pow_pos _
  memWf := hi.memWf
  memBelow := hi.memBelow
  outcome := ⟨fun h => (by simp [State.faulted] at h), fun _ => ⟨rfl, .ok, rfl⟩⟩
  ip6 := Record.reset_bindingOk _ _ _
  tcp := ⟨Record.reset_bindingOk _ _ _, fun h => by cases h⟩
  pending := fun _ h => by cases h

theorem State.Inv.move {s t : State} {m : Move} (hi : s.Inv) (hm : s.move m = .next t) : t.Inv := by
  rcases State.move_cases hm with ⟨a, b, -, ha, rfl⟩ | ⟨a, -, -, rfl⟩ | ⟨-, rfl⟩
  · exact hi.agentWrite (State.lt_of_isBufferByte ha) b
  · exact hi.agentRead a
  · exact hi.resetBlock

/-! ### Steps -/

/-- Settles O58: each of the four things a step can do keeps the invariant. A command is taken only
with none in flight, what its ISSUE hands to COMMIT is in order, and a pending one is in a block
that is not faulted. -/
theorem everyStepKeepsInv : Obligations.EveryStepKeepsInv := by
  intro s t hi hstep
  rcases step_cases hstep with ⟨p, hp, -, rfl⟩ | ⟨-, -, rfl⟩ | ⟨a, rest, hnone, -, ha⟩ |
    ⟨m, rest, -, hm⟩
  · exact hi.commit (hi.not_faulted_of_pending hp) (hi.pending p hp)
  · exact hi
  · exact (hi.setOutside rest (s.pos + 1) s.cmd).portAccess hnone ha
  · exact (hi.setOutside rest s.pos s.cmd).move hm

/-! ### What writes `RES` -/

theorem IssueForm.not_raced {i : Instr} {s : State} {p : Pending} (h : IssueForm i s p) :
    p.raced = false := by cases h <;> rfl

/-- Only ISSUE of a read command has a result for `RES` (R22). -/
theorem IssueForm.res_eq_none {i : Instr} {s : State} {p : Pending} (h : IssueForm i s p)
    (hi : writesRes i = false) : p.res = none := by
  cases h with
  | result rd v hw => exact absurd (hi.symm.trans hw) (by decide)
  | status | stores | ip6Owned | tcpOwned | ip6Decoded | tcpDecoded => rfl

/-- From ISSUE on, a command that is not raced takes no fault, and writes its result to `RES` at COMMIT
alone. -/
theorem State.launch_spec {s : State} {p : Pending} (h : p.raced = false) :
    (s.launch p).faulted = s.faulted ∧
      ((s.launch p).res = s.res ∨ (s.launch p).res = p.res.getD s.res) := by
  rcases s.launch_cases p with ⟨-, he⟩ | ⟨-, he⟩
  · rw [he]
    exact ⟨rfl, .inl rfl⟩
  · rw [he, State.commit_of_not_raced h]
    exact ⟨rfl, .inr rfl⟩

/-- Settles O47: a fault leaves `RES`; a command that goes on to COMMIT takes no fault, and only a
read command has a result to write. -/
theorem onlyReadCommandsWriteRes : Obligations.OnlyReadCommandsWriteRes := by
  intro s t i h hcase
  rcases exec_cases h with ⟨-, rfl⟩ | ⟨-, c, -, rfl⟩ | ⟨hf, p, hp, rfl⟩
  · rfl
  · exact State.raise_res s _ c
  · have form := issueOf_form hp
    obtain ⟨hfaulted, hres⟩ :=
      s.launch_spec (p := { p with opc := i.opcode.code }) form.not_raced
    rcases hcase with hi | ht
    · have hnone : p.res = none := form.res_eq_none hi
      simpa [hnone] using hres
    · exact absurd (hf.symm.trans (hfaulted.symm.trans ht)) (by decide)

end Sys2Proof.Machine
end

section
/-! PROOFS (20_memory.md). What a memory command reads, stores and marks stale, where it faults or
stops (R61-R69, R80, R84), and what comes between its two phases (R76-R78, R80). -/

namespace Sys2Proof.Machine

/-! ### Mixed widths -/

theorem Memory.readBytes_add (m : Memory) (a k n : Nat) :
    m.readBytes a (k + n) = m.readBytes a k ++ m.readBytes (a + k) n := by
  induction k generalizing a with
  | zero => simp [Memory.readBytes]
  | succ k ih =>
    rw [Nat.add_right_comm]
    simp only [Memory.readBytes, List.cons_append, ih]
    rw [Nat.add_right_comm, Nat.add_assoc]

theorem beNat_append_list (xs ys : List Byte) :
    beNat (xs ++ ys) = beNat xs * 256 ^ ys.length + beNat ys := by
  induction ys using List.reverseRecOn with
  | nil => simp
  | append_singleton ys b ih =>
    rw [← List.append_assoc, beNat_append, beNat_append, ih, List.length_append,
      List.length_singleton, Nat.pow_succ]
    ring

theorem beNat_readBytes_lt (m : Memory) (a n : Nat) : beNat (m.readBytes a n) < 256 ^ n := by
  simpa using beNat_lt (m.readBytes a n)

/-- A big-endian read that may reach its `n` bytes puts their integer in `RES` (R131-R133). -/
theorem exec_read_res {s t : State} {i : Instr} {n : Nat} (hi : issueOf i = issueReadBe n)
    (hn : n ≤ 8) (hr : s.ready = true) (hc : s.canAccess n = true) (h : exec i s = .next t) :
    t.res.toNat = beNat (s.mem.readBytes s.start n) := by
  obtain ⟨-, hm, -, -, hreach, -⟩ := State.canAccess_spec hc
  have hres : issueOf i s = .result (addrsFrom s.start n)
      (BitVec.ofNat 64 (beNat (s.mem.readBytes s.start n))) := by
    rw [hi, issueReadBe, hm, Issued.check_none, State.access_of_reaches _ hreach]
  rw [exec_result hr hres] at h
  cases h
  have hlt : beNat (s.mem.readBytes s.start n) < 2 ^ 64 :=
    (beNat_readBytes_lt _ _ _).trans_le (Nat.pow_le_pow_right (by decide : 0 < 256) hn)
  exact Nat.mod_eq_of_lt hlt

/-- Moving `OFF` on inside the slice keeps what the block may reach further on. -/
theorem State.canAccess_addOff {s : State} {k : Word} {n : Nat}
    (h : s.canAccess (k.toNat + n) = true) (hn : 0 < n) :
    ({ s with off := s.off + k } : State).start = s.start + k.toNat ∧
      ({ s with off := s.off + k } : State).canAccess n = true := by
  obtain ⟨hw, -, -, -, hreach, hl, -⟩ := State.canAccess_spec h
  have hoff : (s.off + k).toNat = s.off.toNat + k.toNat := by
    rw [BitVec.toNat_add]
    exact Nat.mod_eq_of_lt (by have := s.len.isLt; omega)
  simp only [State.reaches, Bool.and_eq_true, Bool.not_eq_true'] at hreach
  obtain ⟨hplain, hback⟩ := hreach
  have hstart : ({ s with off := s.off + k } : State).start = s.start + k.toNat := by
    simp only [State.start, hoff, Nat.add_assoc]
  have hfits : (s.off + k).toNat + n ≤ s.len.toNat := by omega
  have hback' : ({ s with off := s.off + k } : State).hits .absent (s.start + k.toNat) n = false :=
    State.hits_mono (s := s) hback (Nat.le_add_right _ _) (by omega)
  have hw' : ({ s with off := s.off + k } : State).wraps = false := hw
  refine ⟨hstart, ?_⟩
  simp only [State.canAccess, State.reaches, hstart, hw', hback', Bool.and_eq_true,
    decide_eq_true_eq]
  exact ⟨⟨rfl, hfits⟩, hplain, rfl⟩

/-- Settles O13: the 8 bytes read are 2, then the 2 that the 16-bit read takes, then 4. -/
theorem mixedWidthReadsAgree : Obligations.MixedWidthReadsAgree := by
  rintro s _ t v hr hc rfl ht hv
  obtain ⟨hstart, hc2⟩ := State.canAccess_addOff (k := 2) (n := 2)
    (State.canAccess_mono hc (by decide)) (by decide)
  have hr2 : ({ s with off := s.off + 2 } : State).ready = true := hr
  rw [exec_read_res rfl (by decide) hr hc ht, exec_read_res rfl (by decide) hr2 hc2 hv, hstart,
    show (8 : Nat) = 2 + (2 + 4) from rfl, Memory.readBytes_add, Memory.readBytes_add,
    beNat_append_list, beNat_append_list]
  have hmid := beNat_readBytes_lt s.mem (s.start + 2) 2
  have hlow := beNat_readBytes_lt s.mem (s.start + 2 + 2) 4
  simp only [List.length_append, Memory.readBytes_length]
  show beNat (s.mem.readBytes (s.start + 2) 2) = _
  omega

/-! ### Where a memory command faults or stops -/

theorem State.memCheck_of_wraps {s : State} (h : s.wraps = true) (n : Nat) :
    s.memCheck n = some .addressWrap := by simp [State.memCheck, h]

theorem State.wrapCheck_of_wraps {s : State} (h : s.wraps = true) :
    s.wrapCheck = some .addressWrap := by simp [State.wrapCheck, h]

theorem bitRangeCheck_eq_none {bo w : Nat} (h1 : bo ≤ 7) (h2 : 1 ≤ w) (h3 : bo + w ≤ 16) :
    bitRangeCheck bo w = none := by simp [bitRangeCheck, h1, h2, h3]

/-- Settles O43: the wrap check is the first check of a memory command, but for the bit range and the
record check, which pass. -/
theorem wrappingSliceFaults : Obligations.WrappingSliceFaults := by
  intro s i hf hwrap hi
  have hw : s.wraps = true := State.wraps_iff.mpr hwrap
  have hm := State.memCheck_of_wraps hw
  have hc := State.wrapCheck_of_wraps hw
  refine exec_faults hf ?_
  rcases hi with hi | ⟨rfl, hrec⟩ | ⟨rfl, hrec⟩ | ⟨bo, w, rfl | rfl, h1, h2, h3⟩
  · simp only [List.mem_cons, List.not_mem_nil, or_false] at hi
    rcases hi with rfl | rfl | rfl | rfl | rfl | rfl | rfl | rfl
    · simp [issueOf, issueIp6Decode, hc]
    · simp [issueOf, issueTcpDecode, hc]
    all_goals simp [issueOf, issueReadBe, issueWriteBe, hm]
  · simp [issueOf, issueIp6Encode, Record.readable_eq_none.mpr hrec, hc]
  · simp [issueOf, issueTcpEncode, Record.readable_eq_none.mpr hrec, hc]
  · simp [issueOf, issueUnpack, bitRangeCheck_eq_none h1 h2 h3, hm]
  · simp [issueOf, issuePack, bitRangeCheck_eq_none h1 h2 h3, hm]

/-- The model refuses a slice over memory with read side effects (R67). -/
theorem exec_access_of_not_plain {i : Instr} {s : State} {lo n : Nat} {x : Issued}
    (hf : s.faulted = false) (h : issueOf i s = s.access lo n x) (hp : s.slicePlain = false) :
    exec i s = .refused .sideEffectSlice := by
  have hs : s.hits .sideEffects s.base.toNat s.len.toNat = true := by
    simpa [State.slicePlain] using hp
  simp [exec_eq_runCommand, runCommand, hf, h, State.access, hs]

/-- The block is stuck at a byte that is not backed (R62). -/
theorem exec_access_of_unbacked {i : Instr} {s : State} {lo n : Nat} {x : Issued}
    (hf : s.faulted = false) (h : issueOf i s = s.access lo n x) (hp : s.slicePlain = true)
    (hb : s.hits .absent lo n = true) : exec i s = .fault .unbackedByte := by
  have hs : s.hits .sideEffects s.base.toNat s.len.toNat = false := by
    simpa [State.slicePlain] using hp
  simp [exec_eq_runCommand, runCommand, hf, h, State.access, hs, hb]

/-- An access to a run of bytes covers one to a shorter run before it. -/
theorem State.access_access {s : State} {lo n k : Nat} (hle : n ≤ k) (x : Issued) :
    s.access lo n (s.access lo k x) = s.access lo k x := by
  unfold State.access
  cases hs : s.hits .sideEffects s.base.toNat s.len.toNat with
  | true => rfl
  | false =>
    cases hb : s.hits .absent lo k with
    | true => simp
    | false => simp [State.hits_mono hb (Nat.le_refl _) (by omega : lo + n ≤ lo + k)]

/-- With `4 * data_offset` bytes in the slice, `TCP_DECODE` comes to all of them (R181). -/
theorem issueTcpDecode_access {s : State} {d : Nat}
    (hd : d = (s.mem.read (s.start + 12)).toNat / 16) (h5 : 20 ≤ 4 * d)
    (hw : s.wrapCheck = none) (hl : s.off.toNat + 4 * d ≤ s.len.toNat) :
    ∃ x, issueTcpDecode s = s.access s.start (4 * d) x := by
  have hnib : (tcpOffsetNibble (s.mem.readBytes s.start 20)).toNat = d := by
    rw [tcpOffsetNibble_readBytes _ (by decide), hd]
  have h20 : ¬ s.avail < 20 := by unfold State.avail; omega
  have h4d : ¬ s.avail < 4 * d := by unfold State.avail; omega
  simp only [issueTcpDecode, issueTcpDecodeBody, hw, Issued.check_none, hnib, if_neg h20,
    if_neg (show ¬ d < 5 by omega), if_neg h4d]
  exact ⟨_, State.access_access h5 _⟩

/-- With a legal options length and its header in the slice, `TCP_ENCODE` comes to the whole header
(R186). -/
theorem issueTcpEncode_access {s : State} (hrec : s.tcp.readable = none) (hw : s.wrapCheck = none)
    (hn : tcpLength s.tcp.hdr % 4 = 0) (hle : tcpLength s.tcp.hdr ≤ 60)
    (hl : s.off.toNat + tcpLength s.tcp.hdr ≤ s.len.toNat) :
    ∃ x, issueTcpEncode s = s.access s.start (tcpLength s.tcp.hdr) x := by
  have hol : dataOffsetOf s.tcp.hdr.optionsLength ≠ none := by
    unfold tcpLength at hn hle
    rw [dataOffsetOf, if_pos (by omega)]
    simp
  have ha : ¬ s.avail < tcpLength s.tcp.hdr := by unfold State.avail; omega
  simp only [issueTcpEncode, hrec, hw, Issued.check_none, if_neg hol, if_neg ha]
  exact ⟨_, rfl⟩

/-- Settles O44: with its checks passed, ISSUE of a memory command is an access to its bytes. -/
theorem unadmittedMemoryStops : Obligations.UnadmittedMemoryStops := by
  intro s i n hf hslice hl hi
  have hw : s.wraps = false := by
    rw [Bool.eq_false_iff, Ne, State.wraps_iff]
    omega
  have hm : s.memCheck n = none := State.memCheck_eq_none.mpr ⟨hw, hl⟩
  have hc : s.wrapCheck = none := State.wrapCheck_eq_none.mpr hw
  have ha : ¬ s.avail < n := by unfold State.avail; omega
  have hacc : ∃ x, issueOf i s = s.access s.start n x := by
    rcases hi with hi | ⟨rfl, rfl⟩ | ⟨rfl, rfl, hrec⟩ | ⟨rfl, rfl | ⟨h20, rfl⟩⟩ |
      ⟨rfl, rfl, h4, h60, hrec⟩ | ⟨bo, w, rfl | rfl, h1, h2, h3, rfl⟩
    · simp only [bigEndianReads, bigEndianWrites, List.cons_append, List.nil_append, List.mem_cons,
        Prod.mk.injEq, List.not_mem_nil, or_false] at hi
      rcases hi with ⟨rfl, rfl⟩ | ⟨rfl, rfl⟩ | ⟨rfl, rfl⟩ | ⟨rfl, rfl⟩ | ⟨rfl, rfl⟩ | ⟨rfl, rfl⟩
      all_goals
        simp only [issueOf, issueReadBe, issueWriteBe, hm, Issued.check_none]
        exact ⟨_, rfl⟩
    · simp only [issueOf, issueIp6Decode, hc, Issued.check_none]
      exact ⟨_, if_neg ha⟩
    · simp only [issueOf, issueIp6Encode, Record.readable_eq_none.mpr hrec, hc, Issued.check_none]
      exact ⟨_, if_neg ha⟩
    · simp only [issueOf, issueTcpDecode, hc, Issued.check_none]
      exact ⟨_, if_neg ha⟩
    · exact issueTcpDecode_access rfl h20 hc hl
    · exact issueTcpEncode_access (Record.readable_eq_none.mpr hrec) hc h4 h60 hl
    · simp only [issueOf, issueUnpack, bitRangeCheck_eq_none h1 h2 h3, bitBytes, hm,
        Issued.check_none]
      exact ⟨_, rfl⟩
    · simp only [issueOf, issuePack, bitRangeCheck_eq_none h1 h2 h3, bitBytes, hm,
        Issued.check_none]
      exact ⟨_, rfl⟩
  obtain ⟨x, hx⟩ := hacc
  exact ⟨exec_access_of_not_plain hf hx, exec_access_of_unbacked hf hx⟩

/-! ### What a command stores -/

/-- The bytes that ISSUE hands to COMMIT to store lie where R66 says. -/
theorem IssueForm.writes_addr {i : Instr} {s : State} {p : Pending} (h : IssueForm i s p)
    {c : Host.Cell} (hc : c ∈ p.writes) : s.start ≤ c.1 ∧ c.1 < s.start + storedBytes s i := by
  cases h with
  | stores rd bs hlen => exact hlen ▸ cellsAt_addr hc
  | status | result | ip6Owned | tcpOwned | ip6Decoded | tcpDecoded => cases hc

theorem IssueForm.ip6_eq_none {i : Instr} {s : State} {p : Pending} (h : IssueForm i s p)
    (hi : changesIp6 i = false) : p.ip6 = none := by
  cases h with
  | ip6Owned rd r h6 => exact absurd (hi.symm.trans h6) (by decide)
  | ip6Decoded he => subst he; cases hi
  | status | result | stores | tcpOwned | tcpDecoded => rfl

theorem IssueForm.tcp_eq_none {i : Instr} {s : State} {p : Pending} (h : IssueForm i s p)
    (hi : changesTcp i = false) : p.tcp = none := by
  cases h with
  | tcpOwned rd r ht => exact absurd (hi.symm.trans ht) (by decide)
  | tcpDecoded he => subst he; cases hi
  | status | result | stores | ip6Owned | ip6Decoded => rfl

/-- Everything a command does to memory, and to the records it does not write: it stores some bytes
of its write set, none unless it completes (R66, R76, R80). -/
theorem exec_stores_cells {i : Instr} {s t : State} (h : exec i s = .next t) :
    ∃ cs : List Host.Cell, (∀ c ∈ cs, s.start ≤ c.1 ∧ c.1 < s.start + storedBytes s i) ∧
      t.mem = s.mem.writeCells cs ∧ (changesIp6 i = false → t.ip6 = s.ip6.touch cs) ∧
      (changesTcp i = false → t.tcp = s.tcp.touch cs) := by
  rcases exec_cases h with ⟨-, rfl⟩ | ⟨-, c, -, rfl⟩ | ⟨-, p, hp, rfl⟩
  · exact ⟨[], by simp, rfl, fun _ => rfl, fun _ => rfl⟩
  · exact ⟨[], by simp, rfl, fun _ => rfl, fun _ => rfl⟩
  · have form := issueOf_form hp
    rcases s.launch_cases { p with opc := i.opcode.code } with ⟨-, he⟩ | ⟨-, he⟩
    · rw [he]
      exact ⟨[], by simp, rfl, fun _ => rfl, fun _ => rfl⟩
    · have hraced : ({ p with opc := i.opcode.code } : Pending).raced = false := form.not_raced
      rw [he, State.commit_of_not_raced hraced]
      refine ⟨p.writes, fun c hc => form.writes_addr hc, rfl, fun h6 => ?_, fun ht => ?_⟩
      · simp [form.ip6_eq_none h6]
      · simp [form.tcp_eq_none ht]

/-- Settles O48: the bytes a command stores lie from `BASE + OFF` on, where R66 says. -/
theorem commandsStoreOnlyTheirBytes : Obligations.CommandsStoreOnlyTheirBytes := by
  intro s t i h a ha
  obtain ⟨cs, hcs, hmem, -, -⟩ := exec_stores_cells h
  rw [hmem]
  refine Memory.read_writeCells_of_not_mem _ _ _ fun c hc => ?_
  have haddr := hcs c hc
  unfold State.start at haddr
  omega

/-! ### Stale marking -/

/-- Stale marking changes staleness alone, and only by setting it for a covered byte of the range
stored to (R80). -/
theorem Record.touch_range {α : Type} {r : Record α} {cs : List Host.Cell} {lo n : Nat}
    (hcs : ∀ c ∈ cs, lo ≤ c.1 ∧ c.1 < lo + n) :
    r.touch cs = { r with stale := (r.touch cs).stale } ∧
      ((r.touch cs).stale ≠ r.stale →
        (r.touch cs).stale = true ∧ ∃ k, k < n ∧ r.covers (lo + k) = true) := by
  rw [Record.touch_eq]
  refine ⟨rfl, fun hne => ?_⟩
  cases hany : cs.any fun c => r.covers c.1 with
  | false => simp [hany] at hne
  | true =>
    obtain ⟨c, hc, hcov⟩ := List.any_eq_true.mp hany
    obtain ⟨hlo, hhi⟩ := hcs c hc
    exact ⟨Bool.or_true _, c.1 - lo, by omega, by rwa [Nat.add_sub_cancel' hlo]⟩

/-- Settles O49: a command that writes no record of a kind does to that record what its stores do. -/
theorem recordsChangeOnlyByTheirCommands : Obligations.RecordsChangeOnlyByTheirCommands := by
  intro s t i h
  obtain ⟨cs, hcs, -, h6, ht⟩ := exec_stores_cells h
  refine ⟨fun hi => ?_, fun hi => ?_⟩
  · rw [h6 hi]
    exact Record.touch_range hcs
  · rw [ht hi]
    exact Record.touch_range hcs

/-- A run of stored bytes touches a view exactly when the two intervals meet (R80). -/
theorem Record.touch_cellsAt_stale {α : Type} (r : Record α) (lo : Nat) {bs : List Byte}
    (hbs : 0 < bs.length) :
    (r.touch (cellsAt lo bs)).stale = (r.stale || decide (r.st = .bound ∧ 0 < r.bindN ∧
      r.bindLo.toNat < lo + bs.length ∧ lo < r.bindLo.toNat + r.bindN)) := by
  rw [Record.touch_stale]
  congr 1
  rw [Bool.eq_iff_iff, List.any_eq_true, decide_eq_true_iff]
  constructor
  · rintro ⟨c, hc, hcov⟩
    obtain ⟨hb, hlo, hhi⟩ := Record.covers_iff.mp hcov
    obtain ⟨hclo, hchi⟩ := cellsAt_addr hc
    exact ⟨hb, by omega, by omega, by omega⟩
  · rintro ⟨hb, hn, hhi, hlo⟩
    have hk : max lo r.bindLo.toNat - lo < bs.length := by omega
    refine ⟨_, mem_cellsAt.mpr ⟨_, hk, rfl⟩, Record.covers_iff.mpr ⟨hb, ?_, ?_⟩⟩ <;> omega

/-- A command that stores bytes is not `NOP` and writes neither `RES` nor a record (R22, R66). -/
theorem only_stores_of_storedBytes {s : State} {i : Instr} (h : 0 < storedBytes s i) :
    i ≠ .nop ∧ writesRes i = false ∧ changesIp6 i = false ∧ changesTcp i = false := by
  cases i with
  | wrBe16 | wrBe32 | wrBe64 | packBits | ip6Encode | tcpEncode =>
    exact ⟨Instr.noConfusion, rfl, rfl, rfl⟩
  | _ => exact absurd h (Nat.lt_irrefl 0)

/-- ISSUE of a storing command that is to end with `OK` hands COMMIT the bytes of its row of R66, and
no record. -/
theorem IssueForm.stores_of_ok {i : Instr} {s : State} {p : Pending} (h : IssueForm i s p)
    (hok : p.status = .ok) (hpos : 0 < storedBytes s i) :
    ∃ bs : List Byte, bs.length = storedBytes s i ∧ p.writes = cellsAt s.start bs ∧
      p.ip6 = none ∧ p.tcp = none := by
  obtain ⟨hnop, hres, h6, ht⟩ := only_stores_of_storedBytes hpos
  cases h with
  | stores rd bs hlen => exact ⟨bs, hlen, rfl, rfl, rfl⟩
  | status st rd hst => exact absurd hst (not_or.mpr ⟨hnop, not_not.mpr hok⟩)
  | result rd v hi => exact absurd (hres.symm.trans hi) (by decide)
  | ip6Owned rd r hi => exact absurd (h6.symm.trans hi) (by decide)
  | tcpOwned rd r hi => exact absurd (ht.symm.trans hi) (by decide)
  | ip6Decoded hi => subst hi; cases h6
  | tcpDecoded hi => subst hi; cases ht

theorem Status.eq_ok_of_code {st : Status} (h : st.code = 0x00) : st = .ok := by
  cases st with
  | ok => rfl
  | truncatedBuffer | bufferTooSmall | invalidDataOffset | invalidOptionsLength =>
    exact absurd h (by decide)

/-- A command of a block that is ready commits in the same step, once ISSUE lets it through (R76). -/
theorem exec_ready {i : Instr} {s : State} {p : Pending} (hr : s.ready = true)
    (h : issueOf i s = .ready p) : exec i s = .next (s.commit { p with opc := i.opcode.code }) :=
  exec_eq_runCommand i s ▸ runCommand_ready hr h

/-- A storing command that ends with `OK` stores every byte of its row of R66 (R76). -/
theorem exec_stores_all {i : Instr} {s t : State} (hr : s.ready = true) (h : exec i s = .next t)
    (hst : t.status = 0x00) (hpos : 0 < storedBytes s i) :
    ∃ bs : List Byte, bs.length = storedBytes s i ∧ t.ip6 = s.ip6.touch (cellsAt s.start bs) ∧
      t.tcp = s.tcp.touch (cellsAt s.start bs) := by
  obtain ⟨hf, -, -⟩ := State.ready_spec hr
  rcases exec_cases h with ⟨hf', -⟩ | ⟨-, c, -, rfl⟩ | ⟨-, p, hp, -⟩
  · exact absurd (hf.symm.trans hf') (by decide)
  · exact absurd hst (by simp [faultedCode])
  · have form := issueOf_form hp
    have hraced : ({ p with opc := i.opcode.code } : Pending).raced = false := form.not_raced
    rw [exec_ready hr hp, State.commit_of_not_raced hraced] at h
    cases h
    obtain ⟨bs, hlen, hw, h6, ht⟩ := form.stores_of_ok (Status.eq_ok_of_code hst) hpos
    exact ⟨bs, hlen, by simp [h6, hw], by simp [ht, hw]⟩

/-- Settles O50: the bytes stored are all of the range that R66 names, and stale marking is where it
meets the bytes a view covers. -/
theorem storesMarkViewsStale : Obligations.StoresMarkViewsStale := by
  intro s t i hr h hst hpos
  obtain ⟨bs, hlen, h6, ht⟩ := exec_stores_all hr h hst hpos
  have hbs : 0 < bs.length := hlen ▸ hpos
  rw [h6, ht, Record.touch_cellsAt_stale _ _ hbs, Record.touch_cellsAt_stale _ _ hbs, hlen]
  exact ⟨rfl, rfl⟩

/-! ### Between ISSUE and COMMIT -/

/-- The next step of a command in flight with nothing in between is its COMMIT (R76). -/
theorem step_pending {s : State} {p : Pending} (hp : s.pending = some p)
    (h : s.interposed = false) : step s = .next (s.commit p) := by
  simp only [step, hp, State.stepPending]
  cases ht : s.todo with
  | nil => rfl
  | cons e rest =>
    cases e with
    | during m => simp [State.interposed, ht] at h
    | port a => rfl
    | outside m => rfl

/-- Where a move of the outside comes next: between the phases of a command, or with none in flight
(log 11). -/
def State.movesNext (s : State) (m : Move) (rest : List Event) : Prop :=
  s.todo = .during m :: rest ∨ s.pending = none ∧ s.todo = .outside m :: rest

theorem step_of_movesNext {s : State} {m : Move} {rest : List Event} (h : s.movesNext m rest) :
    step s = ({ s with todo := rest } : State).move m := by
  rcases h with h | ⟨hp, h⟩
  · cases hp : s.pending with
    | some p => simp only [step, hp, State.stepPending, h, State.take]
    | none => simp only [step, hp, State.stepIdle, h, State.idleEvent, State.take]
  · simp only [step, hp, State.stepIdle, h, State.idleEvent, State.take]

theorem step_agentWrite {s : State} {a : Nat} {b : Byte} {rest : List Event}
    (h : s.movesNext (.write a b) rest) (ha : s.isBufferByte a = true) :
    step s = .next (({ s with todo := rest } : State).agentWrite a b) :=
  (step_of_movesNext h).trans (if_pos ha)

theorem step_agentRead {s : State} {a : Nat} {rest : List Event}
    (h : s.movesNext (.read a) rest) (ha : s.isBufferByte a = true) :
    step s = .next (({ s with todo := rest } : State).agentRead a) :=
  (step_of_movesNext h).trans (if_pos ha)

theorem State.commit_pending (s : State) (p : Pending) : (s.commit p).pending = none := by
  rcases s.commit_cases p with ⟨-, -, h⟩ | ⟨-, h⟩ <;> simp [h]

/-- A command is left in flight by one thing alone: its ISSUE is ready and something comes before its
COMMIT (R76). -/
theorem exec_left_pending {i : Instr} {s t : State} {p : Pending} (hnone : s.pending = none)
    (h : exec i s = .next t) (hp : t.pending = some p) :
    s.faulted = false ∧ t = { s with pending := some p } ∧
      ∃ q, issueOf i s = .ready q ∧ p = { q with opc := i.opcode.code } := by
  rcases exec_cases h with ⟨-, rfl⟩ | ⟨-, c, -, rfl⟩ | ⟨hf, q, hq, rfl⟩
  · exact absurd (hnone.symm.trans hp) (by simp)
  · exact absurd (hnone.symm.trans hp) (by simp)
  · rcases s.launch_cases { q with opc := i.opcode.code } with ⟨-, he⟩ | ⟨-, he⟩
    · rw [he] at hp ⊢
      cases hp
      exact ⟨hf, rfl, q, hq, rfl⟩
    · rw [he, State.commit_pending] at hp
      cases hp

/-- Settles O51: ISSUE looks at no event, and the COMMIT of a command in flight is the one that ends
it when nothing comes between. -/
theorem commitIsTheWholeEffect : Obligations.CommitIsTheWholeEffect := by
  intro s t p i hnone h hp
  obtain ⟨hf, rfl, q, hq, hpq⟩ := exec_left_pending hnone h hp
  refine ⟨rfl, fun evs hevs => ?_⟩
  have hstep := step_pending (s := { s with pending := some p, todo := evs }) rfl hevs
  have hr : ({ s with todo := evs } : State).ready = true := by
    simp only [State.ready, hevs, Bool.and_eq_true, Bool.not_eq_true', Option.isNone_iff_eq_none]
    exact ⟨⟨hf, hnone⟩, trivial⟩
  have hexec := exec_ready hr ((issueOf_setTodo i s evs).trans hq)
  rw [← hpq] at hexec
  exact hstep.trans hexec.symm

/-- Settles O52: the write is a store, and marks the command raced exactly on a byte of either set. -/
theorem agentWriteRaces : Obligations.AgentWriteRaces := by
  intro s p a b rest hp htodo ha hwf
  refine ⟨_, p.hitBy a, step_agentWrite (.inl htodo) ha, by simp [hp],
    Memory.read_write_self _ _ _ hwf, rfl, ?_, ?_⟩
  · rw [Pending.hitBy_eq]
  · rw [Pending.hitBy_eq]
    simp

/-- Settles O53: COMMIT of a raced command draws the bytes of its write set and takes the fault. -/
theorem racedCommandFaults : Obligations.RacedCommandFaults := by
  intro s p hp hraced hok hinter
  rcases s.commit_cases p with ⟨-, -, he⟩ | ⟨hdone, -⟩
  · rw [step_pending hp hinter, he]
    refine ⟨_, rfl, rfl, ?_, fun a ha => ?_⟩
    · rw [State.raceFault_fault, faultWord_toNat]
      simp [Cause.code, Nat.add_assoc]
    · refine Memory.read_writeCells_of_not_mem _ _ _ fun d hd => ?_
      obtain ⟨c, hc, hcd⟩ := mem_drawCells_addr hd
      exact hcd ▸ ha c hc
  · rcases hdone with h | h
    · exact absurd (hraced.symm.trans h) (by decide)
    · exact absurd hok h

theorem Pending.mem_of_newByte? {p : Pending} {a : Nat} {b : Byte} (h : p.newByte? a = some b) :
    (a, b) ∈ p.writes := by
  obtain ⟨c, hc, rfl⟩ := Option.map_eq_some_iff.mp h
  obtain rfl : c.1 = a := by simpa using List.find?_some hc
  exact List.mem_of_find?_eq_some hc

/-- Settles O54: the read changes what the other agent last read and the draw counter alone. -/
theorem agentReadsOldOrNew : Obligations.AgentReadsOldOrNew := by
  intro s p a rest hp htodo ha
  obtain ⟨b, n, he, hb⟩ := ({ s with todo := rest } : State).agentRead_eq a
  refine ⟨_, step_agentRead (.inl htodo) ha, ?_⟩
  rw [he]
  refine ⟨hp, rfl, rfl, ?_⟩
  rcases hb with rfl | ⟨q, hq, hnew⟩
  · exact ⟨.inl rfl, fun _ => rfl⟩
  · obtain rfl : p = q := Option.some.inj (hp.symm.trans hq)
    have hmem := Pending.mem_of_newByte? hnew
    exact ⟨.inr ⟨(a, b), hmem, rfl, rfl⟩, fun hno => absurd rfl (hno _ hmem)⟩

/-- Whether a record covers an address, as its binding says (R40). -/
theorem Record.covers_eq_decide {α : Type} (r : Record α) (a : Nat) :
    r.covers a = decide (r.st = .bound ∧ r.bindLo.toNat ≤ a ∧ a < r.bindLo.toNat + r.bindN) := by
  rw [Bool.eq_iff_iff, decide_eq_true_iff, Record.covers_iff]

theorem Pending.hitBy_setRaced (p : Pending) (a : Nat) :
    { p.hitBy a with raced := false } = { p with raced := false } := by rw [Pending.hitBy_eq]

/-- Settles O55: in both places the write is one and the same store of one byte. -/
theorem agentWriteMarksViewsStale : Obligations.AgentWriteMarksViewsStale := by
  intro s a b rest hcase ha
  refine ⟨_, step_agentWrite hcase.symm ha, ?_, ?_, Memory.read_write_self _ _ _,
    fun x hx => Memory.read_write_ne _ _ hx, ?_, ?_⟩
  · simp [State.agentWrite, State.store, Record.touch_eq]
  · rw [State.agentWrite_pending, Option.map_map]
    exact congrArg (Option.map · s.pending) (funext fun p => p.hitBy_setRaced a)
  · simp [Record.covers_eq_decide]
  · simp [Record.covers_eq_decide]

end Sys2Proof.Machine
end

section
/-! PROOFS (30_encoding.md). Decoding is the inverse of encoding the well-formed commands, and the
legal words are those of the opcode map with every field in its static range (R100-R105). -/

namespace Sys2Proof

/-! ### Codes -/

/-- In a table that holds every name at its own code, and the codes in order, the name at an index is
the one whose code the index is. -/
theorem getElem?_toNat_eq_some_iff {α : Type} {L : List α} {code : α → Byte}
    (hself : ∀ x, L[(code x).toNat]? = some x)
    (horder : L.map code = (List.range L.length).map (BitVec.ofNat 8)) {c : Byte} {x : α} :
    L[c.toNat]? = some x ↔ code x = c := by
  refine ⟨fun h => ?_, fun h => h ▸ hself x⟩
  have hmap : (L.map code)[c.toNat]? = some (code x) := by rw [List.getElem?_map, h]; rfl
  obtain ⟨hlt, -⟩ := List.getElem?_eq_some_iff.mp h
  rw [horder, List.getElem?_map, List.getElem?_range hlt] at hmap
  simpa using hmap.symm

@[simp] theorem Ip6Field.ofCode?_eq_some_iff {c : Byte} {f : Ip6Field} :
    Ip6Field.ofCode? c = some f ↔ f.code = c :=
  getElem?_toNat_eq_some_iff (fun f => by cases f <;> rfl) rfl

@[simp] theorem TcpField.ofCode?_eq_some_iff {c : Byte} {f : TcpField} :
    TcpField.ofCode? c = some f ↔ f.code = c :=
  getElem?_toNat_eq_some_iff (fun f => by cases f <;> rfl) rfl

@[simp] theorem AddrReg.ofCode?_eq_some_iff {c : Byte} {r : AddrReg} :
    AddrReg.ofCode? c = some r ↔ r.code = c :=
  getElem?_toNat_eq_some_iff (fun r => by cases r <;> rfl) rfl

@[simp] theorem ViewWidth.ofCode?_eq_some_iff {c : Byte} {w : ViewWidth} :
    ViewWidth.ofCode? c = some w ↔ w.code = c :=
  getElem?_toNat_eq_some_iff (fun w => by cases w <;> rfl) rfl

@[simp] theorem Opcode.ofCode?_eq_some_iff {c : Byte} {op : Opcode} :
    Opcode.ofCode? c = some op ↔ op.code = c :=
  ⟨fun h => by simpa using List.find?_some h, fun h => h ▸ Opcode.ofCode?_code op⟩

/-! ### Decoding and encoding -/

theorem commandWord_fields (w : BitVec 32) :
    commandWord (wordOpc w) (wordSel w) (wordIdx w) (wordWid w) = w := by
  apply BitVec.eq_of_getLsbD_eq
  intro j hj
  simp only [commandWord, wordOpc, wordSel, wordIdx, wordWid, BitVec.getLsbD_append,
    BitVec.getLsbD_extractLsb']
  interval_cases j <;> rfl

/-- A word is the word of a command exactly when its four fields are the command's. -/
theorem encode_eq_iff {i : Instr} {w : BitVec 32} :
    encode i = w ↔
      i.opcode.code = wordOpc w ∧ i.fields = (wordSel w, wordIdx w, wordWid w) := by
  constructor
  · rintro rfl
    rw [encode, wordOpc_commandWord, wordSel_commandWord, wordIdx_commandWord, wordWid_commandWord]
    exact ⟨rfl, rfl⟩
  · rintro ⟨hopc, hfields⟩
    rw [encode, hopc, hfields, commandWord_fields]

theorem Instr.unusedZero_fields (i : Instr) :
    i.opcode.unusedZero i.fields.1 i.fields.2.1 i.fields.2.2 = true := by cases i <;> rfl

/-- The row of a well-formed command builds it from its fields. -/
theorem Instr.build_fields {i : Instr} (hwf : i.wellFormed = true) :
    i.opcode.build i.fields.1 i.fields.2.1 i.fields.2.2 = some i := by
  cases i with
  | ip6FldRd f | ip6FldWr f =>
    exact Option.map_eq_some_iff.mpr ⟨f, Ip6Field.ofCode?_eq_some_iff.mpr rfl, rfl⟩
  | tcpFldRd f | tcpFldWr f =>
    exact Option.map_eq_some_iff.mpr ⟨f, TcpField.ofCode?_eq_some_iff.mpr rfl, rfl⟩
  | addrRd r w k | addrWr r w k =>
    exact Option.bind_eq_some_iff.mpr ⟨r, AddrReg.ofCode?_eq_some_iff.mpr rfl,
      Option.bind_eq_some_iff.mpr ⟨w, ViewWidth.ofCode?_eq_some_iff.mpr rfl,
        if_pos (of_decide_eq_true hwf)⟩⟩
  | optRd k | optWr k => exact if_pos (of_decide_eq_true hwf)
  | _ => rfl

/-- What a row builds, when its unused fields are 0, is a well-formed command of the row with the
fields given. -/
theorem Opcode.of_build {op : Opcode} {sel idx wid : Byte} {i : Instr}
    (hzero : op.unusedZero sel idx wid = true) (h : op.build sel idx wid = some i) :
    i.opcode = op ∧ i.fields = (sel, idx, wid) ∧ i.wellFormed = true := by
  cases op with
  | ip6FldRd | ip6FldWr | tcpFldRd | tcpFldWr =>
    obtain ⟨f, hf, rfl⟩ := Option.map_eq_some_iff.mp h
    simp_all [unusedZero, uses, Instr.opcode, Instr.fields, Instr.wellFormed]
  | addrRd | addrWr =>
    obtain ⟨r, hr, hbind⟩ := Option.bind_eq_some_iff.mp h
    obtain ⟨w, hw, hite⟩ := Option.bind_eq_some_iff.mp hbind
    obtain ⟨hk, ⟨⟩⟩ := Option.ite_none_right_eq_some.mp hite
    simp_all [Instr.opcode, Instr.fields, Instr.wellFormed]
  | optRd | optWr =>
    obtain ⟨hk, ⟨⟩⟩ := Option.ite_none_right_eq_some.mp h
    simp_all [unusedZero, uses, Instr.opcode, Instr.fields, Instr.wellFormed]
  | _ =>
    cases h
    simp_all [unusedZero, uses, Instr.opcode, Instr.fields, Instr.wellFormed]

/-- What the checks of the decoder, in the order of R105, let through. -/
theorem decodeWord_eq_command_iff_build {w : BitVec 32} {i : Instr} :
    decodeWord w = .command i ↔ ∃ op : Opcode, op.code = wordOpc w ∧
      op.unusedZero (wordSel w) (wordIdx w) (wordWid w) = true ∧
      op.build (wordSel w) (wordIdx w) (wordWid w) = some i := by
  simp only [decodeWord, ← Opcode.ofCode?_eq_some_iff]
  cases Opcode.ofCode? (wordOpc w) with
  | none => simp
  | some op =>
    cases hzero : op.unusedZero (wordSel w) (wordIdx w) (wordWid w) with
    | false => simp [hzero]
    | true => cases hbuild : op.build (wordSel w) (wordIdx w) (wordWid w) <;> simp [hzero, hbuild]

/-- Decoding is the inverse of encoding the well-formed commands (R100, R102, R105). -/
theorem decodeWord_eq_command_iff {w : BitVec 32} {i : Instr} :
    decodeWord w = .command i ↔ encode i = w ∧ i.wellFormed = true := by
  rw [decodeWord_eq_command_iff_build, encode_eq_iff]
  constructor
  · rintro ⟨op, hcode, hzero, hbuild⟩
    obtain ⟨rfl, hfields, hwf⟩ := Opcode.of_build hzero hbuild
    exact ⟨⟨hcode, hfields⟩, hwf⟩
  · rintro ⟨⟨hcode, hfields⟩, hwf⟩
    have hzero := i.unusedZero_fields
    have hbuild := Instr.build_fields hwf
    rw [hfields] at hzero hbuild
    exact ⟨i.opcode, hcode, hzero, hbuild⟩

/-- Settles O1: the row of a command is found again by its code, and builds the command from its
fields. -/
theorem decodeOfEncode : Obligations.DecodeOfEncode :=
  fun _ hwf => decodeWord_eq_command_iff.mpr ⟨rfl, hwf⟩

/-- Settles O2: the row a word is decoded by builds only commands with the fields of the word, and
checks their ranges. -/
theorem decodedWordIsItsEncoding : Obligations.DecodedWordIsItsEncoding :=
  fun _ _ => decodeWord_eq_command_iff.mp

/-- Settles O4: each sample word is the word of its command, so O1 decodes it. -/
theorem sampleWordsDecode : Obligations.SampleWordsDecode :=
  ⟨decodeOfEncode .nop rfl, decodeOfEncode .rdBe32 rfl, decodeOfEncode (.unpackBits 4 8) rfl,
    decodeOfEncode (.ip6FldRd .hopLimit) rfl, decodeOfEncode (.addrRd .dst .w64 1) rfl,
    decodeOfEncode (.tcpFldWr .optionsLength) rfl, decodeOfEncode (.optRd 39) rfl⟩

/-! ### The legal fields of a row -/

/-- The values of `SEL`, `IDX` and `WID` that are legal in a row: its unused fields are 0 (R102) and
its used ones in their static ranges (R103). -/
def Opcode.LegalFields (sel idx wid : Nat) : Opcode → Prop
  | .nop | .ip6Decode | .ip6Encode | .tcpDecode | .tcpEncode
  | .rdBe16 | .rdBe32 | .rdBe64 | .wrBe16 | .wrBe32 | .wrBe64
  | .ip6Clear | .ip6Detach | .tcpClear | .tcpDetach => sel = 0 ∧ idx = 0 ∧ wid = 0
  | .unpackBits | .packBits => sel = 0
  | .ip6FldRd | .ip6FldWr => sel ≤ 5 ∧ idx = 0 ∧ wid = 0
  | .addrRd | .addrWr => sel ≤ 1 ∧ wid ≤ 3 ∧ idx < 16 >>> wid
  | .tcpFldRd | .tcpFldWr => sel ≤ 10 ∧ idx = 0 ∧ wid = 0
  | .optRd | .optWr => sel = 0 ∧ idx ≤ 39 ∧ wid = 0

theorem exists_code_iff_lt_length {α : Type} {L : List α} {code : α → Byte} {c : Byte}
    (h : ∀ x, L[c.toNat]? = some x ↔ code x = c) : (∃ x, code x = c) ↔ c.toNat < L.length := by
  simp only [← h, List.getElem?_eq_some_iff, exists_comm, exists_eq', exists_prop, and_true]

theorem Ip6Field.exists_code_iff {c : Byte} : (∃ f : Ip6Field, f.code = c) ↔ c.toNat ≤ 5 :=
  (exists_code_iff_lt_length fun _ => ofCode?_eq_some_iff).trans Nat.lt_succ_iff

theorem TcpField.exists_code_iff {c : Byte} : (∃ f : TcpField, f.code = c) ↔ c.toNat ≤ 10 :=
  (exists_code_iff_lt_length fun _ => ofCode?_eq_some_iff).trans Nat.lt_succ_iff

theorem AddrReg.exists_code_iff {c : Byte} : (∃ r : AddrReg, r.code = c) ↔ c.toNat ≤ 1 :=
  (exists_code_iff_lt_length fun _ => ofCode?_eq_some_iff).trans Nat.lt_succ_iff

theorem ViewWidth.exists_code_iff {c : Byte} : (∃ w : ViewWidth, w.code = c) ↔ c.toNat ≤ 3 :=
  (exists_code_iff_lt_length fun _ => ofCode?_eq_some_iff).trans Nat.lt_succ_iff

/-- The range of an element index: a view has `16 >> WID` elements (R103, R220). -/
theorem ViewWidth.exists_code_and_lt_count_iff {c : Byte} {n : Nat} :
    (∃ w : ViewWidth, w.code = c ∧ n < w.count) ↔ c.toNat ≤ 3 ∧ n < 16 >>> c.toNat := by
  have hcount (w : ViewWidth) : w.count = 16 >>> w.code.toNat := by cases w <;> rfl
  rw [← ViewWidth.exists_code_iff]
  constructor
  · rintro ⟨w, rfl, hn⟩
    exact ⟨⟨w, rfl⟩, hcount w ▸ hn⟩
  · rintro ⟨⟨w, rfl⟩, hn⟩
    exact ⟨w, rfl, (hcount w).symm ▸ hn⟩

theorem toNat_eq_zero_iff {b : Byte} : b.toNat = 0 ↔ b = 0 := by rw [BitVec.toNat_eq]; rfl

/-- The decoder's checks of the fields of a row pass exactly on the legal ones. -/
theorem Opcode.legalFields_iff {op : Opcode} {sel idx wid : Byte} :
    op.LegalFields sel.toNat idx.toNat wid.toNat ↔
      op.unusedZero sel idx wid = true ∧ ∃ i, op.build sel idx wid = some i := by
  cases op with
  | ip6FldRd | ip6FldWr =>
    simp [LegalFields, unusedZero, uses, build, ← Ip6Field.exists_code_iff, toNat_eq_zero_iff,
      and_comm]
  | tcpFldRd | tcpFldWr =>
    simp [LegalFields, unusedZero, uses, build, ← TcpField.exists_code_iff, toNat_eq_zero_iff,
      and_comm]
  | addrRd | addrWr =>
    simp [LegalFields, unusedZero, uses, build, ← AddrReg.exists_code_iff,
      ← ViewWidth.exists_code_and_lt_count_iff, Option.bind_eq_some_iff]
  | optRd | optWr =>
    simp [LegalFields, unusedZero, uses, build, toNat_eq_zero_iff, and_assoc, and_comm]
  | _ => simp [LegalFields, unusedZero, uses, build, toNat_eq_zero_iff, and_assoc]

/-! ### The legal words -/

theorem exists_decodeWord_iff {w : BitVec 32} :
    (∃ i, decodeWord w = .command i) ↔ ∃ op : Opcode, op.code.toNat = (wordOpc w).toNat ∧
      op.LegalFields (wordSel w).toNat (wordIdx w).toNat (wordWid w).toNat := by
  simp only [decodeWord_eq_command_iff_build, Opcode.legalFields_iff, BitVec.toNat_inj]
  constructor
  · rintro ⟨i, op, hcode, hzero, hbuild⟩
    exact ⟨op, hcode, hzero, i, hbuild⟩
  · rintro ⟨op, hcode, hzero, i, hbuild⟩
    exact ⟨i, op, hcode, hzero, hbuild⟩

theorem highBits_eq_zero_iff {v : Word} : v.extractLsb' 32 32 = 0 ↔ v.toNat < 2 ^ 32 := by
  have hv := v.isLt
  have h0 : (0 : BitVec 32).toNat = 0 := rfl
  rw [BitVec.toNat_eq, BitVec.extractLsb'_toNat, Nat.shiftRight_eq_div_pow, h0]
  omega

/-- A write to `CMD` is legal when its high bits are 0 and its fields are legal in the row of its
`OPC` (R104). -/
theorem exists_decodePort_iff {v : Word} :
    (∃ i, decodePort v = .command i) ↔ v.toNat < 2 ^ 32 ∧
      ∃ op : Opcode, op.code.toNat = (v.extractLsb' 24 8).toNat ∧
        op.LegalFields (v.extractLsb' 16 8).toNat (v.extractLsb' 8 8).toNat
          (v.extractLsb' 0 8).toNat := by
  have hword := exists_decodeWord_iff (w := v.setWidth 32)
  simp (disch := decide) only [wordOpc, wordSel, wordIdx, wordWid,
    BitVec.extractLsb'_setWidth_of_le] at hword
  rw [← hword, ← highBits_eq_zero_iff, decodePort]
  split
  next hhigh => exact (and_iff_right hhigh).symm
  next hhigh => exact ⟨fun ⟨_, hi⟩ => Decoded.noConfusion hi, fun hi => absurd hi.1 hhigh⟩

theorem Opcode.exists_legalFields_of_mem {ops : List Opcode} {opc sel idx wid : Nat}
    (hopc : opc ∈ ops.map fun op => op.code.toNat)
    (hlegal : ∀ op ∈ ops, op.LegalFields sel idx wid) :
    ∃ op : Opcode, op.code.toNat = opc ∧ op.LegalFields sel idx wid := by
  obtain ⟨op, hop, hcode⟩ := List.mem_map.mp hopc
  exact ⟨op, hcode, hlegal op hop⟩

/-- The rows of the opcode map by their numbers (R102), those with the same legal fields together. -/
theorem Opcode.exists_legalFields_iff {opc sel idx wid : Nat} :
    (∃ op : Opcode, op.code.toNat = opc ∧ op.LegalFields sel idx wid) ↔
      (opc ∈ [0x00, 0x01, 0x02, 0x03, 0x04, 0x10, 0x11, 0x12, 0x14, 0x15, 0x16, 0x20, 0x21, 0x30,
          0x31] ∧ sel = 0 ∧ idx = 0 ∧ wid = 0) ∨
        (opc ∈ [0x18, 0x19] ∧ sel = 0) ∨
        (opc ∈ [0x22, 0x23] ∧ sel ≤ 5 ∧ idx = 0 ∧ wid = 0) ∨
        (opc ∈ [0x24, 0x25] ∧ sel ≤ 1 ∧ wid ≤ 3 ∧ idx < 16 >>> wid) ∨
        (opc ∈ [0x32, 0x33] ∧ sel ≤ 10 ∧ idx = 0 ∧ wid = 0) ∨
        (opc ∈ [0x34, 0x35] ∧ sel = 0 ∧ idx ≤ 39 ∧ wid = 0) := by
  constructor
  · rintro ⟨op, rfl, h⟩
    cases op with
    | unpackBits | packBits => exact .inr (.inl ⟨by decide, h⟩)
    | ip6FldRd | ip6FldWr => exact .inr (.inr (.inl ⟨by decide, h⟩))
    | addrRd | addrWr => exact .inr (.inr (.inr (.inl ⟨by decide, h⟩)))
    | tcpFldRd | tcpFldWr => exact .inr (.inr (.inr (.inr (.inl ⟨by decide, h⟩))))
    | optRd | optWr => exact .inr (.inr (.inr (.inr (.inr ⟨by decide, h⟩))))
    | _ => exact .inl ⟨by decide, h⟩
  · rintro (⟨hopc, h⟩ | ⟨hopc, h⟩ | ⟨hopc, h⟩ | ⟨hopc, h⟩ | ⟨hopc, h⟩ | ⟨hopc, h⟩)
    · exact exists_legalFields_of_mem
        (ops := [.nop, .ip6Decode, .ip6Encode, .tcpDecode, .tcpEncode, .rdBe16, .rdBe32, .rdBe64,
          .wrBe16, .wrBe32, .wrBe64, .ip6Clear, .ip6Detach, .tcpClear, .tcpDetach]) hopc
        (by simp [LegalFields, h])
    · exact exists_legalFields_of_mem (ops := [.unpackBits, .packBits]) hopc
        (by simp [LegalFields, h])
    · exact exists_legalFields_of_mem (ops := [.ip6FldRd, .ip6FldWr]) hopc
        (by simp [LegalFields, h])
    · exact exists_legalFields_of_mem (ops := [.addrRd, .addrWr]) hopc (by simp [LegalFields, h])
    · exact exists_legalFields_of_mem (ops := [.tcpFldRd, .tcpFldWr]) hopc
        (by simp [LegalFields, h])
    · exact exists_legalFields_of_mem (ops := [.optRd, .optWr]) hopc (by simp [LegalFields, h])

/-- Settles O3: a legal word has high bits 0 and fields legal in its row, and the rows are those of
R102. -/
theorem illegalExactlyWhen : Obligations.IllegalExactlyWhen :=
  fun _ => exists_decodePort_iff.trans (and_congr_right fun _ => Opcode.exists_legalFields_iff)

end Sys2Proof
end

section
/-! PROOFS (40_byteorder_bitpack.md). The byte-order commands (R130-R136) and the bit-group commands
(R137-R140): what they return, what they store, and where they fault. -/

namespace Sys2Proof.Machine

/-! ### A memory command that may reach its bytes -/

/-- The memory check and the access of a command that may reach its bytes let it through (R130). -/
theorem State.check_access_of_canAccess {s : State} {n : Nat} (hc : s.canAccess n = true)
    (x : Issued) : Issued.check (s.memCheck n) (s.access s.start n x) = x := by
  obtain ⟨-, hm, -, -, hreach, -⟩ := State.canAccess_spec hc
  rw [hm, Issued.check_none, State.access_of_reaches _ hreach]

/-! ### A completed store -/

/-- A storing command is a store and then a status (R76, R305). -/
theorem exec_store_finish {i : Instr} {s : State} {cs : List Host.Cell} {rd : List Nat}
    (hr : s.ready = true) (h : issueOf i s = .stores rd cs) :
    exec i s = .next ((s.store cs).finish .ok) := exec_stores hr h

/-- A completed store changes memory and `STATUS`, and the records only in staleness. -/
theorem State.store_finish_frame (s : State) (cs : List Host.Cell) :
    (s.store cs).finish .ok = { s with
      mem := ((s.store cs).finish .ok).mem, status := 0x00
      ip6 := { s.ip6 with stale := ((s.store cs).finish .ok).ip6.stale }
      tcp := { s.tcp with stale := ((s.store cs).finish .ok).tcp.stale } } := by
  simp only [State.finish_mem, State.finish_ip6, State.finish_tcp, State.store_mem, State.store_ip6,
    State.store_tcp, Record.touch_stale, ← Record.touch_eq]
  rfl

/-- Storing to a byte that a record covers leaves the record stale (R80). -/
theorem Record.touch_cellsAt_of_covers {α : Type} {r : Record α} {lo k : Nat} {bs : List Byte}
    (hk : k < bs.length) (h : r.covers (lo + k) = true) :
    (r.touch (cellsAt lo bs)).stale = true := by
  rw [Record.touch_stale, List.any_eq_true.mpr ⟨_, mem_cellsAt.mpr ⟨k, hk, rfl⟩, h⟩, Bool.or_true]

/-- A byte of the run stored holds what was stored there. -/
theorem State.store_finish_read {s : State} {bs : List Byte} {k : Nat} (hwf : s.memWf = true)
    (hk : k < bs.length) :
    ((s.store (cellsAt s.start bs)).finish .ok).mem.read (s.start + k) = bs.getD k 0 := by
  rw [State.finish_mem, State.store_mem, Memory.read_writeCells_cellsAt _ _ _ _ hwf,
    if_pos (by omega), Nat.add_sub_cancel_left]

/-- A byte outside the run stored is as it was. -/
theorem State.store_finish_read_outside {s : State} {bs : List Byte} {a : Nat}
    (hwf : s.memWf = true) (ha : a < s.start ∨ s.start + bs.length ≤ a) :
    ((s.store (cellsAt s.start bs)).finish .ok).mem.read a = s.mem.read a := by
  rw [State.finish_mem, State.store_mem, Memory.read_writeCells_cellsAt _ _ _ _ hwf,
    if_neg (by omega)]

/-! ### Big-endian reads and writes (R131-R136) -/

theorem issueOf_bigEndianReads {i : Instr} {n : Nat} (h : (i, n) ∈ bigEndianReads) :
    issueOf i = issueReadBe n ∧ n ≤ 8 := by
  simp only [bigEndianReads, List.mem_cons, Prod.mk.injEq, List.not_mem_nil, or_false] at h
  rcases h with ⟨rfl, rfl⟩ | ⟨rfl, rfl⟩ | ⟨rfl, rfl⟩ <;> exact ⟨rfl, by decide⟩

theorem issueOf_bigEndianWrites {i : Instr} {n : Nat} (h : (i, n) ∈ bigEndianWrites) :
    issueOf i = issueWriteBe n := by
  simp only [bigEndianWrites, List.mem_cons, Prod.mk.injEq, List.not_mem_nil, or_false] at h
  rcases h with ⟨rfl, rfl⟩ | ⟨rfl, rfl⟩ | ⟨rfl, rfl⟩ <;> rfl

theorem issueReadBe_of_canAccess {s : State} {n : Nat} (hc : s.canAccess n = true) :
    issueReadBe n s = .result (addrsFrom s.start n)
      (BitVec.ofNat 64 (beNat (s.mem.readBytes s.start n))) :=
  State.check_access_of_canAccess hc _

theorem issueWriteBe_of_canAccess {s : State} {n : Nat} (hc : s.canAccess n = true) :
    issueWriteBe n s = .stores [] (cellsAt s.start (bytesBe n s.val.toNat)) :=
  State.check_access_of_canAccess hc _

/-- Byte `k` of the integer that a run of memory bytes is. -/
theorem beNat_readBytes_byte (m : Memory) (a : Nat) {n k : Nat} (hk : k < n) :
    beNat (m.readBytes a n) / 256 ^ (n - 1 - k) % 256 = (m.read (a + k)).toNat := by
  have h := beNat_byte (m.readBytes a n) k (by rwa [Memory.readBytes_length])
  rwa [Memory.readBytes_length, Memory.readBytes_getD, if_pos hk] at h

/-- Settles O11: `RES` holds the integer of the bytes read, whole, as they are at most eight. -/
theorem bigEndianReadsReturnTheirBytes : Obligations.BigEndianReadsReturnTheirBytes := by
  intro s i n hin hr hc
  obtain ⟨hi, hn⟩ := issueOf_bigEndianReads hin
  have hexec := exec_result hr (hi ▸ issueReadBe_of_canAccess hc)
  have hres := exec_read_res hi hn hr hc hexec
  refine ⟨_, hexec, rfl, ?_, fun k hk => ?_⟩
  · rw [hres]
    exact beNat_readBytes_lt _ _ _
  · rw [hres]
    exact beNat_readBytes_byte _ _ hk

/-- Settles O12: the bytes stored are those of `VAL`, and the store leaves the rest as it was. -/
theorem bigEndianWritesStoreTheirBytes : Obligations.BigEndianWritesStoreTheirBytes := by
  intro s i n hin hr hc hwf
  have hlen := bytesBe_length n s.val.toNat
  refine ⟨_, exec_store_finish hr (issueOf_bigEndianWrites hin ▸ issueWriteBe_of_canAccess hc),
    State.store_finish_frame _ _, fun k hk => ?_, fun a ha => ?_⟩
  · rw [← bytesBe_getD _ _ _ hk]
    exact congrArg BitVec.toNat (State.store_finish_read hwf (hlen.symm ▸ hk))
  · exact State.store_finish_read_outside hwf (hlen.symm ▸ ha)

/-! ### Where they fault (R130, R137) -/

theorem bitRangeCheck_eq_some {bo w : Nat} (h : 7 < bo ∨ w = 0 ∨ 16 < bo + w) :
    bitRangeCheck bo w = some .badBitRange := by
  rw [bitRangeCheck, if_neg (by omega)]

theorem State.memCheck_of_outOfRange {s : State} {n : Nat} (hw : s.wraps = false)
    (h : s.len.toNat < s.off.toNat + n) : s.memCheck n = some .outOfRange := by
  simp [State.memCheck, hw, h]

/-- What a fault leaves, with the fault record as a word (R24, R306). -/
theorem exec_faultWord {i : Instr} {s : State} {c : Cause} {v : Word} (hf : s.faulted = false)
    (h : issueOf i s = .faults c) (hv : faultWord i.opcode.code c = v) :
    exec i s = .next { s with fault := v, status := 0xFF } := hv ▸ exec_faults hf h

/-- What a fault leaves, with the fault record as a number (R24, R306). -/
theorem exec_raises {i : Instr} {s : State} {c : Cause} (hf : s.faulted = false)
    (h : issueOf i s = .faults c) :
    ∃ t, exec i s = .next t ∧ t = { s with fault := t.fault, status := 0xFF } ∧
      t.fault.toNat = i.opcode.code.toNat * 2 ^ 24 + c.code.toNat * 256 + 1 :=
  ⟨_, exec_faults hf h, rfl, faultWord_toNat _ _⟩

/-- The memory check is the first check of a byte-order command, and of a bit-group command once its
range is legal. -/
theorem issueOf_memCheck {i : Instr} {n : Nat} (s : State)
    (h : (i, n) ∈ bigEndianReads ++ bigEndianWrites ∨
      ∃ bo w : Byte, (i = .unpackBits bo w ∨ i = .packBits bo w) ∧
        bo.toNat ≤ 7 ∧ 1 ≤ w.toNat ∧ bo.toNat + w.toNat ≤ 16 ∧ n = bitBytes bo.toNat w.toNat) :
    ∃ x, issueOf i s = .check (s.memCheck n) x := by
  rcases h with h | ⟨bo, w, rfl | rfl, h1, h2, h3, rfl⟩
  · rcases List.mem_append.mp h with h | h
    · rw [(issueOf_bigEndianReads h).1]
      exact ⟨_, rfl⟩
    · rw [issueOf_bigEndianWrites h]
      exact ⟨_, rfl⟩
  · simp only [issueOf, issueUnpack, bitRangeCheck_eq_none h1 h2 h3, Issued.check_none]
    exact ⟨_, rfl⟩
  · simp only [issueOf, issuePack, bitRangeCheck_eq_none h1 h2 h3, Issued.check_none]
    exact ⟨_, rfl⟩

/-- Settles O14: the memory check finds `AddressWrap` before `OutOfRange`. -/
theorem byteOrderRangeFaults : Obligations.ByteOrderRangeFaults := by
  intro s i n hi hf
  obtain ⟨x, hx⟩ := issueOf_memCheck s hi
  refine ⟨fun hwrap => exec_raises (c := .addressWrap) hf ?_,
    fun hfit hout => exec_raises (c := .outOfRange) hf ?_⟩
  · rw [hx, State.memCheck_of_wraps (State.wraps_iff.mpr hwrap), Issued.check_some]
  · have hw : s.wraps = false := by
      rw [Bool.eq_false_iff, Ne, State.wraps_iff]
      omega
    rw [hx, State.memCheck_of_outOfRange hw hout, Issued.check_some]

/-- Settles O17: the range check is the first check of both commands. -/
theorem badBitRangeFaultsFirst : Obligations.BadBitRangeFaultsFirst := by
  intro s bo w hf hbad
  have hc := bitRangeCheck_eq_some hbad
  have hunpack : faultWord Opcode.unpackBits.code .badBitRange = 0x18000301 := by decide
  have hpack : faultWord Opcode.packBits.code .badBitRange = 0x19000301 := by decide
  constructor
  · refine exec_faultWord hf ?_ hunpack
    simp only [issueOf, issueUnpack, hc, Issued.check_some]
  · refine exec_faultWord hf ?_ hpack
    simp only [issueOf, issuePack, hc, Issued.check_some]

/-! ### Bits of the 16-bit window (R137-R139)

Wire bit `j` of the one or two bytes, counted from the top, is bit `15 - j` of the window. -/

theorem bitBytes_cases (bo w : Nat) :
    bo + w ≤ 8 ∧ bitBytes bo w = 1 ∨ 8 < bo + w ∧ bitBytes bo w = 2 := by
  unfold bitBytes
  split_ifs <;> omega

/-- A wire bit of the spanned bytes lies in the first byte, or in the second of two. -/
theorem wireIndex_cases {bo w j : Nat} (hj : j < 8 * bitBytes bo w) :
    (j / 8 = 0 ∧ 7 - j % 8 = 15 - j - 8 ∧ ¬ 15 - j < 8) ∨
    (bitBytes bo w = 2 ∧ j / 8 = 1 ∧ 7 - j % 8 = 15 - j ∧ 15 - j < 8) := by
  have := bitBytes_cases bo w
  omega

theorem bitWindow_getLsbD (b : List Byte) {bo w j : Nat} (hj : j < 8 * bitBytes bo w) :
    (bitWindow b (bitBytes bo w)).getLsbD (15 - j) = (byteAt b (j / 8)).getLsbD (7 - j % 8) := by
  rw [bitWindow, BitVec.getLsbD_append]
  rcases wireIndex_cases hj with ⟨hq, hr, hi⟩ | ⟨hnb, hq, hr, hi⟩
  · rw [if_neg hi, hq, hr]
  · rw [if_pos hi, if_pos hnb, hq, hr]

theorem windowBytes_getLsbD (win : BitVec 16) {bo w j : Nat} (hj : j < 8 * bitBytes bo w) :
    ((windowBytes win (bitBytes bo w)).getD (j / 8) 0).getLsbD (7 - j % 8) =
      win.getLsbD (15 - j) := by
  rcases wireIndex_cases hj with ⟨hq, hr, hi⟩ | ⟨hnb, hq, hr, hi⟩
  · have hfirst : (windowBytes win (bitBytes bo w)).getD 0 0 = win.extractLsb' 8 8 := by
      unfold windowBytes
      split <;> rfl
    rw [hq, hfirst, hr, BitVec.getLsbD_extractLsb', decide_eq_true (by omega), Bool.true_and]
    congr 1
    omega
  · rw [hq, hr, windowBytes, if_pos hnb]
    simp [hi]

theorem bitMask_getLsbD {w i : Nat} (hw : w ≤ 16) : (bitMask w).getLsbD i = decide (i < w) := by
  rw [bitMask, BitVec.getLsbD_ofNat, Nat.testBit_two_pow_sub_one, Bool.and_eq_right_iff_imp]
  simp only [decide_eq_true_eq]
  omega

theorem unpackWindow_getLsbD (win : BitVec 16) {bo w i : Nat} (h : bo + w ≤ 16) :
    (unpackWindow win bo w).getLsbD i = (win.getLsbD (16 - bo - w + i) && decide (i < w)) := by
  rw [unpackWindow, BitVec.getLsbD_and, BitVec.getLsbD_ushiftRight, bitMask_getLsbD (by omega)]

/-- A window with its bit group replaced: the low bits of the value in the range, top bit first, and
the old bits elsewhere. -/
theorem packWindow_getLsbD (win : BitVec 16) (v : Word) {bo w j : Nat} (h : bo + w ≤ 16)
    (hj : j < 16) :
    (packWindow win bo w v).getLsbD (15 - j) =
      if bo ≤ j ∧ j < bo + w then v.getLsbD (w - 1 - (j - bo)) else win.getLsbD (15 - j) := by
  simp only [packWindow, BitVec.getLsbD_or, BitVec.getLsbD_and, BitVec.getLsbD_not,
    BitVec.getLsbD_shiftLeft, BitVec.getLsbD_setWidth, bitMask_getLsbD (show w ≤ 16 by omega)]
  have hlt : 15 - j < 16 := by omega
  split_ifs with hin
  · have hsh : ¬ 15 - j < 16 - bo - w := by omega
    have hidx : 15 - j - (16 - bo - w) = w - 1 - (j - bo) := by omega
    have h1 : w - 1 - (j - bo) < w := by omega
    have h2 : w - 1 - (j - bo) < 16 := by omega
    simp [hlt, hsh, hidx, h1, h2]
  · have hout : 15 - j < 16 - bo - w ∨ ¬ 15 - j - (16 - bo - w) < w := by omega
    rcases hout with hout | hout <;> simp [hlt, hout]

/-! ### Wire bits of memory -/

theorem wireBit_readBytes (m : Memory) (a : Nat) {bo w j : Nat} (hj : j < 8 * bitBytes bo w) :
    (bitWindow (m.readBytes a (bitBytes bo w)) (bitBytes bo w)).getLsbD (15 - j) =
      wireBit m a j := by
  rw [bitWindow_getLsbD _ hj, byteAt_readBytes _ (by omega), wireBit]

/-- Memories with the same wire bits hold the same bytes. -/
theorem Memory.read_eq_of_wireBit {m m' : Memory} {a : Nat}
    (h : ∀ j, wireBit m a j = wireBit m' a j) (k : Nat) : m.read (a + k) = m'.read (a + k) := by
  apply BitVec.eq_of_getLsbD_eq
  intro i hi
  have hk := h (8 * k + (7 - i))
  simp only [wireBit] at hk
  rwa [show (8 * k + (7 - i)) / 8 = k by omega, show 7 - (8 * k + (7 - i)) % 8 = i by omega] at hk

/-! ### `UNPACK_BITS` (R138) -/

/-- The value that `UNPACK_BITS` puts in `RES`. -/
def State.bitGroup (s : State) (bo w : Nat) : Word :=
  (unpackWindow (bitWindow (s.mem.readBytes s.start (bitBytes bo w)) (bitBytes bo w)) bo
    w).setWidth 64

theorem exec_unpackBits {s : State} {bo w : Byte} (h1 : bo.toNat ≤ 7) (h2 : 1 ≤ w.toNat)
    (h3 : bo.toNat + w.toNat ≤ 16) (hr : s.ready = true)
    (hc : s.canAccess (bitBytes bo.toNat w.toNat) = true) :
    exec (.unpackBits bo w) s =
      .next { s with res := s.bitGroup bo.toNat w.toNat, status := 0x00 } := by
  have hissue : issueOf (.unpackBits bo w) s =
      .result (addrsFrom s.start (bitBytes bo.toNat w.toNat)) (s.bitGroup bo.toNat w.toNat) := by
    rw [issueOf, issueUnpack, bitRangeCheck_eq_none h1 h2 h3, Issued.check_none,
      State.check_access_of_canAccess hc, State.bitGroup]
  exact exec_result hr hissue

theorem State.bitGroup_getLsbD (s : State) {bo w j : Nat} (h : bo + w ≤ 16) (hj : j < w) :
    (s.bitGroup bo w).getLsbD (w - 1 - j) = wireBit s.mem s.start (bo + j) := by
  have hspan : bo + j < 8 * bitBytes bo w := by
    have := bitBytes_cases bo w
    omega
  rw [State.bitGroup, BitVec.getLsbD_setWidth, unpackWindow_getLsbD _ h,
    show 16 - bo - w + (w - 1 - j) = 15 - (bo + j) by omega, wireBit_readBytes _ _ hspan,
    decide_eq_true (by omega), decide_eq_true (by omega), Bool.true_and, Bool.and_true]

theorem State.bitGroup_lt (s : State) {bo w : Nat} (h : bo + w ≤ 16) :
    (s.bitGroup bo w).toNat < 2 ^ w := by
  refine Nat.lt_pow_two_of_testBit _ fun i hi => ?_
  rw [BitVec.testBit_toNat, State.bitGroup, BitVec.getLsbD_setWidth, unpackWindow_getLsbD _ h]
  simp [hi]

/-- Wire bits fix the value of their group. -/
theorem State.bitGroup_eq_of_wireBit {s : State} {bo w n : Nat} (h : bo + w ≤ 16) (hn : n < 2 ^ w)
    (hbits : ∀ j, j < w → wireBit s.mem s.start (bo + j) = n.testBit (w - 1 - j)) :
    (s.bitGroup bo w).toNat = n := by
  apply Nat.eq_of_testBit_eq
  intro i
  by_cases hi : i < w
  · have hj := hbits (w - 1 - i) (by omega)
    rw [← s.bitGroup_getLsbD h (by omega), show w - 1 - (w - 1 - i) = i by omega] at hj
    exact hj
  · have hpow : 2 ^ w ≤ 2 ^ i := Nat.pow_le_pow_right (by decide) (by omega)
    rw [Nat.testBit_lt_two_pow ((s.bitGroup_lt h).trans_le hpow),
      Nat.testBit_lt_two_pow (hn.trans_le hpow)]

/-- Settles O15: the bits of the window are the wire bits of the bytes read. -/
theorem unpackReturnsTheBitGroup : Obligations.UnpackReturnsTheBitGroup := by
  intro s bo w h1 h2 h3 hr hc
  exact ⟨_, exec_unpackBits h1 h2 h3 hr hc, rfl, s.bitGroup_lt h3,
    fun j hj => s.bitGroup_getLsbD h3 hj⟩

/-! ### `PACK_BITS` (R139) -/

/-- The bytes that `PACK_BITS` writes. -/
def State.packedBytes (s : State) (bo w : Nat) : List Byte :=
  windowBytes
    (packWindow (bitWindow (s.mem.readBytes s.start (bitBytes bo w)) (bitBytes bo w)) bo w s.val)
    (bitBytes bo w)

/-- The state that `PACK_BITS` leaves. -/
def State.packed (s : State) (bo w : Nat) : State :=
  (s.store (cellsAt s.start (s.packedBytes bo w))).finish .ok

@[simp] theorem State.packedBytes_length (s : State) (bo w : Nat) :
    (s.packedBytes bo w).length = bitBytes bo w := windowBytes_length _ _ _

theorem exec_packBits {s : State} {bo w : Byte} (h1 : bo.toNat ≤ 7) (h2 : 1 ≤ w.toNat)
    (h3 : bo.toNat + w.toNat ≤ 16) (hr : s.ready = true)
    (hc : s.canAccess (bitBytes bo.toNat w.toNat) = true) :
    exec (.packBits bo w) s = .next (s.packed bo.toNat w.toNat) := by
  have hissue : issueOf (.packBits bo w) s =
      .stores (addrsFrom s.start (bitBytes bo.toNat w.toNat))
        (cellsAt s.start (s.packedBytes bo.toNat w.toNat)) := by
    rw [issueOf, issuePack, bitRangeCheck_eq_none h1 h2 h3, Issued.check_none,
      State.check_access_of_canAccess hc, State.packedBytes]
  exact exec_store_finish hr hissue

/-- `PACK_BITS` keeps the operands, so the next command starts where it did. -/
@[simp] theorem State.packed_start (s : State) (bo w : Nat) : (s.packed bo w).start = s.start := rfl

@[simp] theorem State.packed_ready (s : State) (bo w : Nat) : (s.packed bo w).ready = s.ready := rfl

@[simp] theorem State.packed_canAccess (s : State) (bo w n : Nat) :
    (s.packed bo w).canAccess n = s.canAccess n := rfl

/-- `PACK_BITS` writes its packed bytes over the spanned ones. -/
theorem State.packed_read {s : State} {bo w k : Nat} (hwf : s.memWf = true)
    (hk : k < bitBytes bo w) :
    (s.packed bo w).mem.read (s.start + k) = (s.packedBytes bo w).getD k 0 :=
  State.store_finish_read hwf ((s.packedBytes_length bo w).symm ▸ hk)

/-- `PACK_BITS` leaves the bytes that its range does not span. -/
theorem State.packed_read_outside {s : State} {bo w a : Nat} (hwf : s.memWf = true)
    (ha : a < s.start ∨ s.start + bitBytes bo w ≤ a) :
    (s.packed bo w).mem.read a = s.mem.read a :=
  State.store_finish_read_outside hwf ((s.packedBytes_length bo w).symm ▸ ha)

/-- Every wire bit after a `PACK_BITS`: the low bits of `VAL` in the range, and the old bit at every
other place, in the spanned bytes and past them. -/
theorem State.packed_wireBit (s : State) {bo w : Nat} (h : bo + w ≤ 16) (hwf : s.memWf = true)
    (j : Nat) :
    wireBit (s.packed bo w).mem s.start j =
      if bo ≤ j ∧ j < bo + w then s.val.getLsbD (w - 1 - (j - bo))
      else wireBit s.mem s.start j := by
  have hnb := bitBytes_cases bo w
  by_cases hj : j < 8 * bitBytes bo w
  · rw [wireBit, State.packed_read hwf (by omega), State.packedBytes, windowBytes_getLsbD _ hj,
      packWindow_getLsbD _ _ h (by omega), wireBit_readBytes _ _ hj]
  · rw [wireBit, State.packed_read_outside hwf (by omega), if_neg (by omega), wireBit]

/-- Settles O16: the bits of the window are the wire bits of the bytes written. -/
theorem packReplacesTheBitGroup : Obligations.PackReplacesTheBitGroup := by
  intro s bo w h1 h2 h3 hr hc hwf
  exact ⟨_, exec_packBits h1 h2 h3 hr hc, State.store_finish_frame _ _,
    fun j _ => s.packed_wireBit h3 hwf j, fun _ ha => State.packed_read_outside hwf ha⟩

/-! ### The laws of the bit groups (R140) -/

/-- The group just packed reads back as the low bits of `VAL`. -/
theorem State.bitGroup_packed_same (s : State) {bo w : Nat} (h : bo + w ≤ 16)
    (hwf : s.memWf = true) :
    ((s.packed bo w).bitGroup bo w).toNat = s.val.toNat % 2 ^ w := by
  refine State.bitGroup_eq_of_wireBit h (Nat.mod_lt _ (Nat.two_pow_pos w)) fun j hj => ?_
  rw [State.packed_start, State.packed_wireBit _ h hwf, if_pos (by omega), Nat.add_sub_cancel_left,
    Nat.testBit_mod_two_pow, decide_eq_true (by omega), Bool.true_and, BitVec.testBit_toNat]

/-- A group disjoint from the one packed keeps its value. -/
theorem State.bitGroup_packed_disjoint (s : State) {bo w bo2 w2 : Nat} (h : bo + w ≤ 16)
    (h2 : bo2 + w2 ≤ 16) (hwf : s.memWf = true) (hdisj : bo2 + w2 ≤ bo ∨ bo + w ≤ bo2) :
    (s.packed bo w).bitGroup bo2 w2 = s.bitGroup bo2 w2 := by
  apply BitVec.eq_of_toNat_eq
  refine State.bitGroup_eq_of_wireBit h2 (s.bitGroup_lt h2) fun j hj => ?_
  rw [State.packed_start, State.packed_wireBit _ h hwf, if_neg (by omega), BitVec.testBit_toNat,
    State.bitGroup_getLsbD _ h2 hj]

/-- Packing a group's own value leaves every wire bit as it was. -/
theorem State.packed_wireBit_of_val {s : State} {bo w : Nat} (h : bo + w ≤ 16)
    (hwf : s.memWf = true) (hval : s.val = s.bitGroup bo w) (j : Nat) :
    wireBit (s.packed bo w).mem s.start j = wireBit s.mem s.start j := by
  rw [State.packed_wireBit _ h hwf]
  split_ifs with hin
  · rw [hval, State.bitGroup_getLsbD _ h (by omega), Nat.add_sub_cancel' hin.1]
  · rfl

/-- Packing a group's own value leaves every byte as it was. -/
theorem State.packed_read_of_val {s : State} {bo w : Nat} (h : bo + w ≤ 16)
    (hwf : s.memWf = true) (hval : s.val = s.bitGroup bo w) (a : Nat) :
    (s.packed bo w).mem.read a = s.mem.read a := by
  by_cases ha : s.start ≤ a
  · have hbyte := Memory.read_eq_of_wireBit (State.packed_wireBit_of_val h hwf hval) (a - s.start)
    rwa [Nat.add_sub_cancel' ha] at hbyte
  · exact State.packed_read_outside hwf (.inl (Nat.lt_of_not_le ha))

/-- Settles O18: each law is read off the wire bits that `PACK_BITS` leaves; stale marking does not
look at the values written. -/
theorem packThenUnpack : Obligations.PackThenUnpack := by
  intro s t bo w hr hwf h1 h2 h3 hc ht
  rw [exec_packBits h1 h2 h3 hr hc] at ht
  cases ht
  have hr' := (s.packed_ready bo.toNat w.toNat).trans hr
  refine ⟨⟨_, exec_unpackBits h1 h2 h3 hr' ((State.packed_canAccess _ _ _ _).trans hc),
    s.bitGroup_packed_same h3 hwf⟩, ?_, ?_⟩
  · intro bo2 w2 g1 g2 g3 hc2 hdisj
    exact ⟨_, _, exec_unpackBits g1 g2 g3 hr hc2,
      exec_unpackBits g1 g2 g3 hr' ((State.packed_canAccess _ _ _ _).trans hc2),
      s.bitGroup_packed_disjoint h3 g3 hwf hdisj⟩
  · exact ⟨_, _, exec_unpackBits h1 h2 h3 hr hc, exec_packBits h1 h2 h3 hr hc,
      State.packed_read_of_val h3 hwf rfl, fun _ hk =>
        ⟨Record.touch_cellsAt_of_covers ((State.packedBytes_length _ _ _).symm ▸ hk),
          Record.touch_cellsAt_of_covers ((State.packedBytes_length _ _ _).symm ▸ hk)⟩⟩

end Sys2Proof.Machine
end

section
/-! PROOFS (41_ipv6_codec.md). The IPv6 codec commands (R150-R164), the detaches and clears of both
records (R157, R158, R192, R193), and the record checks of every command (R150, R180). -/

namespace Sys2Proof.Machine

/-! ### The record checks (R150, R180) -/

theorem Record.readable_of_empty {α : Type} {r : Record α} (h : r.st = .empty) :
    r.readable = some .undefinedRecord := by simp [Record.readable, h]

theorem Record.readable_of_stale {α : Type} {r : Record α} (h : r.st = .bound)
    (hs : r.stale = true) : r.readable = some .staleView := by simp [Record.readable, h, hs]

theorem Record.writable_of_empty {α : Type} {r : Record α} (h : r.st = .empty) :
    r.writable = some .undefinedRecord := by simp [Record.writable, h]

theorem Record.writable_of_bound {α : Type} {r : Record α} (h : r.st = .bound) :
    r.writable = some .readOnlyView := by simp [Record.writable, h]

theorem elemCheck_eq_none {w : ViewWidth} {k : Nat} (h : k < w.count) : elemCheck w k = none :=
  if_pos h

theorem optIndexCheck_eq_none {k : Nat} (h : k ≤ 39) : optIndexCheck k = none := if_pos h

/-- A command that needs a readable IPv6 record checks for one before anything that can fault. -/
theorem issueOf_of_readsIp6 {i : Instr} (h : readsIp6 i = true) (s : State) :
    ∃ x, issueOf i s = .check s.ip6.readable x := by
  cases i with
  | ip6Encode | ip6Detach | ip6FldRd f => exact ⟨_, rfl⟩
  | addrRd r w k =>
    rw [issueOf, issueAddrRd, elemCheck_eq_none (of_decide_eq_true h)]
    exact ⟨_, rfl⟩
  | _ => cases h

theorem issueOf_of_writesIp6 {i : Instr} (h : writesIp6 i = true) (s : State) :
    ∃ x, issueOf i s = .check s.ip6.writable x := by
  cases i with
  | ip6FldWr f => exact ⟨_, rfl⟩
  | addrWr r w k =>
    rw [issueOf, issueAddrWr, elemCheck_eq_none (of_decide_eq_true h)]
    exact ⟨_, rfl⟩
  | _ => cases h

theorem issueOf_of_readsTcp {i : Instr} (h : readsTcp i = true) (s : State) :
    ∃ x, issueOf i s = .check s.tcp.readable x := by
  cases i with
  | tcpEncode | tcpDetach | tcpFldRd f => exact ⟨_, rfl⟩
  | optRd k =>
    rw [issueOf, issueOptRd, optIndexCheck_eq_none (of_decide_eq_true h)]
    exact ⟨_, rfl⟩
  | _ => cases h

theorem issueOf_of_writesTcp {i : Instr} (h : writesTcp i = true) (s : State) :
    ∃ x, issueOf i s = .check s.tcp.writable x := by
  cases i with
  | tcpFldWr f => exact ⟨_, rfl⟩
  | optWr k =>
    rw [issueOf, issueOptWr, optIndexCheck_eq_none (of_decide_eq_true h)]
    exact ⟨_, rfl⟩
  | _ => cases h

/-- A command whose ISSUE begins with a check that finds a fault takes that fault. -/
theorem exec_check_faults {i : Instr} {s : State} {chk : Option Cause} {c : Cause}
    (hf : s.faulted = false) (hi : ∃ x, issueOf i s = .check chk x) (hc : chk = some c) :
    exec i s = .next (s.raise i.opcode.code c) := by
  obtain ⟨x, hx⟩ := hi
  exact exec_faults hf (by rw [hx, hc, Issued.check_some])

/-- Settles O40: each guarded command begins with the check of its record. -/
theorem recordChecksFault : Obligations.RecordChecksFault := by
  intro s i hf
  refine ⟨fun hi hst => ?_,
    fun hi hst hs =>
      exec_check_faults hf (issueOf_of_readsIp6 hi s) (Record.readable_of_stale hst hs),
    fun hi hst => exec_check_faults hf (issueOf_of_writesIp6 hi s) (Record.writable_of_bound hst),
    fun hi hst => ?_,
    fun hi hst hs =>
      exec_check_faults hf (issueOf_of_readsTcp hi s) (Record.readable_of_stale hst hs),
    fun hi hst => exec_check_faults hf (issueOf_of_writesTcp hi s) (Record.writable_of_bound hst)⟩
  · rcases Bool.or_eq_true_iff.mp hi with hi | hi
    · exact exec_check_faults hf (issueOf_of_readsIp6 hi s) (Record.readable_of_empty hst)
    · exact exec_check_faults hf (issueOf_of_writesIp6 hi s) (Record.writable_of_empty hst)
  · rcases Bool.or_eq_true_iff.mp hi with hi | hi
    · exact exec_check_faults hf (issueOf_of_readsTcp hi s) (Record.readable_of_empty hst)
    · exact exec_check_faults hf (issueOf_of_writesTcp hi s) (Record.writable_of_empty hst)

/-! ### Clears and detaches (R157, R158, R192, R193) -/

/-- Settles O23: a clear has no check, and the words are those of the opcode map. -/
theorem clearsMakeOwnedZeroRecords : Obligations.ClearsMakeOwnedZeroRecords := by
  exact ⟨fun s hr => ⟨⟨_, exec_setIp6 hr rfl, rfl⟩, ⟨_, exec_setTcp hr rfl, rfl⟩⟩, by decide,
    by decide⟩

theorem Record.detach_of_bound {α : Type} {r : Record α} (h : r.st = .bound) :
    r.detach = { r with st := .owned, bindLo := r.detach.bindLo, bindN := 0, stale := false } := by
  simp [Record.detach, Record.unbind, h]

theorem Record.detach_of_owned {α : Type} {r : Record α} (h : r.st = .owned) : r.detach = r := by
  simp [Record.detach, h]

theorem exec_ip6Detach {s : State} (hr : s.ready = true) (hrec : s.ip6.readable = none) :
    exec .ip6Detach s = .next { s with ip6 := s.ip6.detach, status := 0x00 } := by
  refine exec_setIp6 (rd := []) hr ?_
  rw [issueOf, issueIp6Detach, hrec, Issued.check_none]

theorem exec_tcpDetach {s : State} (hr : s.ready = true) (hrec : s.tcp.readable = none) :
    exec .tcpDetach s = .next { s with tcp := s.tcp.detach, status := 0x00 } := by
  refine exec_setTcp (rd := []) hr ?_
  rw [issueOf, issueTcpDetach, hrec, Issued.check_none]

theorem issueOf_ip6Detach_faults {s : State} {c : Cause} (h : s.ip6.readable = some c) :
    issueOf .ip6Detach s = .faults c := by
  rw [issueOf, issueIp6Detach, h, Issued.check_some]

theorem issueOf_tcpDetach_faults {s : State} {c : Cause} (h : s.tcp.readable = some c) :
    issueOf .tcpDetach s = .faults c := by
  rw [issueOf, issueTcpDetach, h, Issued.check_some]

/-- Settles O24: the record check lets a readable record through to the detach, and faults on any
other. -/
theorem detachesMakeOwnedCopies : Obligations.DetachesMakeOwnedCopies := by
  refine ⟨fun s hr => ?_, by decide, by decide⟩
  have hf := (State.ready_spec hr).1
  refine ⟨fun hst hs => ⟨_, exec_ip6Detach hr (Record.readable_eq_none.mpr (.inr ⟨hst, hs⟩)), ?_⟩,
    fun hst => ?_,
    fun hst => exec_faultWord hf (issueOf_ip6Detach_faults (Record.readable_of_empty hst))
      (by decide),
    fun hst hs => exec_faultWord hf (issueOf_ip6Detach_faults (Record.readable_of_stale hst hs))
      (by decide),
    fun hst hs => ⟨_, exec_tcpDetach hr (Record.readable_eq_none.mpr (.inr ⟨hst, hs⟩)), ?_⟩,
    fun hst => ?_,
    fun hst => exec_faultWord hf (issueOf_tcpDetach_faults (Record.readable_of_empty hst))
      (by decide),
    fun hst hs => exec_faultWord hf (issueOf_tcpDetach_faults (Record.readable_of_stale hst hs))
      (by decide)⟩
  · rw [← Record.detach_of_bound hst]
  · rw [exec_ip6Detach hr (Record.readable_eq_none.mpr (.inl hst)), Record.detach_of_owned hst]
  · rw [← Record.detach_of_bound hst]
  · rw [exec_tcpDetach hr (Record.readable_eq_none.mpr (.inl hst)), Record.detach_of_owned hst]

/-! ### IPv6 fields (R161, R162) -/

/-- A named field is read whole (R11, R161). -/
theorem Ip6Header.toNat_get (h : Ip6Header) (f : Ip6Field) :
    (h.get f).toNat = ip6FieldNat h f := by
  cases f <;> exact BitVec.toNat_setWidth_of_le (by decide)

/-- The field written holds the value truncated to its width (R18, R162). -/
theorem Ip6Header.fieldNat_set_self (h : Ip6Header) (f : Ip6Field) (v : Word) :
    ip6FieldNat (h.set f v) f = v.toNat % 2 ^ ip6FieldWidth f := by
  cases f <;> exact BitVec.toNat_setWidth _ _

theorem Ip6Header.fieldNat_set_of_ne (h : Ip6Header) {f g : Ip6Field} (v : Word) (hg : g ≠ f) :
    ip6FieldNat (h.set f v) g = ip6FieldNat h g := by
  cases f <;> cases g
  case version.version | trafficClass.trafficClass | flowLabel.flowLabel
      | payloadLength.payloadLength | nextHeader.nextHeader | hopLimit.hopLimit =>
    exact absurd rfl hg
  all_goals rfl

@[simp] theorem Ip6Header.set_src (h : Ip6Header) (f : Ip6Field) (v : Word) :
    (h.set f v).src = h.src := by cases f <;> rfl

@[simp] theorem Ip6Header.set_dst (h : Ip6Header) (f : Ip6Field) (v : Word) :
    (h.set f v).dst = h.dst := by cases f <;> rfl

/-- Settles O25: a readable record passes the check of `IP6_FLD_RD`. -/
theorem ip6FieldReadReturnsTheField : Obligations.Ip6FieldReadReturnsTheField := by
  intro s f hr hrec
  have hissue : issueOf (.ip6FldRd f) s = .result [] (s.ip6.hdr.get f) := by
    rw [issueOf, issueIp6FldRd, Record.readable_eq_none.mpr hrec, Issued.check_none]
  exact ⟨_, exec_result hr hissue, rfl, Ip6Header.toNat_get _ _⟩

/-- Settles O26: an `OWNED` record passes the check of `IP6_FLD_WR`. -/
theorem ip6FieldWriteTruncates : Obligations.Ip6FieldWriteTruncates := by
  intro s f hr hst
  have hissue : issueOf (.ip6FldWr f) s =
      .setIp6 [] (s.ip6.setHdr (s.ip6.hdr.set f s.val)) := by
    rw [issueOf, issueIp6FldWr, Record.writable_eq_none.mpr hst, Issued.check_none]
  exact ⟨_, exec_setIp6 hr hissue, rfl, Ip6Header.set_src _ _ _, Ip6Header.set_dst _ _ _,
    Ip6Header.fieldNat_set_self _ _ _, fun g hg => Ip6Header.fieldNat_set_of_ne _ _ hg⟩

/-! ### The 40 header bytes (R91, R92) -/

theorem eq_of_byteAt {bs cs : List Byte} (hlen : bs.length = cs.length)
    (h : ∀ i, i < cs.length → byteAt bs i = byteAt cs i) : bs = cs := by
  refine List.ext_getElem hlen fun i h1 h2 => ?_
  have hi := h i h2
  rwa [byteAt, byteAt, List.getD_eq_getElem _ _ h1, List.getD_eq_getElem _ _ h2] at hi

/-- The 40 bytes are fixed by their header (R91). -/
theorem eq_of_ip6OfBytes_eq {bs cs : List Byte} (hbs : bs.length = 40) (hcs : cs.length = 40)
    (h : ip6OfBytes bs = ip6OfBytes cs) : bs = cs := by
  refine eq_of_byteAt (hbs.trans hcs.symm) fun i hi => ?_
  obtain ⟨bver, btc, bfl, bpl, bnh, bhl, baddr⟩ := ip6OfBytes_fields bs
  obtain ⟨cver, ctc, cfl, cpl, cnh, chl, caddr⟩ := ip6OfBytes_fields cs
  rw [h] at bver btc bfl bpl bnh bhl baddr
  by_cases h8 : i < 8
  · apply BitVec.eq_of_toNat_eq
    dsimp only at bver btc bfl bpl bnh bhl cver ctc cfl cpl cnh chl
    interval_cases i <;> omega
  · by_cases h24 : i < 24
    · have hsrc := (baddr ⟨i - 8, by omega⟩).1.symm.trans (caddr ⟨i - 8, by omega⟩).1
      rwa [show 8 + (i - 8) = i by omega] at hsrc
    · have hdst := (baddr ⟨i - 24, by omega⟩).2.symm.trans (caddr ⟨i - 24, by omega⟩).2
      rwa [show 24 + (i - 24) = i by omega] at hdst

/-- The header of 40 bytes is written as the same 40 bytes (R163). -/
theorem ip6ToBytes_ip6OfBytes {bs : List Byte} (hlen : bs.length = 40) :
    ip6ToBytes (ip6OfBytes bs) = bs :=
  eq_of_ip6OfBytes_eq (ip6ToBytes_length _) hlen (ip6OfBytes_ip6ToBytes _)

/-- A header decoded from memory holds the fields of its bytes (R92). -/
theorem ip6FieldsAt_ip6OfBytes (m : Memory) (a : Nat) :
    Ip6FieldsAt m a (ip6OfBytes (m.readBytes a 40)) := by
  have hfields := ip6OfBytes_fields (m.readBytes a 40)
  simp (disch := omega) only [byteAt_readBytes, ← Nat.add_assoc] at hfields
  exact hfields

/-- Settles O27: each byte and each nibble of the header holds bits of one field alone, and decoding
gives back the fields encoded. -/
theorem flowLabelIsIsolated : Obligations.FlowLabelIsIsolated := by
  intro h fl ver tc x y z
  have hnibble : ∀ (hi lo : BitVec 4), (hi ++ lo : Byte).extractLsb' 4 4 = hi ∧
      (hi ++ lo : Byte).extractLsb' 0 4 = lo :=
    fun hi lo => ⟨BitVec.extractLsb'_append_eq_left, BitVec.extractLsb'_append_eq_right⟩
  have hx : ip6OfBytes x = h := ip6OfBytes_ip6ToBytes _
  have hy : ip6OfBytes y = { h with flowLabel := fl } := ip6OfBytes_ip6ToBytes _
  have hz : ip6OfBytes z = { h with version := ver, trafficClass := tc } := ip6OfBytes_ip6ToBytes _
  rw [hx, hy, hz]
  refine ⟨⟨fun i h1 h2 h3 => ?_, (hnibble _ _).1.trans (hnibble _ _).1.symm, rfl, rfl, rfl⟩,
    fun i h0 h1 => ?_, (hnibble _ _).2.trans (hnibble _ _).2.symm, rfl, rfl, rfl⟩
  · match i, h1, h2, h3 with
    | 0, _, _, _ => rfl
    | _ + 4, _, _, _ => rfl
  · match i, h0, h1 with
    | _ + 2, _, _ => rfl

/-! ### Runs of bytes -/

/-- Reading back a run of bytes just written gives the run. -/
theorem Memory.readBytes_writeCells_cellsAt {m : Memory} (hwf : m.wf = true) (lo : Nat)
    (bs : List Byte) : (m.writeCells (cellsAt lo bs)).readBytes lo bs.length = bs := by
  refine eq_of_byteAt (Memory.readBytes_length _ _ _) fun i hi => ?_
  rw [byteAt_readBytes _ hi, Memory.read_writeCells_cellsAt _ _ _ _ hwf, if_pos (by omega),
    Nat.add_sub_cancel_left, byteAt]

/-- Writing back a run of bytes just read leaves every byte as it was. -/
theorem Memory.read_writeCells_readBytes {m : Memory} (hwf : m.wf = true) (lo n a : Nat) :
    (m.writeCells (cellsAt lo (m.readBytes lo n))).read a = m.read a := by
  rw [Memory.read_writeCells_cellsAt _ _ _ _ hwf, Memory.readBytes_length]
  split_ifs with ha
  · rw [Memory.readBytes_getD, if_pos (by omega), Nat.add_sub_cancel' ha.1]
  · rfl

/-! ### `IP6_DECODE` and `IP6_ENCODE` (R151, R152, R155, R163) -/

/-- The state that a completed `IP6_DECODE` leaves (R151). -/
def State.ip6Decoded (s : State) : State :=
  { s with
    ip6 := Record.bind (ip6OfBytes (s.mem.readBytes s.start 40)) (s.base + s.off) 40
    status := 0x00 }

/-- The state that a completed `IP6_ENCODE` leaves (R155). -/
def State.ip6Encoded (s : State) : State :=
  (s.store (cellsAt s.start (ip6ToBytes s.ip6.hdr))).finish .ok

theorem exec_ip6Decode {s : State} (hr : s.ready = true) (hc : s.canAccess 40 = true) :
    exec .ip6Decode s = .next s.ip6Decoded := by
  obtain ⟨-, -, hw, ha, hreach, -⟩ := State.canAccess_spec hc
  have ha : ¬ s.avail < 40 := ha
  refine exec_setIp6 (rd := addrsFrom s.start 40) hr ?_
  rw [issueOf, issueIp6Decode, hw, Issued.check_none, if_neg ha, State.access_of_reaches _ hreach]

theorem exec_ip6Encode {s : State} (hr : s.ready = true) (hc : s.canAccess 40 = true)
    (hrec : s.ip6.readable = none) : exec .ip6Encode s = .next s.ip6Encoded := by
  obtain ⟨-, -, hw, ha, hreach, -⟩ := State.canAccess_spec hc
  have ha : ¬ s.avail < 40 := ha
  refine exec_store_finish (rd := []) hr ?_
  rw [issueOf, issueIp6Encode, hrec, Issued.check_none, hw, Issued.check_none, if_neg ha,
    State.access_of_reaches _ hreach]

@[simp] theorem State.ip6Decoded_mem (s : State) : s.ip6Decoded.mem = s.mem := rfl

@[simp] theorem State.ip6Decoded_start (s : State) : s.ip6Decoded.start = s.start := rfl

@[simp] theorem State.ip6Decoded_ready (s : State) : s.ip6Decoded.ready = s.ready := rfl

@[simp] theorem State.ip6Decoded_canAccess (s : State) (n : Nat) :
    s.ip6Decoded.canAccess n = s.canAccess n := rfl

@[simp] theorem State.ip6Decoded_hdr (s : State) :
    s.ip6Decoded.ip6.hdr = ip6OfBytes (s.mem.readBytes s.start 40) := rfl

@[simp] theorem State.ip6Decoded_readable (s : State) : s.ip6Decoded.ip6.readable = none := rfl

@[simp] theorem State.ip6Encoded_mem (s : State) :
    s.ip6Encoded.mem = s.mem.writeCells (cellsAt s.start (ip6ToBytes s.ip6.hdr)) := rfl

@[simp] theorem State.ip6Encoded_start (s : State) : s.ip6Encoded.start = s.start := rfl

@[simp] theorem State.ip6Encoded_ready (s : State) : s.ip6Encoded.ready = s.ready := rfl

@[simp] theorem State.ip6Encoded_canAccess (s : State) (n : Nat) :
    s.ip6Encoded.canAccess n = s.canAccess n := rfl

/-- The 40 bytes that `IP6_ENCODE` leaves at `BASE + OFF` are those of the header. -/
theorem State.ip6Encoded_readBytes {s : State} (hwf : s.memWf = true) :
    s.ip6Encoded.mem.readBytes s.start 40 = ip6ToBytes s.ip6.hdr := by
  have hread := Memory.readBytes_writeCells_cellsAt hwf s.start (ip6ToBytes s.ip6.hdr)
  rwa [ip6ToBytes_length] at hread

/-- Settles O20: both commands come to the length check, and end there. -/
theorem ip6ShortSliceStatuses : Obligations.Ip6ShortSliceStatuses := by
  intro s hr hslice hshort
  have hw : s.wrapCheck = none := by
    rw [State.wrapCheck_eq_none, Bool.eq_false_iff, Ne, State.wraps_iff]
    omega
  have ha : s.avail < 40 := by unfold State.avail; omega
  refine ⟨exec_finish (st := .truncatedBuffer) (rd := []) hr ?_,
    fun hrec => exec_finish (st := .bufferTooSmall) (rd := []) hr ?_⟩
  · rw [issueOf, issueIp6Decode, hw, Issued.check_none, if_pos ha]
  · rw [issueOf, issueIp6Encode, Record.readable_eq_none.mpr hrec, Issued.check_none, hw,
      Issued.check_none, if_pos ha]

/-- Settles O19: the record holds the header decoded from the 40 bytes. -/
theorem ip6DecodeBindsTheHeader : Obligations.Ip6DecodeBindsTheHeader := by
  intro s hr hc
  exact ⟨_, exec_ip6Decode hr hc, rfl, rfl, rfl, rfl, rfl, ip6FieldsAt_ip6OfBytes _ _⟩

/-- Settles O21: the bytes stored decode to the header, so they hold its fields. -/
theorem ip6EncodeWritesTheHeader : Obligations.Ip6EncodeWritesTheHeader := by
  intro s hr hc hwf hrec
  refine ⟨_, exec_ip6Encode hr hc (Record.readable_eq_none.mpr hrec), State.store_finish_frame _ _,
    ?_, fun a ha => State.store_finish_read_outside hwf ((ip6ToBytes_length _).symm ▸ ha)⟩
  have hfields := ip6FieldsAt_ip6OfBytes s.ip6Encoded.mem s.start
  rwa [State.ip6Encoded_readBytes hwf, ip6OfBytes_ip6ToBytes] at hfields

/-- Settles O22: the byte functions of the two commands are inverse to each other, and neither
command moves the slice. -/
theorem ip6RoundTrip : Obligations.Ip6RoundTrip := by
  intro s hr hc hwf
  refine ⟨fun hrec => ?_, ?_⟩
  · have hencode := exec_ip6Encode hr hc (Record.readable_eq_none.mpr hrec)
    have hdecode : exec .ip6Decode s.ip6Encoded = .next s.ip6Encoded.ip6Decoded :=
      exec_ip6Decode (by simpa using hr) (by simpa using hc)
    refine ⟨_, _, hencode, hdecode, ?_⟩
    rw [State.ip6Decoded_hdr, State.ip6Encoded_start, State.ip6Encoded_readBytes hwf,
      ip6OfBytes_ip6ToBytes]
  · have hencode : exec .ip6Encode s.ip6Decoded = .next s.ip6Decoded.ip6Encoded :=
      exec_ip6Encode (by simpa using hr) (by simpa using hc) s.ip6Decoded_readable
    refine ⟨_, _, exec_ip6Decode hr hc, hencode, fun a => ?_⟩
    rw [State.ip6Encoded_mem, State.ip6Decoded_hdr, State.ip6Decoded_start, State.ip6Decoded_mem,
      ip6ToBytes_ip6OfBytes (Memory.readBytes_length _ _ _), Memory.read_writeCells_readBytes hwf]

end Sys2Proof.Machine
end

section
/-! PROOFS (42_tcp_codec.md). The TCP codec commands (R181-R187, R201), the TCP fields (R37, R197, R198)
and the option bytes (R199, R200). -/

namespace Sys2Proof.Machine

/-! ### The slice and the options length -/

/-- A slice that does not pass the top of the address space passes the wrap check (R69). -/
theorem State.wrapCheck_of_fits {s : State} (h : s.base.toNat + s.len.toNat ≤ 2 ^ s.params.aw) :
    s.wrapCheck = none := by
  rw [State.wrapCheck_eq_none, Bool.eq_false_iff, Ne, State.wraps_iff]
  omega

theorem State.avail_lt_iff {s : State} {n : Nat} :
    s.avail < (n : Int) ↔ s.len.toNat < s.off.toNat + n := by
  unfold State.avail
  omega

theorem dataOffsetOf_eq_none_iff {ol : BitVec 16} :
    dataOffsetOf ol = none ↔ ¬(ol.toNat % 4 = 0 ∧ ol.toNat ≤ 40) := by
  unfold dataOffsetOf
  split_ifs with h <;> simp [h]

/-- A defined `data_offset` is the length of the header in 32-bit words (R37). -/
theorem dataOffsetOf_eq_some {ol : BitVec 16} {d : Nat} (h : dataOffsetOf ol = some d) :
    d = (20 + ol.toNat) / 4 ∧ ol.toNat ≤ 40 := by
  unfold dataOffsetOf at h
  split_ifs at h with hol
  exact ⟨(Option.some.inj h).symm, hol.2⟩

/-- The length of a header with a legal options length is whole 32-bit words (R186). -/
theorem four_mul_dataOffset {h : TcpHeader} (h4 : h.optionsLength.toNat % 4 = 0) :
    4 * ((20 + h.optionsLength.toNat) / 4) = tcpLength h := by
  unfold tcpLength
  omega

/-! ### The header bytes (R93-R95) -/

/-- A header decoded from memory holds the fixed fields of its bytes (R94). -/
theorem tcpFixedFieldsAt_tcpOfBytes (m : Memory) (a : Nat) {n : Nat} (hn : 20 ≤ n) :
    TcpFixedFieldsAt m a (tcpOfBytes (m.readBytes a n)) := by
  simp only [TcpFixedFieldsAt, tcpOfBytes, toNat_append2, toNat_append4]
  simp (disch := omega) only [byteAt_readBytes, Nat.add_zero, and_self]

/-- The reserved nibble is the low one of byte 12 (R93). -/
theorem reserved_tcpOfBytes (m : Memory) (a : Nat) {n : Nat} (hn : 12 < n) :
    (tcpOfBytes (m.readBytes a n)).reserved.toNat = (m.read (a + 12)).toNat % 16 := by
  simp only [tcpOfBytes, toNat_extract, byteAt_readBytes m hn]
  omega

/-- A header decoded from its `4 * data_offset` bytes holds the options among them, and 0 past them
(R94, R181). -/
theorem opt_tcpOfBytes {m : Memory} {a d : Nat} (hd : d = (m.read (a + 12)).toNat / 16) (h5 : 5 ≤ d)
    (i : Fin 40) : (tcpOfBytes (m.readBytes a (4 * d))).opt[i] =
      if i.val < 4 * d - 20 then m.read (a + 20 + i.val) else 0 := by
  have hnib : (tcpOffsetNibble (m.readBytes a (4 * d))).toNat = d := by
    rw [tcpOffsetNibble_readBytes m (by omega), hd]
  simp only [tcpOfBytes, hnib, Fin.getElem_fin, Vector.getElem_ofFn]
  by_cases hi : i.val < 4 * d - 20
  · rw [if_pos (by omega), if_pos hi, byteAt_readBytes m (by omega), Nat.add_assoc]
  · rw [if_neg (by omega), if_neg hi]

/-- Under either setting of `TCP_RSVD_ENCODE`, the bytes of a header decode to its fields, the reserved
nibble as it was written, and the options of its length (R187). -/
theorem tcpOfBytes_tcpToBytes_rsvdOut (mode : RsvdEncode) (h : TcpHeader)
    (h4 : h.optionsLength.toNat % 4 = 0) (hle : h.optionsLength.toNat ≤ 40) :
    tcpOfBytes (tcpToBytes mode h) =
        { h with reserved := rsvdOut mode h, opt := (tcpOfBytes (tcpToBytes mode h)).opt } ∧
      ∀ i : Fin 40, (tcpOfBytes (tcpToBytes mode h)).opt[i] =
        if i.val < h.optionsLength.toNat then h.opt[i] else 0 :=
  tcpOfBytes_tcpToBytes .verbatim { h with reserved := rsvdOut mode h } h4 hle (fun he => by cases he)

/-! ### `TCP_DECODE` (R181, R182) -/

/-- The state that a completed `TCP_DECODE` of `n` header bytes leaves (R181). -/
def State.tcpDecoded (s : State) (n : Nat) : State :=
  { s with
    tcp := Record.bind (tcpOfBytes (s.mem.readBytes s.start n)) (s.base + s.off) n
    status := 0x00 }

/-- With its first 20 bytes accessible, `TCP_DECODE` comes to look at `data_offset` (R181). -/
theorem issueTcpDecode_of_canAccess {s : State} (hc : s.canAccess 20 = true) :
    issueTcpDecode s = issueTcpDecodeBody s := by
  obtain ⟨-, -, hw, ha, hreach, -⟩ := State.canAccess_spec hc
  have ha : ¬ s.avail < 20 := ha
  rw [issueTcpDecode, hw, Issued.check_none, if_neg ha, State.access_of_reaches _ hreach]

/-- What `TCP_DECODE` does once it has `data_offset`: the checks of R182, in their order, and then the
decode. -/
theorem issueTcpDecodeBody_eq {s : State} {d : Nat} (hd : d = (s.mem.read (s.start + 12)).toNat / 16) :
    issueTcpDecodeBody s =
      if d < 5 then .finish .invalidDataOffset (addrsFrom s.start 20)
      else if s.avail < (4 * d : Nat) then .finish .truncatedBuffer (addrsFrom s.start 20)
      else s.access s.start (4 * d) <|
        .setTcp (addrsFrom s.start (4 * d))
          (Record.bind (tcpOfBytes (s.mem.readBytes s.start (4 * d))) (s.base + s.off) (4 * d)) := by
  have hnib : (tcpOffsetNibble (s.mem.readBytes s.start 20)).toNat = d := by
    rw [tcpOffsetNibble_readBytes _ (by decide), hd]
  rw [issueTcpDecodeBody, hnib]
  rfl

@[simp] theorem State.tcpDecoded_hdr (s : State) (n : Nat) :
    (s.tcpDecoded n).tcp.hdr = tcpOfBytes (s.mem.readBytes s.start n) := rfl

theorem exec_tcpDecode {s : State} {d : Nat} (hd : d = (s.mem.read (s.start + 12)).toNat / 16)
    (hr : s.ready = true) (h5 : 5 ≤ d) (hc : s.canAccess (4 * d) = true) :
    exec .tcpDecode s = .next (s.tcpDecoded (4 * d)) := by
  obtain ⟨-, -, -, ha, hreach, -⟩ := State.canAccess_spec hc
  refine exec_setTcp (rd := addrsFrom s.start (4 * d)) hr ?_
  rw [issueOf, issueTcpDecode_of_canAccess (State.canAccess_mono hc (by omega)),
    issueTcpDecodeBody_eq hd, if_neg (by omega), if_neg ha, State.access_of_reaches _ hreach]

/-- Settles O31: the record holds the header decoded from the `4 * data_offset` bytes. -/
theorem tcpDecodeBindsTheHeader : Obligations.TcpDecodeBindsTheHeader := by
  intro s d hd hr h5 hc
  have hnib : d = (tcpOffsetNibble (s.mem.readBytes s.start 20)).toNat := by
    rw [tcpOffsetNibble_readBytes _ (by decide)]
    exact hd
  exact ⟨_, exec_tcpDecode hd hr h5 hc, rfl, rfl, rfl, rfl, rfl,
    tcpFixedFieldsAt_tcpOfBytes _ _ (by omega), reserved_tcpOfBytes _ _ (by omega),
    (tcpOfBytes_spec hnib h5).1, opt_tcpOfBytes hd h5⟩

/-- Settles O32: each status is one branch of ISSUE, and ends the command there. -/
theorem tcpDecodeStatuses : Obligations.TcpDecodeStatuses := by
  intro s d hd hr hslice
  refine ⟨fun hshort => exec_finish (st := .truncatedBuffer) (rd := []) hr ?_, fun hc => ?_⟩
  · have ha : s.avail < 20 := State.avail_lt_iff.mpr hshort
    rw [issueOf, issueTcpDecode, State.wrapCheck_of_fits hslice, Issued.check_none, if_pos ha]
  · have hbody := (issueTcpDecode_of_canAccess hc).trans (issueTcpDecodeBody_eq hd)
    refine ⟨fun h5 => exec_finish (st := .invalidDataOffset) hr (hbody.trans (if_pos h5)),
      fun h5 hshort =>
        exec_finish (st := .truncatedBuffer) (rd := addrsFrom s.start 20) hr (hbody.trans ?_)⟩
    rw [if_neg (by omega), if_pos (State.avail_lt_iff.mpr hshort)]

/-! ### `TCP_ENCODE` (R186, R187, R201) -/

/-- The state that a completed `TCP_ENCODE` leaves (R186). -/
def State.tcpEncoded (s : State) : State :=
  (s.store (cellsAt s.start (tcpToBytes s.params.rsvd s.tcp.hdr))).finish .ok

/-- What `TCP_ENCODE` does once its record can be read and the slice does not wrap: the checks of R186,
in the order of R310, and then the encode. -/
theorem issueTcpEncode_of_readable {s : State} (hrec : s.tcp.readable = none)
    (hw : s.wrapCheck = none) : issueTcpEncode s =
      if dataOffsetOf s.tcp.hdr.optionsLength = none then .finish .invalidOptionsLength []
      else if s.avail < tcpLength s.tcp.hdr then .finish .bufferTooSmall []
      else s.access s.start (tcpLength s.tcp.hdr) <|
        .stores [] (cellsAt s.start (tcpToBytes s.params.rsvd s.tcp.hdr)) := by
  rw [issueTcpEncode, hrec, Issued.check_none, hw, Issued.check_none]

theorem exec_tcpEncode {s : State} (hr : s.ready = true) (hrec : s.tcp.readable = none)
    (h4 : s.tcp.hdr.optionsLength.toNat % 4 = 0) (hle : s.tcp.hdr.optionsLength.toNat ≤ 40)
    (hc : s.canAccess (tcpLength s.tcp.hdr) = true) : exec .tcpEncode s = .next s.tcpEncoded := by
  obtain ⟨-, -, hw, ha, hreach, -⟩ := State.canAccess_spec hc
  refine exec_store_finish (rd := []) hr ((issueTcpEncode_of_readable hrec hw).trans ?_)
  rw [if_neg (mt dataOffsetOf_eq_none_iff.mp (not_not_intro ⟨h4, hle⟩)), if_neg ha,
    State.access_of_reaches _ hreach]

@[simp] theorem State.tcpEncoded_mem (s : State) : s.tcpEncoded.mem =
    s.mem.writeCells (cellsAt s.start (tcpToBytes s.params.rsvd s.tcp.hdr)) := by
  rw [State.tcpEncoded, State.finish_mem, State.store_mem]

@[simp] theorem State.tcpEncoded_start (s : State) : s.tcpEncoded.start = s.start := rfl

@[simp] theorem State.tcpEncoded_ready (s : State) : s.tcpEncoded.ready = s.ready := rfl

@[simp] theorem State.tcpEncoded_canAccess (s : State) (n : Nat) :
    s.tcpEncoded.canAccess n = s.canAccess n := rfl

/-- The bytes that `TCP_ENCODE` leaves at `BASE + OFF` are those of the header. -/
theorem State.tcpEncoded_readBytes {s : State} (hwf : s.memWf = true)
    (hle : s.tcp.hdr.optionsLength.toNat ≤ 40) :
    s.tcpEncoded.mem.readBytes s.start (tcpLength s.tcp.hdr) =
      tcpToBytes s.params.rsvd s.tcp.hdr := by
  rw [State.tcpEncoded_mem, ← tcpToBytes_length s.params.rsvd _ hle,
    Memory.readBytes_writeCells_cellsAt hwf]

/-- The high nibble of byte 12 that `TCP_ENCODE` leaves is the `data_offset` of the header (R186). -/
theorem State.tcpEncoded_dataOffset {s : State} (hwf : s.memWf = true)
    (hle : s.tcp.hdr.optionsLength.toNat ≤ 40) :
    (20 + s.tcp.hdr.optionsLength.toNat) / 4 = (s.tcpEncoded.mem.read (s.start + 12)).toNat / 16 := by
  have h12 : 12 < tcpLength s.tcp.hdr := by unfold tcpLength; omega
  rw [← tcpOffsetNibble_tcpToBytes s.params.rsvd _ hle, ← State.tcpEncoded_readBytes hwf hle,
    tcpOffsetNibble_readBytes _ h12]

theorem rsvdOut_toNat (mode : RsvdEncode) (h : TcpHeader) :
    (rsvdOut mode h).toNat = if mode = .verbatim then h.reserved.toNat else 0 := by
  cases mode <;> rfl

/-- Settles O35: the bytes that `TCP_ENCODE` leaves are those that `TCP_DECODE` then takes, as their
`data_offset` counts them all. -/
theorem tcpEncodeDecodeRoundTrip : Obligations.TcpEncodeDecodeRoundTrip := by
  intro s ol hol h4 hle hz hr hc hwf hrec
  subst hol
  have hencode := exec_tcpEncode hr (Record.readable_eq_none.mpr hrec) h4 hle hc
  have hdecode : exec .tcpDecode s.tcpEncoded =
      .next (s.tcpEncoded.tcpDecoded (4 * ((20 + s.tcp.hdr.optionsLength.toNat) / 4))) :=
    exec_tcpDecode (State.tcpEncoded_dataOffset hwf hle) (by simpa using hr) (by omega)
      (by rwa [four_mul_dataOffset h4, State.tcpEncoded_canAccess])
  refine ⟨_, _, hencode, hdecode, ?_⟩
  rw [State.tcpDecoded_hdr, State.tcpEncoded_start, four_mul_dataOffset h4,
    State.tcpEncoded_readBytes hwf hle]
  exact tcpOfBytes_tcpToBytes _ _ h4 hle hz

/-- Settles O33: the bytes stored decode to the header with the reserved nibble written, so they hold
its fields and options. -/
theorem tcpEncodeWritesTheHeader : Obligations.TcpEncodeWritesTheHeader := by
  intro s ol hol h4 hle hr hc hwf hrec
  subst hol
  have hread := State.tcpEncoded_readBytes hwf hle
  have hoff := State.tcpEncoded_dataOffset hwf hle
  obtain ⟨hhdr, hopt⟩ := tcpOfBytes_tcpToBytes_rsvdOut s.params.rsvd s.tcp.hdr h4 hle
  have h20 : 20 ≤ tcpLength s.tcp.hdr := Nat.le_add_right _ _
  refine ⟨_, exec_tcpEncode hr (Record.readable_eq_none.mpr hrec) h4 hle hc,
    State.store_finish_frame _ _, ?_, ?_, fun i hi => ?_,
    fun a ha => State.store_finish_read_outside hwf ((tcpToBytes_length _ _ hle).symm ▸ ha)⟩
  · have hfields := tcpFixedFieldsAt_tcpOfBytes s.tcpEncoded.mem s.start h20
    rw [hread, hhdr] at hfields
    exact hfields
  · have hrsvd := reserved_tcpOfBytes s.tcpEncoded.mem s.start (show 12 < tcpLength s.tcp.hdr by omega)
    rw [hread, hhdr] at hrsvd
    dsimp only at hrsvd
    rw [← rsvdOut_toNat, hoff, hrsvd]
    exact (Nat.div_add_mod' _ 16).symm
  · have hbyte := opt_tcpOfBytes hoff (by omega) i
    rw [four_mul_dataOffset h4, hread, hopt, if_pos hi,
      if_pos (by unfold tcpLength; omega)] at hbyte
    exact hbyte.symm

/-- Settles O34: the options length is checked before the length of the slice (R310). -/
theorem tcpEncodeStatuses : Obligations.TcpEncodeStatuses := by
  intro s ol hol hr hrec hslice
  subst hol
  have hissue := issueTcpEncode_of_readable (Record.readable_eq_none.mpr hrec)
    (State.wrapCheck_of_fits hslice)
  refine ⟨fun hbad => exec_finish (st := .invalidOptionsLength) (rd := []) hr (hissue.trans ?_),
    fun h4 hle hshort => exec_finish (st := .bufferTooSmall) (rd := []) hr (hissue.trans ?_)⟩
  · rw [if_pos (dataOffsetOf_eq_none_iff.mpr (by omega))]
  · have ha : s.avail < tcpLength s.tcp.hdr := State.avail_lt_iff.mpr hshort
    rw [if_neg (mt dataOffsetOf_eq_none_iff.mp (not_not_intro ⟨h4, hle⟩)), if_pos ha]

/-! ### TCP fields (R37, R197, R198) -/

theorem TcpHeader.get?_eq_none_iff {h : TcpHeader} {f : TcpField} :
    h.get? f = none ↔ f = .dataOffset ∧
      ¬(h.optionsLength.toNat % 4 = 0 ∧ h.optionsLength.toNat ≤ 40) := by
  cases f
  case dataOffset => simp [TcpHeader.get?, dataOffsetOf_eq_none_iff]
  all_goals simp [TcpHeader.get?]

/-- A named field is read whole (R11, R197). -/
theorem TcpHeader.toNat_of_get? {h : TcpHeader} {f : TcpField} {v : Word} (hv : h.get? f = some v) :
    v.toNat = tcpFieldNat h f := by
  cases f
  case dataOffset =>
    obtain ⟨d, hd, rfl⟩ := Option.map_eq_some_iff.mp hv
    obtain ⟨rfl, hle⟩ := dataOffsetOf_eq_some hd
    exact Nat.mod_eq_of_lt (by omega)
  all_goals
    cases hv
    exact BitVec.toNat_setWidth_of_le (by decide)

theorem TcpHeader.set?_eq_none_iff {h : TcpHeader} {f : TcpField} {v : Word} :
    h.set? f v = none ↔ f = .dataOffset := by cases f <;> simp [TcpHeader.set?]

/-- The field written holds the value truncated to its width (R18, R198). -/
theorem TcpHeader.fieldNat_set?_self {h h' : TcpHeader} {f : TcpField} {v : Word}
    (hset : h.set? f v = some h') : tcpFieldNat h' f = v.toNat % 2 ^ tcpFieldWidth f := by
  cases f <;> cases hset <;> exact BitVec.toNat_setWidth _ _

theorem TcpHeader.fieldNat_set?_of_ne {h h' : TcpHeader} {f g : TcpField} {v : Word}
    (hset : h.set? f v = some h') (hg : g ≠ f) (hd : g ≠ .dataOffset) :
    tcpFieldNat h' g = tcpFieldNat h g := by
  cases g
  case dataOffset => exact absurd rfl hd
  all_goals cases f
  case sourcePort.sourcePort | destPort.destPort | sequenceNumber.sequenceNumber
      | ackNumber.ackNumber | reserved.reserved | flags.flags | window.window | checksum.checksum
      | urgentPointer.urgentPointer | optionsLength.optionsLength =>
    exact absurd rfl hg
  all_goals cases hset <;> rfl

theorem TcpHeader.opt_set? {h h' : TcpHeader} {f : TcpField} {v : Word}
    (hset : h.set? f v = some h') : h'.opt = h.opt := by cases f <;> cases hset <;> rfl

/-- Settles O36: the one field that may have no value is `data_offset`. -/
theorem tcpFieldReadReturnsTheField : Obligations.TcpFieldReadReturnsTheField := by
  intro s f hr hrec
  have hread := Record.readable_eq_none.mpr hrec
  split_ifs with hundef
  · have hword : faultWord Opcode.tcpFldRd.code .undefinedField = 0x32000901 := by decide
    refine exec_faultWord (State.ready_spec hr).1 ?_ hword
    rw [issueOf, issueTcpFldRd, hread, Issued.check_none, TcpHeader.get?_eq_none_iff.mpr hundef]
  · obtain ⟨v, hv⟩ := Option.ne_none_iff_exists'.mp (mt TcpHeader.get?_eq_none_iff.mp hundef)
    have hissue : issueOf (.tcpFldRd f) s = .result [] v := by
      rw [issueOf, issueTcpFldRd, hread, Issued.check_none, hv]
    exact ⟨_, exec_result hr hissue, rfl, TcpHeader.toNat_of_get? hv⟩

/-- Settles O37: the one field that cannot be written is `data_offset`. -/
theorem tcpFieldWriteTruncates : Obligations.TcpFieldWriteTruncates := by
  intro s f hr hst
  have hwrite := Record.writable_eq_none.mpr hst
  split_ifs with hro
  · have hword : faultWord Opcode.tcpFldWr.code .readOnlyField = 0x33000801 := by decide
    refine exec_faultWord (State.ready_spec hr).1 ?_ hword
    rw [issueOf, issueTcpFldWr, hwrite, Issued.check_none, TcpHeader.set?_eq_none_iff.mpr hro]
  · obtain ⟨h, hset⟩ := Option.ne_none_iff_exists'.mp
      (mt (TcpHeader.set?_eq_none_iff (h := s.tcp.hdr) (v := s.val)).mp hro)
    have hissue : issueOf (.tcpFldWr f) s = .setTcp [] (s.tcp.setHdr h) := by
      rw [issueOf, issueTcpFldWr, hwrite, Issued.check_none, hset]
    exact ⟨_, exec_setTcp hr hissue, rfl, TcpHeader.opt_set? hset,
      TcpHeader.fieldNat_set?_self hset, fun g => TcpHeader.fieldNat_set?_of_ne hset⟩

/-! ### Option bytes (R199, R200) -/

theorem TcpHeader.optByte_eq (h : TcpHeader) (i : Fin 40) : h.optByte i.val = h.opt[i] := by
  simp [TcpHeader.optByte, byteAt]

theorem TcpHeader.setOpt_getElem (h : TcpHeader) (k : Nat) (b : Byte) (i : Fin 40) :
    (h.setOpt k b).opt[i] = if i.val = k then b else h.opt[i] := by
  simp [TcpHeader.setOpt]

/-- Settles O38: an index of the options store passes the index check, and a view is checked for its
decoded options last. -/
theorem optReadReturnsTheByte : Obligations.OptReadReturnsTheByte := by
  intro s k i hik hr hrec
  have hissue : issueOf (.optRd k) s = .check (optBoundCheck s.tcp k.toNat)
      (.result [] ((s.tcp.hdr.opt[i]).setWidth 64)) := by
    rw [issueOf, issueOptRd, optIndexCheck_eq_none (by omega), Issued.check_none,
      Record.readable_eq_none.mpr hrec, Issued.check_none, ← hik, TcpHeader.optByte_eq]
  split_ifs with hpast
  · have hword : faultWord Opcode.optRd.code .outOfRange = 0x34000201 := by decide
    refine exec_faultWord (State.ready_spec hr).1 ?_ hword
    rw [hissue, optBoundCheck, if_pos hpast, Issued.check_some]
  · refine exec_result (rd := []) hr ?_
    rw [hissue, optBoundCheck, if_neg hpast, Issued.check_none]

/-- Settles O39: an index of the options store passes the index check. -/
theorem optWriteReplacesTheByte : Obligations.OptWriteReplacesTheByte := by
  intro s k hk hr hst
  have hissue : issueOf (.optWr k) s =
      .setTcp [] (s.tcp.setHdr (s.tcp.hdr.setOpt k.toNat (s.val.setWidth 8))) := by
    rw [issueOf, issueOptWr, optIndexCheck_eq_none hk, Issued.check_none,
      Record.writable_eq_none.mpr hst, Issued.check_none]
  exact ⟨_, exec_setTcp hr hissue, rfl, TcpHeader.setOpt_getElem _ _ _⟩

end Sys2Proof.Machine
end

section
/-! PROOFS (43_address_views.md). The multi-view address registers (R220-R225). -/

namespace Sys2Proof.Machine

/-! ### The integer of an element and its bytes (R221, R224) -/

/-- The power of 256 that byte `j` of an element stands at, in the byte order `o` (R221). -/
def elemPlace (o : ViewOrder) (w : ViewWidth) (j : Nat) : Nat :=
  if o = .be then w.bytes - 1 - j else j

/-- The integer of an element's bytes in the byte order `o` (R221). -/
def elemNat : ViewOrder → List Byte → Nat
  | .be => beNat
  | .le => leNat

theorem elemNat_lt (o : ViewOrder) (bs : List Byte) : elemNat o bs < 256 ^ bs.length := by
  cases o
  · exact beNat_lt bs
  · exact leNat_lt bs

theorem elemNat_byte (o : ViewOrder) {w : ViewWidth} {bs : List Byte} {j : Nat}
    (hlen : bs.length = w.bytes) (hj : j < w.bytes) :
    elemNat o bs / 256 ^ elemPlace o w j % 256 = (byteAt bs j).toNat := by
  rw [← hlen] at hj
  cases o
  · rw [elemPlace, if_pos rfl, ← hlen]
    exact beNat_byte bs j hj
  · exact leNat_byte bs j hj

/-- The bytes that an element write stores are those of `VAL` truncated to the width (R224). -/
theorem elemNat_elemSequence (o : ViewOrder) (w : ViewWidth) (v : Word) :
    elemNat o (elemSequence o w v) = v.toNat % 256 ^ w.bytes := by
  cases o
  · exact beNat_bytesBe _ _
  · exact leNat_bytesLe _ _

theorem elemSequence_byte (o : ViewOrder) {w : ViewWidth} (v : Word) {j : Nat} (hj : j < w.bytes) :
    (byteAt (elemSequence o w v) j).toNat = v.toNat / 256 ^ elemPlace o w j % 256 := by
  cases o
  · exact bytesBe_getD _ _ _ hj
  · exact bytesLe_getD _ _ _ hj

/-! ### Reading an element (R221, R223) -/

theorem ViewWidth.pow_bytes_le (w : ViewWidth) : 256 ^ w.bytes ≤ 2 ^ 64 := by
  cases w <;> decide

theorem byteAt_elemBytes (a : Vector Byte 16) {w : ViewWidth} {k j : Nat} {i : Fin 16}
    (hj : j < w.bytes) (hi : i.val = w.bytes * k + j) : byteAt (elemBytes a w k) j = a[i] := by
  rw [byteAt, List.getD_eq_getElem?_getD, elemBytes_getElem? a w k j hj (hi ▸ i.isLt)]
  simp [hi]

/-- An element fits the result register, so reading it loses no bit (R11, R223). -/
theorem elemValue_toNat (o : ViewOrder) (a : Vector Byte 16) {w : ViewWidth} {k : Nat}
    (h : w.bytes * k + w.bytes ≤ 16) : (elemValue o a w k).toNat = elemNat o (elemBytes a w k) := by
  have hlt : elemNat o (elemBytes a w k) < 2 ^ 64 :=
    (elemNat_lt o _).trans_le (elemBytes_length a w k h ▸ ViewWidth.pow_bytes_le w)
  cases o <;> exact Nat.mod_eq_of_lt hlt

theorem elemValue_lt (o : ViewOrder) (a : Vector Byte 16) {w : ViewWidth} {k : Nat}
    (h : w.bytes * k + w.bytes ≤ 16) : (elemValue o a w k).toNat < 256 ^ w.bytes := by
  rw [elemValue_toNat o a h, ← elemBytes_length a w k h]
  exact elemNat_lt o _

theorem elemValue_byte (o : ViewOrder) (a : Vector Byte 16) {w : ViewWidth} {k j : Nat} {i : Fin 16}
    (h : w.bytes * k + w.bytes ≤ 16) (hj : j < w.bytes) (hi : i.val = w.bytes * k + j) :
    (elemValue o a w k).toNat / 256 ^ elemPlace o w j % 256 = (a[i]).toNat := by
  rw [elemValue_toNat o a h, elemNat_byte o (elemBytes_length a w k h) hj, byteAt_elemBytes a hj hi]

/-- The 8-bit view shows the address bytes, whatever the byte order (R221). -/
theorem elemValue_w8 (o : ViewOrder) (a : Vector Byte 16) (i : Fin 16) :
    (elemValue o a .w8 i.val).toNat = (a[i]).toNat := by
  have hfit : ViewWidth.w8.bytes * i.val + ViewWidth.w8.bytes ≤ 16 := by
    rw [ViewWidth.bytes]
    omega
  have hbyte := elemValue_byte o a (j := 0) hfit Nat.one_pos (Nat.one_mul i.val).symm
  have hlt : (elemValue o a .w8 i.val).toNat < 256 := elemValue_lt o a hfit
  have hplace : elemPlace o .w8 0 = 0 := by cases o <;> rfl
  rw [hplace, Nat.pow_zero, Nat.div_one, Nat.mod_eq_of_lt hlt] at hbyte
  exact hbyte

/-! ### Writing an element (R224, R225) -/

theorem setElem_getElem_self (a : Vector Byte 16) {w : ViewWidth} {k j : Nat} {i : Fin 16}
    (c : List Byte) (hj : j < w.bytes) (hi : i.val = w.bytes * k + j) :
    (setElem a w k c)[i] = byteAt c j := by
  have hin : w.bytes * k ≤ i.val ∧ i.val < w.bytes * k + w.bytes := by omega
  have hsub : i.val - w.bytes * k = j := by omega
  simp [setElem, hin, hsub]

theorem setElem_getElem_outside (a : Vector Byte 16) {w : ViewWidth} {k : Nat} {i : Fin 16}
    (c : List Byte) (hi : i.val < w.bytes * k ∨ w.bytes * k + w.bytes ≤ i.val) :
    (setElem a w k c)[i] = a[i] := by
  have hout : ¬(w.bytes * k ≤ i.val ∧ i.val < w.bytes * k + w.bytes) := by omega
  simp [setElem, hout]

theorem elemValue_congr (o : ViewOrder) {a b : Vector Byte 16} {w : ViewWidth} {k : Nat}
    (h : elemBytes a w k = elemBytes b w k) : elemValue o a w k = elemValue o b w k := by
  cases o <;> rw [elemValue, elemValue, h]

/-- The element just written reads back as `VAL` truncated to its width (R225). -/
theorem elemValue_setElem_self (o : ViewOrder) (a : Vector Byte 16) {w : ViewWidth} {k : Nat}
    (v : Word) (h : w.bytes * k + w.bytes ≤ 16) :
    (elemValue o (setElem a w k (elemSequence o w v)) w k).toNat = v.toNat % 256 ^ w.bytes := by
  rw [elemValue_toNat o _ h, elemBytes_setElem_self a w k _ (elemSequence_length o w v) h,
    elemNat_elemSequence]

@[simp] theorem Ip6Header.addr_setAddr_of_ne (h : Ip6Header) {r r2 : AddrReg} (a : Vector Byte 16)
    (hr : r2 ≠ r) : (h.setAddr r a).addr r2 = h.addr r2 := by
  cases r <;> cases r2
  case src.src | dst.dst => exact absurd rfl hr
  all_goals rfl

/-- Writing an address register changes no field of the header but the two addresses. -/
theorem Ip6Header.setAddr_fields (h : Ip6Header) (r : AddrReg) (a : Vector Byte 16) :
    h.setAddr r a = { h with src := (h.setAddr r a).src, dst := (h.setAddr r a).dst } := by
  cases r <;> rfl

/-! ### `ADDR_RD` and `ADDR_WR` (R223, R224) -/

theorem exec_addrRd {s : State} (r : AddrReg) {w : ViewWidth} {k : Byte} (hr : s.ready = true)
    (hrec : s.ip6.readable = none) (hk : k.toNat < 16 / w.bytes) :
    exec (.addrRd r w k) s = .next { s with
      res := elemValue s.params.viewOrder (s.ip6.hdr.addr r) w k.toNat, status := 0x00 } := by
  refine exec_result (rd := []) hr ?_
  rw [issueOf, issueAddrRd, elemCheck_eq_none (ViewWidth.fits hk).2, Issued.check_none, hrec,
    Issued.check_none]

/-- The header that an `ADDR_WR` leaves (R224). -/
def State.addrWrittenHdr (s : State) (r : AddrReg) (w : ViewWidth) (k : Byte) : Ip6Header :=
  s.ip6.hdr.setAddr r
    (setElem (s.ip6.hdr.addr r) w k.toNat (elemSequence s.params.viewOrder w s.val))

/-- The state that a completed `ADDR_WR` leaves (R224). -/
def State.addrWritten (s : State) (r : AddrReg) (w : ViewWidth) (k : Byte) : State :=
  { s with ip6 := s.ip6.setHdr (s.addrWrittenHdr r w k), status := 0x00 }

theorem exec_addrWr {s : State} (r : AddrReg) {w : ViewWidth} {k : Byte} (hr : s.ready = true)
    (hst : s.ip6.st = .owned) (hk : k.toNat < 16 / w.bytes) :
    exec (.addrWr r w k) s = .next (s.addrWritten r w k) := by
  refine exec_setIp6 (rd := []) hr ?_
  rw [issueOf, issueAddrWr, elemCheck_eq_none (ViewWidth.fits hk).2, Issued.check_none,
    Record.writable_eq_none.mpr hst, Issued.check_none]
  rfl

@[simp] theorem State.addrWritten_addr (s : State) (r : AddrReg) (w : ViewWidth) (k : Byte) :
    (s.addrWritten r w k).ip6.hdr.addr r =
      setElem (s.ip6.hdr.addr r) w k.toNat (elemSequence s.params.viewOrder w s.val) :=
  Ip6Header.addr_setAddr_self _ _ _

theorem State.addrWritten_addr_of_ne (s : State) {r r2 : AddrReg} (w : ViewWidth) (k : Byte)
    (hr : r2 ≠ r) : (s.addrWritten r w k).ip6.hdr.addr r2 = s.ip6.hdr.addr r2 :=
  Ip6Header.addr_setAddr_of_ne _ _ hr

theorem State.addrWritten_frame (s : State) (r : AddrReg) (w : ViewWidth) (k : Byte) :
    s.addrWritten r w k = { s with
      status := 0x00
      ip6 := { s.ip6 with hdr := { s.ip6.hdr with
        src := (s.addrWritten r w k).ip6.hdr.src
        dst := (s.addrWritten r w k).ip6.hdr.dst } } } :=
  congrArg (fun h => { s with ip6 := s.ip6.setHdr h, status := 0x00 })
    (Ip6Header.setAddr_fields _ _ _)

theorem State.addrWritten_byte (s : State) (r : AddrReg) {w : ViewWidth} {k : Byte} {j : Nat}
    {i : Fin 16} (hj : j < w.bytes) (hi : i.val = w.bytes * k.toNat + j) :
    (((s.addrWritten r w k).ip6.hdr.addr r)[i]).toNat =
      s.val.toNat / 256 ^ elemPlace s.params.viewOrder w j % 256 := by
  rw [State.addrWritten_addr, setElem_getElem_self _ _ hj hi, elemSequence_byte _ _ hj]

/-- `ADDR_RD` after an `ADDR_WR` reads the address that was written, in the same byte order. -/
theorem exec_addrRd_addrWritten {s : State} (r : AddrReg) {w w2 : ViewWidth} {k k2 : Byte}
    (hr : s.ready = true) (hst : s.ip6.st = .owned) (hk2 : k2.toNat < 16 / w2.bytes) :
    exec (.addrRd r w2 k2) (s.addrWritten r w k) = .next { s.addrWritten r w k with
      res := elemValue s.params.viewOrder ((s.addrWritten r w k).ip6.hdr.addr r) w2 k2.toNat
      status := 0x00 } :=
  exec_addrRd (s := s.addrWritten r w k) r hr (Record.readable_eq_none.mpr (.inl hst)) hk2

/-! ### The obligations -/

/-- Settles O28: an element in range passes the element check, and its value has its bytes as
digits to base 256. -/
theorem addrReadReturnsTheElement : Obligations.AddrReadReturnsTheElement := by
  intro s r w k hr hrec hk
  have hfit := (ViewWidth.fits hk).1
  exact ⟨_, exec_addrRd r hr (Record.readable_eq_none.mpr hrec) hk, rfl, elemValue_lt _ _ hfit,
    fun j i hj hi => elemValue_byte _ _ hfit hj hi⟩

/-- Settles O29: an `OWNED` record and an element in range pass the checks, and the bytes written
are the digits of `VAL` to base 256. -/
theorem addrWriteReplacesTheElement : Obligations.AddrWriteReplacesTheElement := by
  intro s r w k hr hst hk
  refine ⟨_, exec_addrWr r hr hst hk, s.addrWritten_frame r w k,
    fun r2 hr2 => s.addrWritten_addr_of_ne w k hr2,
    fun j i hj hi => s.addrWritten_byte r hj hi, fun i hi => ?_⟩
  rw [State.addrWritten_addr, setElem_getElem_outside _ _ hi]

/-- Settles O30: an element read depends on its own bytes alone, so each read of the written address
is a read of the bytes stored or of bytes left as they were. -/
theorem addrWriteThenRead : Obligations.AddrWriteThenRead := by
  refine ⟨fun s t r w k hr hst hk ht => ?_, fun a k j i hk hj hi => ?_⟩
  · have hfit := (ViewWidth.fits hk).1
    rw [exec_addrWr r hr hst hk] at ht
    cases ht
    refine ⟨⟨_, exec_addrRd_addrWritten r hr hst hk, ?_⟩, fun j kb hj hkb => ?_,
      fun w2 k2 hk2 hdisj => ?_⟩
    · rw [State.addrWritten_addr]
      exact elemValue_setElem_self _ _ _ hfit
    · have hlt : kb.toNat < 16 := by omega
      exact ⟨_, exec_addrRd_addrWritten r hr hst hlt,
        (elemValue_w8 _ _ ⟨kb.toNat, hlt⟩).trans (s.addrWritten_byte r hj hkb)⟩
    · refine ⟨_, _, exec_addrRd r hr (Record.readable_eq_none.mpr (.inl hst)) hk2,
        exec_addrRd_addrWritten r hr hst hk2, elemValue_congr _ ?_⟩
      rw [State.addrWritten_addr]
      exact elemBytes_setElem_other _ _ _ _ _ _ (ViewWidth.fits hk2).1 hdisj
  · have hfit : ViewWidth.w64.bytes * k + ViewWidth.w64.bytes ≤ 16 := by
      rw [ViewWidth.bytes]
      omega
    have hpow : 2 ^ (56 - 8 * j) = 256 ^ elemPlace .be .w64 j := by
      rw [show 56 - 8 * j = 8 * (7 - j) by omega, Nat.pow_mul]
      rfl
    apply BitVec.eq_of_toNat_eq
    rw [toNat_extract, hpow]
    exact elemValue_byte .be a hfit hj hi

end Sys2Proof.Machine
end

section
/-! PROOFS (44_control.md). The host port: what a write and a read of each port register do (R241-R243),
and `NOP` (R240). -/

namespace Sys2Proof

/-! ### The opcode field and the unused fields (R100, R104) -/

/-- The `OPC` field of the word that `CMD` keeps of a port write (R100, R242). -/
theorem wordOpc_setWidth_toNat (v : Word) :
    (wordOpc (v.setWidth 32)).toNat = v.toNat / 2 ^ 24 % 256 := by
  rw [wordOpc, BitVec.extractLsb'_setWidth_of_le (by decide), Machine.toNat_extract]
  rfl

theorem wordOpc_eq_zero {w : BitVec 32} (h : w.toNat < 2 ^ 24) : wordOpc w = 0 := by
  rw [← toNat_eq_zero_iff, wordOpc, Machine.toNat_extract, Nat.div_eq_of_lt h, Nat.zero_mod]

/-- A row that uses no field has one word, its opcode with every field 0 (R102, R104 b). -/
theorem eq_commandWord_of_unusedZero {op : Opcode} {w : BitVec 32}
    (huses : op.uses = { sel := false, idx := false, wid := false }) (hopc : wordOpc w = op.code)
    (hzero : op.unusedZero (wordSel w) (wordIdx w) (wordWid w) = true) :
    w = commandWord op.code 0 0 0 := by
  simp only [Opcode.unusedZero, huses, Bool.false_or, Bool.and_eq_true, beq_iff_eq] at hzero
  obtain ⟨⟨hsel, hidx⟩, hwid⟩ := hzero
  rw [← commandWord_fields w, hopc, hsel, hidx, hwid]

theorem decodeWord_unusedField {op : Opcode} {w : BitVec 32} (hopc : wordOpc w = op.code)
    (hzero : ¬ op.unusedZero (wordSel w) (wordIdx w) (wordWid w) = true) :
    decodeWord w = .illegal .unusedField := by
  rw [decodeWord, hopc, Opcode.ofCode?_code]
  exact if_neg hzero

end Sys2Proof

namespace Sys2Proof.Machine

/-! ### Port accesses -/

/-- The next step of an idle block is the host's access, if that is the next event (R25, R75). -/
theorem step_port {s : State} {a : PortAccess} {rest : List Event} (hp : s.pending = none)
    (ht : s.todo = .port a :: rest) :
    step s = ({ s with todo := rest, pos := s.pos + 1 } : State).portAccess a := by
  simp only [step, hp, State.stepIdle, ht, State.idleEvent, State.take]

theorem State.writeCmd_command {s : State} {v : Word} {i : Instr} (hf : s.faulted = false)
    (hd : decodePort v = .command i) : s.writeCmd v = exec i { s with cmd := v.setWidth 32 } := by
  have hu : ({ s with cmd := v.setWidth 32 } : State).faulted = false := hf
  simp [State.writeCmd, hu, hd]

theorem State.writeCmd_illegal {s : State} {v : Word} {why : Illegal} (hf : s.faulted = false)
    (hd : decodePort v = .illegal why) :
    s.writeCmd v = .next (({ s with cmd := v.setWidth 32 } : State).raise
      (wordOpc (v.setWidth 32)) .illegalCommand) := by
  have hu : ({ s with cmd := v.setWidth 32 } : State).faulted = false := hf
  simp [State.writeCmd, hu, hd]

/-- What a write to any port register but `CMD` leaves in each operand register (R241). -/
theorem State.portWrite_of_ne_cmd (s : State) {r : PortReg} (v : Word) (hr : r ≠ .cmd) :
    s.portWrite r v = .next { s with
      base := if r = .base then truncAw s.params v else s.base
      len := if r = .len then truncAw s.params v else s.len
      off := if r = .off then truncAw s.params v else s.off
      val := if r = .val then v else s.val } := by
  cases r with
  | cmd => exact absurd rfl hr
  | base | len | off | val | res | status | fault => rfl

/-- `BASE`, `LEN` and `OFF` keep the value modulo `2^AW`, which 64 bits hold (R21, log 2). -/
theorem truncAw_toNat (p : Params) (v : Word) : (truncAw p v).toNat = v.toNat % 2 ^ p.aw := by
  rw [truncAw, BitVec.toNat_ofNat]
  exact Nat.mod_eq_of_lt ((Nat.mod_le _ _).trans_lt v.isLt)

/-- Settles O6: the word is decoded once it is in `CMD`, and taking the fault is `State.raise`. -/
theorem illegalWordFaults : Obligations.IllegalWordFaults := by
  intro s v rest why hp hf ht hd
  refine ⟨_, (step_port hp ht).trans (State.writeCmd_illegal hf hd), rfl, ?_⟩
  rw [State.raise_fault, faultWord_toNat, wordOpc_setWidth_toNat]
  rfl

/-- Settles O8: an operand register takes a written value if it is the register written. -/
theorem hostWritesToPortRegisters : Obligations.HostWritesToPortRegisters := by
  intro s v rest r hp hr ht
  refine ⟨_, (step_port hp ht).trans (State.portWrite_of_ne_cmd _ v hr), rfl, ?_, ?_, ?_, rfl⟩ <;>
    rw [apply_ite BitVec.toNat, truncAw_toNat]

/-- Settles O5: the step is the write to `CMD`, which runs the command of a legal word. -/
theorem stepRunsDecodedCommand : Obligations.StepRunsDecodedCommand :=
  fun _ _ _ _ hp hf ht hd => (step_port hp ht).trans (State.writeCmd_command hf hd)

/-- Settles O9: `CMD` and `STATUS` are the registers narrower than the value read. -/
theorem hostReadsHaveNoSideEffect : Obligations.HostReadsHaveNoSideEffect := by
  intro s rest r hp ht
  refine ⟨_, step_port hp ht, rfl, ?_⟩
  cases r with
  | cmd | status => exact BitVec.toNat_setWidth_of_le (by decide)
  | base | len | off | val | res | fault => rfl

/-! ### `NOP` (R240) -/

theorem exec_of_faulted {i : Instr} {s : State} (hf : s.faulted = true) : exec i s = .next s :=
  (exec_eq_runCommand i s).trans (if_pos hf)

/-- Settles O10: ISSUE of `NOP` ends with `OK`, and its row uses no field of the word. -/
theorem nopWritesStatusOnly : Obligations.NopWritesStatusOnly := by
  refine ⟨fun _ hr => exec_finish (st := .ok) (rd := []) hr rfl, fun _ => exec_of_faulted,
    decodeOfEncode .nop rfl, fun w hlt hw => ?_⟩
  have hopc : wordOpc w = Opcode.nop.code := wordOpc_eq_zero hlt
  exact decodeWord_unusedField hopc fun hzero => hw (eq_commandWord_of_unusedZero rfl hopc hzero)

end Sys2Proof.Machine
end

section
/-! PROOFS (60_exceptions.md). Taking a fault (R304, R306), ending with an error status (R302), what no
command writes, and the faulted state (R307, R308). -/

namespace Sys2Proof.Machine

/-! ### Taking a fault -/

/-- The causes that ISSUE can find are those of R303 but `Race`: the codes 1 to 9. -/
theorem Cause.code_of_ne_race {c : Cause} (h : c ≠ .race) :
    1 ≤ c.code.toNat ∧ c.code.toNat ≤ 9 := by
  cases c with
  | race => exact absurd rfl h
  | illegalCommand | outOfRange | badBitRange | addressWrap | undefinedRecord | readOnlyView |
    staleView | readOnlyField | undefinedField => decide

/-- An unfaulted block that a command leaves faulted took its fault in ISSUE, with a cause other than
`Race`: a command that goes on to COMMIT is not raced yet (R77, R306). -/
theorem exec_enters_fault {i : Instr} {s t : State} (hf : s.faulted = false)
    (h : exec i s = .next t) (ht : t.faulted = true) :
    ∃ c, c ≠ .race ∧ t = s.raise i.opcode.code c := by
  rcases exec_cases h with ⟨-, rfl⟩ | ⟨-, c, hc, rfl⟩ | ⟨-, p, hp, rfl⟩
  · exact absurd (hf.symm.trans ht) (by decide)
  · exact ⟨c, issueOf_ne_race hc, rfl⟩
  · obtain ⟨hkeep, -⟩ :=
      s.launch_spec (p := { p with opc := i.opcode.code }) (issueOf_form hp).not_raced
    exact absurd (hf.symm.trans (hkeep.symm.trans ht)) (by decide)

/-- Settles O41: the only fault an unfaulted block takes from a command is one that ISSUE finds. -/
theorem faultEntryIsPrecise : Obligations.FaultEntryIsPrecise := by
  intro s t i hf h ht
  obtain ⟨c, hc, rfl⟩ := exec_enters_fault hf h ht
  obtain ⟨hlo, hhi⟩ := Cause.code_of_ne_race hc
  exact ⟨rfl, c.code.toNat, hlo, hhi, faultWord_toNat i.opcode.code c⟩

/-! ### Ending with an error status -/

/-- What ISSUE hands to COMMIT with an error status is that status alone (R302, R305). -/
theorem IssueForm.finish_of_status_ne_ok {i : Instr} {s : State} {p : Pending}
    (h : IssueForm i s p) (hst : p.status ≠ .ok) :
    Issued.ready p = .finish p.status p.reads := by
  cases h with
  | status => rfl
  | result | stores | ip6Owned | tcpOwned | ip6Decoded | tcpDecoded => exact absurd rfl hst

theorem State.commit_status {s : State} {p : Pending} (h : p.raced = false) :
    (s.commit p).status = p.status.code := by
  rw [State.commit_of_not_raced h, State.finish_status]

/-- Settles O42: a command that does not fault goes on to COMMIT, and leaves a status other than `OK`
only if its ISSUE ends with one. -/
theorem errorStatusWritesStatusOnly : Obligations.ErrorStatusWritesStatusOnly := by
  intro s t i hr h hst ht
  rcases exec_cases h with ⟨-, rfl⟩ | ⟨-, c, -, rfl⟩ | ⟨-, p, hp, -⟩
  · rfl
  · exact absurd (ht.symm.trans (s.raise_faulted _ c)) (by decide)
  · have form := issueOf_form hp
    by_cases hok : p.status = .ok
    · cases h.symm.trans (exec_ready hr hp)
      have hstatus : (s.commit { p with opc := i.opcode.code }).status = Status.code .ok :=
        hok ▸ State.commit_status form.not_raced
      exact absurd hstatus hst
    · cases h.symm.trans (exec_finish hr (hp.trans (form.finish_of_status_ne_ok hok)))
      rfl

/-! ### What no command writes -/

/-- COMMIT writes `RES`, `STATUS`, `FAULT`, the records and memory alone: it ends the command in flight
and may draw free values (R76, R77). -/
theorem State.commit_frame (s : State) (p : Pending) :
    ∃ res st f i6 tc m d, s.commit p = { s with
      res := res, status := st, fault := f, ip6 := i6, tcp := tc, pending := none, mem := m
      draws := d } := by
  rcases s.commit_cases p with ⟨-, -, h⟩ | ⟨-, h⟩ <;> rw [h] <;>
    exact ⟨_, _, _, _, _, _, _, rfl⟩

/-- Everything a command can write (R304). -/
theorem exec_frame {i : Instr} {s t : State} (h : exec i s = .next t) :
    ∃ res st f i6 tc q m d, t = { s with
      res := res, status := st, fault := f, ip6 := i6, tcp := tc, pending := q, mem := m
      draws := d } := by
  rcases exec_cases h with ⟨-, rfl⟩ | ⟨-, c, -, rfl⟩ | ⟨-, p, -, rfl⟩
  · exact ⟨_, _, _, _, _, _, _, _, rfl⟩
  · exact ⟨_, _, _, _, _, _, _, _, rfl⟩
  · rcases s.launch_cases { p with opc := i.opcode.code } with ⟨-, he⟩ | ⟨-, he⟩
    · exact ⟨_, _, _, _, _, _, _, _, he⟩
    · obtain ⟨res, st, f, i6, tc, m, d, hc⟩ := s.commit_frame { p with opc := i.opcode.code }
      exact ⟨res, st, f, i6, tc, none, m, d, he.trans hc⟩

/-- Settles O46: the operand registers, `CMD` and the fields of the outside are not among what a
command can write. -/
theorem commandsKeepOperands : Obligations.CommandsKeepOperands := by
  intro s t i h
  obtain ⟨res, st, f, i6, tc, q, m, d, rfl⟩ := exec_frame h
  exact ⟨rfl, rfl, rfl, rfl, rfl, rfl, rfl, rfl, rfl, rfl, rfl⟩

/-! ### The faulted state -/

/-- A write to `CMD` in the faulted state sets `CMD` alone (R242, R307). -/
theorem State.writeCmd_faulted {s : State} (v : Word) (hf : s.faulted = true) :
    s.writeCmd v = .next { s with cmd := v.setWidth 32 } := if_pos hf

/-- Settles O7: the step is the write to `CMD`, and the word is not looked at. -/
theorem faultedBlockIgnoresCommands : Obligations.FaultedBlockIgnoresCommands :=
  fun _ v _ hp hf ht => (step_port hp ht).trans (State.writeCmd_faulted v hf)

/-- In the faulted state a port access leaves `FAULT` and `STATUS` and issues no command (R241, R307). -/
theorem State.portAccess_faulted {s t : State} {a : PortAccess} (hf : s.faulted = true)
    (h : s.portAccess a = .next t) :
    t.fault = s.fault ∧ t.status = s.status ∧ t.pending = s.pending := by
  rcases State.portAccess_cases h with ⟨v, -, hw⟩ | ⟨_, _, _, _, _, rfl⟩
  · cases (State.writeCmd_faulted v hf).symm.trans hw
    exact ⟨rfl, rfl, rfl⟩
  · exact ⟨rfl, rfl, rfl⟩

/-- A move of the outside other than a reset leaves `FAULT` and `STATUS`, and puts no command in
flight. -/
theorem State.move_keeps_fault {s t : State} {m : Move} (hp : s.pending = none) (hm : m ≠ .reset)
    (h : s.move m = .next t) : t.fault = s.fault ∧ t.status = s.status ∧ t.pending = none := by
  rcases State.move_cases h with ⟨a, b, -, -, rfl⟩ | ⟨a, -, -, rfl⟩ | ⟨rfl, -⟩
  · simp [hp]
  · obtain ⟨b, n, he, -⟩ := s.agentRead_eq a
    rw [he]
    exact ⟨rfl, rfl, hp⟩
  · exact absurd rfl hm

/-- Settles O45: of the four things a step can do, COMMIT needs a command in flight, and of the moves
of the outside only a reset writes `FAULT` or `STATUS`. -/
theorem firstFaultStays : Obligations.FirstFaultStays := by
  intro s t hf hp hstep
  rcases step_cases hstep with ⟨p, hsome, -, -⟩ | ⟨-, -, rfl⟩ | ⟨a, rest, -, -, ha⟩ |
    ⟨m, rest, htodo, hm⟩
  · exact absurd (hp.symm.trans hsome) (by simp)
  · exact .inr ⟨rfl, rfl, hp⟩
  · obtain ⟨hfault, hstatus, hpending⟩ :=
      State.portAccess_faulted (s := { s with todo := rest, pos := s.pos + 1 }) hf ha
    exact .inr ⟨hfault, hstatus, hpending.trans hp⟩
  · by_cases hreset : m = .reset
    · subst hreset
      exact .inl ⟨rest, htodo.imp_right And.right⟩
    · exact .inr (State.move_keeps_fault (s := { s with todo := rest }) hp hreset hm)

end Sys2Proof.Machine
end

section
/-! PROOFS (70_reset_and_hazards.md). What a reset step does (R350, R352), and that the machine right
after reset is in order. -/

namespace Sys2Proof.Machine

/-- A reset step resets the block, and the event list loses the reset (R350, log 5). -/
theorem step_reset {s : State} {rest : List Event} (h : s.movesNext .reset rest) :
    step s = .next ({ s with todo := rest } : State).resetBlock :=
  step_of_movesNext h

/-- Settles O56: a reset step is `State.resetBlock`, whose laws say what each field becomes. -/
theorem resetRestoresTheBlock : Obligations.ResetRestoresTheBlock := by
  intro s rest h
  refine ⟨({ s with todo := rest } : State).resetBlock, step_reset h, ?_⟩
  simp [Record.reset]

theorem State.resetWith_faulted (p : Params) : (State.resetWith p).faulted = false := by
  simp [State.faulted, State.resetWith]

/-- Right after reset the operand registers are 0, memory lists nothing, `FAULT` is 0 beside the
status `OK`, both records are `EMPTY` and no command is in flight (R350, log 4). -/
theorem State.resetWith_inv (p : Params) : (State.resetWith p).Inv where
  base := Nat.two_pow_pos _
  len := Nat.two_pow_pos _
  off := Nat.two_pow_pos _
  memWf := rfl
  memBelow := rfl
  outcome := ⟨fun hf => absurd ((State.resetWith_faulted p).symm.trans hf) (by decide),
    fun _ => ⟨rfl, .ok, rfl⟩⟩
  ip6 := Record.reset_bindingOk _ _ _
  tcp := ⟨Record.reset_bindingOk _ _ _, fun hbound => by cases hbound⟩
  pending := fun _ hp => by cases hp

/-- The machine right after reset is what a reset makes of itself (R350). -/
theorem State.resetBlock_resetWith (p : Params) :
    (State.resetWith p).resetBlock = State.resetWith p := rfl

/-- Settles O57: the invariant is checked register by register, and a block that has been reset has
no view. -/
theorem resetMeetsTheInvariants : Obligations.ResetMeetsTheInvariants := fun p =>
  ⟨State.resetWith_inv p, State.resetBlock_resetWith p ▸ (State.resetWith p).resetBlock_viewsValid⟩

end Sys2Proof.Machine
end
